-- ==== Sys2Proof/Word.lean ====
section
/-! DEFINITION. The data widths of the engine: `DATA_W = 8` bits on the data path (spec/00_scope.md R8), byte
strings for everything longer than a byte (spec/20_memory.md R66: the first byte on the wire is the first of the list). -/

namespace Sys2Proof

/-- A byte; bit 0 is the least significant bit (R11) and bit `i` travels on data line `D[i]` (R36). -/
abbrev Byte := BitVec 8

/-- A byte string: paths, names and payloads (R11). -/
abbrev Path := List Byte

/-- `DATA_W` (R8). -/
abbrev DATA_W : Nat := 8

end Sys2Proof
end

