-- ==== Sys2Proof/Config.lean ====
section
/-! DEFINITION. What an implementation fixes: the constants of spec/00_scope.md R8, the configuration record of R9
with the constraints of R10, and the reference configuration REFCFG. Then the kinds of answer the environment gives
(R16) and the FREE VALUES: constants with no body, so that no proof can see a value of theirs. -/

namespace Sys2Proof

/-! ## Constants (R8) -/

/-- Handshake signal roles (R8). -/
abbrev N_SIG : Nat := 5
/-- Capacity of the I/O buffer (R8, R23). -/
abbrev BUF_CAP : Nat := 512
/-- Drive slots A to D (R8). -/
abbrev N_DRIVES : Nat := 4
/-- Bytes of a logical sector (R8). -/
abbrev LSEC : Nat := 128
/-- Bytes of a physical sector (R8). -/
abbrev PSEC : Nat := 512
/-- Logical sectors of a track (R8). -/
abbrev SPT : Nat := 36
/-- Tracks of an image (R8). -/
abbrev TRACKS : Nat := 80
/-- Bytes of a track (R8). -/
abbrev TRACK_BYTES : Nat := 4608
/-- Bytes of an image (R8). -/
abbrev IMAGE_BYTES : Nat := 368640
/-- Fill byte of format and of create image (R8). -/
abbrev FILL : Byte := 0xE5#8
/-- Greatest length of `cwd`, the root marker included (R8). -/
abbrev CWD_CAP : Nat := 64
/-- Greatest length of a string on the wire (R8, R255). -/
abbrev WIRE_STR_MAX : Nat := 63
/-- On-device capacity of a slot's path (R8, R255). -/
abbrev DEV_PATH_CAP : Nat := 255
/-- The image extension `.p32` (R8). -/
abbrev IMG_EXT : Path := [0x2E#8, 0x70#8, 0x33#8, 0x32#8]
/-- The one opcode whose value the source gives (R8). -/
abbrev OP_LREAD : Byte := 0x51#8
abbrev RC_OK : Byte := 0#8
abbrev RC_WRPROT : Byte := 1#8
abbrev RC_FMTERR : Byte := 2#8
abbrev RC_RDERR : Byte := 3#8
abbrev RC_WRERR : Byte := 4#8
abbrev RC_INVDRV : Byte := 5#8
abbrev RC_NOPATH : Byte := 6#8
abbrev RC_LONGPATH : Byte := 7#8
abbrev RC_CREATERR : Byte := 8#8
abbrev RC_IMGUNK : Byte := 12#8
/-- First byte of the image-info record (R8). -/
abbrev GEOM_TRACKS : Byte := 80#8
/-- Second byte of the image-info record (R8). -/
abbrev GEOM_SPT : Byte := 36#8

/-- The ten result codes (R8, R274). -/
abbrev resultCodes : List Byte :=
  [RC_OK, RC_WRPROT, RC_FMTERR, RC_RDERR, RC_WRERR, RC_INVDRV, RC_NOPATH, RC_LONGPATH, RC_CREATERR, RC_IMGUNK]

/-! ## Configuration (R9, R10) -/

/-- One legacy opcode with its two constants `LEG_ARGS(op)` and `LEG_ZEROS(op)` (R9, R212). -/
structure LegRow where
  op    : Byte
  args  : Nat
  zeros : Nat
  deriving DecidableEq, Repr, Inhabited

/-- The open parameters of R9. `OP_LREAD` is no field: the source fixes it. -/
structure Config where
  bIdle     : Byte
  bAck      : Byte
  bNak      : Byte
  opBoot    : Byte
  opPread   : Byte
  opLwrite  : Byte
  opPwrite  : Byte
  opFormat  : Byte
  opChdrv   : Byte
  ramrd     : LegRow
  ramwr     : LegRow
  ramex     : LegRow
  spd0      : LegRow
  spd1      : LegRow
  /-- The speed toggles beyond the second that a configuration adds (R218); `N_SPD` counts them. -/
  moreSpd   : List LegRow
  opGetpath : Byte
  opMount   : Byte
  opGetcwd  : Byte
  opDir     : Byte
  opChdir   : Byte
  opCreate  : Byte
  opInfo    : Byte
  secw      : Nat
  bootCount : Nat
  geomPsize : Byte
  tIdleTx   : Nat
  tIdleRx   : Nat
  tCmd      : Nat
  tXfer     : Nat
  /-- Width of the strobe and acknowledge pulses, in microseconds (R9, R37). -/
  tPulse    : Nat
  dirOut    : Bool
  dirIn     : Bool
  ackOn     : Bool
  ackOff    : Bool
  root      : Path
  sep       : Path
  deriving DecidableEq, Repr, Inhabited

/-- `N_SPD`, the number of speed-mode toggles (R9, R218). -/
abbrev Config.nSpd (c : Config) : Nat := 2 + c.moreSpd.length

/-- The nineteen opcodes of R100 and every further legacy opcode (R10 c). -/
abbrev Config.opcodes (c : Config) : List Byte :=
  [c.opBoot, OP_LREAD, c.opPread, c.opLwrite, c.opPwrite, c.opFormat, c.opChdrv,
   c.ramrd.op, c.ramwr.op, c.ramex.op, c.spd0.op, c.spd1.op,
   c.opGetpath, c.opMount, c.opGetcwd, c.opDir, c.opChdir, c.opCreate, c.opInfo] ++ c.moreSpd.map (·.op)

/-- The legacy rows (R212). -/
abbrev Config.legacyRows (c : Config) : List LegRow :=
  [c.ramrd, c.ramwr, c.ramex, c.spd0, c.spd1] ++ c.moreSpd

/-- The constraints of R10, clause by clause, and three more (DEDUCED, notes/assumptions/19.md): `ROOT` and `SEP` are
not empty and `ROOT` fits `cwd` (R27, R233). -/
abbrev Config.Valid (c : Config) : Prop :=
  (c.bAck :: c.bNak :: resultCodes).Nodup ∧
  (c.bIdle :: c.opcodes).Nodup ∧
  c.tIdleTx < c.tIdleRx ∧
  (1 ≤ c.secw ∧ c.secw < 6) ∧
  (1 ≤ c.bootCount ∧ c.bootCount ≤ BUF_CAP) ∧
  (∀ r ∈ c.legacyRows, r.args ≤ BUF_CAP) ∧
  (0 < c.tIdleTx ∧ 0 < c.tIdleRx ∧ 0 < c.tCmd ∧ 0 < c.tXfer) ∧
  (c.dirOut ≠ c.dirIn ∧ c.ackOn ≠ c.ackOff) ∧
  (c.root ≠ [] ∧ c.sep ≠ [] ∧ c.root.length ≤ CWD_CAP)

/-- REFCFG (R9). The timeouts, `T_PULSE` and the line levels are open there; the numbers here are a DESIGN CHOICE
(notes/assumptions/2.md) on which no rule depends. -/
def Config.refcfg : Config where
  bIdle := 0xAA#8
  bAck := 0x33#8
  bNak := 0x99#8
  opBoot := 0x42#8
  opPread := 0x52#8
  opLwrite := 0x54#8
  opPwrite := 0x57#8
  opFormat := 0x46#8
  opChdrv := 0x49#8
  ramrd := ⟨0x55#8, 4, 1⟩
  ramwr := ⟨0x44#8, 4, 1⟩
  ramex := ⟨0x4A#8, 2, 1⟩
  spd0 := ⟨0x4E#8, 0, 1⟩
  spd1 := ⟨0x53#8, 0, 1⟩
  moreSpd := []
  opGetpath := 0x50#8
  opMount := 0x4D#8
  opGetcwd := 0x47#8
  opDir := 0x4C#8
  opChdir := 0x43#8
  opCreate := 0x4B#8
  opInfo := 0x59#8
  secw := 4
  bootCount := 128
  geomPsize := 2#8
  tIdleTx := 10
  tIdleRx := 20
  tCmd := 100
  tXfer := 50
  tPulse := 5
  dirOut := true
  dirIn := false
  ackOn := false
  ackOff := true
  root := [0x2F#8]
  sep := [0x2F#8]

/-! ## What the environment answers (R16) -/

/-- One pass of a bounded wait as the host and the clock make it: the levels of the three input lines when the engine
samples them (`true` is high) and the milliseconds the clock moves in the pass (R34 to R37). -/
structure Sample where
  ibf : Bool
  obf : Bool
  din : Byte
  dt  : Nat
  deriving DecidableEq, Repr, Inhabited

/-- One directory entry of `Coll.DirNext` (R44). -/
structure Entry where
  name  : Path
  isDir : Bool
  deriving DecidableEq, Repr, Inhabited

/-- An answer of `Coll.Mount` (R42). `ok` carries the bytes of the file, used where the machine has not seen the file
before (notes/assumptions/12.md). -/
inductive MountAnswer where
  | ok (contents : List Host.Cell)
  | noPath
  | imgUnknown
  | nak
  deriving DecidableEq, Repr, Inhabited

/-! ## Free values: constants with no body, each applied to a counter in State -/

/-- The sample that decides the wait number `n` made after the host's script has run out (U4, notes/assumptions/3.md). -/
opaque Config.freeSample : Nat → Sample
/-- `crc` after a poll (U1, notes/assumptions/7.md). -/
opaque Config.freeCrc : Nat → Byte
/-- `buf` after a poll (U2, notes/assumptions/7.md). -/
opaque Config.freeBuf : Nat → Vector Byte 512
/-- `D_out` after a poll (U3, notes/assumptions/7.md). -/
opaque Config.freeDOut : Nat → Byte
/-- `buf[k..]` after a read that delivered `k` bytes only: draw number and index (R62, U2). -/
opaque Config.freeTail : Nat → Nat → Byte
/-- What a storage layer delivers as the byte at an offset beyond the image: draw number and offset (U6). -/
opaque Config.freeBeyond : Nat → Nat → Byte
/-- An answer of `Coll.Mount` the state does not hold (U11). -/
opaque Config.freeMount : Nat → MountAnswer
/-- An answer of `Coll.DirOpen` the state does not hold: none, or the directory's entries in order (U12). -/
opaque Config.freeOpen : Nat → Option (List Entry)
/-- The entries an open handle still has to give when the collaborator holds none for it (U12). -/
opaque Config.freeEntries : Nat → List Entry
/-- An answer of `Coll.ChdirProbe` the state does not hold (U11). -/
opaque Config.freeProbe : Nat → Bool
/-- An answer of `Coll.CreateImage` the state does not hold (U11). -/
opaque Config.freeCreate : Nat → Bool

end Sys2Proof
end

