-- ==== Sys2Proof/Syntax.lean ====
section
/-! DEFINITION. The commands: one constructor per row of spec/opcode_table.json (spec/30_encoding.md R100). An
"instruction" is one host command and its fetch is the `Recv` of the opcode byte (spec/00_scope.md R7); the argument,
payload and checksum bytes are exchanged by the handler while it runs, so a constructor holds what the opcode byte
alone says. Whole commands with their operands are the frames of Sys2Proof/Machine/Frame.lean. -/

namespace Sys2Proof

/-- One host command, as the dispatcher sees it (R100, R101). -/
inductive Instr where
  /-- The presence byte in opcode position: a silent no-op (R154). -/
  | idle
  /-- Boot-sector read (R190). -/
  | boot
  /-- Logical read (R191). -/
  | lread
  /-- Physical read (R192). -/
  | pread
  /-- Logical write (R193). -/
  | lwrite
  /-- Physical write (R194). -/
  | pwrite
  /-- Format track (R195). -/
  | format
  /-- Change drive (R211). -/
  | chdrv
  /-- Legacy RAM read (R214). -/
  | ramrd
  /-- Legacy RAM write (R215). -/
  | ramwr
  /-- Legacy RAM execute (R216). -/
  | ramex
  /-- First speed-mode toggle (R217). -/
  | spd0
  /-- The other speed-mode toggles (R218): `0` is `SPD1` itself, `k + 1` the `k`-th row a configuration adds. -/
  | spd1 (k : Nat)
  /-- Get image path (R236). -/
  | getpath
  /-- Mount image (R238). -/
  | mount
  /-- Get working directory (R241). -/
  | getcwd
  /-- Directory listing (R243). -/
  | dir
  /-- Change working directory (R248). -/
  | chdir
  /-- Create image (R251). -/
  | create
  /-- Image info (R253). -/
  | info
  /-- Any other byte in opcode position (R156). -/
  | unrecognised (b : Byte)
  deriving DecidableEq, Repr

end Sys2Proof
end

