-- ==== Sys2Proof/WellFormed.lean ====
section
/-! DEFINITION. Which terms of `Instr` are commands under a configuration: a further speed toggle exists only if the
configuration has its row (spec/43_drive_change_legacy.md R218), and an unrecognised byte is one outside the map and
not the idle byte (spec/30_encoding.md R102). -/

namespace Sys2Proof

/-- Well-formed under configuration `c`. -/
def Instr.wellFormed (c : Config) : Instr → Bool
  | .idle | .boot | .lread | .pread | .lwrite | .pwrite | .format | .chdrv => true
  | .ramrd | .ramwr | .ramex | .spd0 => true
  | .spd1 k => decide (k ≤ c.moreSpd.length)
  | .getpath | .mount | .getcwd | .dir | .chdir | .create | .info => true
  | .unrecognised b => decide (b ∉ c.bIdle :: c.opcodes)

end Sys2Proof
end

