-- ==== Sys2Proof/Decode.lean ====
section
/-! DEFINITION. The opcode map of spec/30_encoding.md R100 to R102 as a total function from the opcode byte, with the
default row; then the encoder from the same table, and the host's table-word form. -/

namespace Sys2Proof

/-- Why no command could be read from a list of bytes. -/
inductive DecodeError where
  /-- No byte is there to read: the opcode `Recv` would time out (R153). -/
  | noByte
  deriving DecidableEq, Repr

/-- The byte of a further speed toggle (R218); absent rows are ruled out by `Instr.wellFormed`. -/
def moreSpdOp (c : Config) (k : Nat) : Byte :=
  match c.moreSpd[k]? with
  | some r => r.op
  | none => c.spd1.op

/-- The dispatcher's map: all eight bits are compared, the idle byte first (R154), then the rows of R100, else the
default (R102). -/
def decodeByte (c : Config) (b : Byte) : Instr :=
  if b = c.bIdle then .idle
  else if b = c.opBoot then .boot
  else if b = OP_LREAD then .lread
  else if b = c.opPread then .pread
  else if b = c.opLwrite then .lwrite
  else if b = c.opPwrite then .pwrite
  else if b = c.opFormat then .format
  else if b = c.opChdrv then .chdrv
  else if b = c.ramrd.op then .ramrd
  else if b = c.ramwr.op then .ramwr
  else if b = c.ramex.op then .ramex
  else if b = c.spd0.op then .spd0
  else if b = c.spd1.op then .spd1 0
  else if b = c.opGetpath then .getpath
  else if b = c.opMount then .mount
  else if b = c.opGetcwd then .getcwd
  else if b = c.opDir then .dir
  else if b = c.opChdir then .chdir
  else if b = c.opCreate then .create
  else if b = c.opInfo then .info
  else
    match c.moreSpd.findIdx? (fun r => r.op == b) with
    | some k => .spd1 (k + 1)
    | none => .unrecognised b

/-- Decode the command at the head of a byte stream; only its first byte, the opcode, is consumed (R7, R101). -/
def decode (c : Config) : List Byte → Except DecodeError (Instr × List Byte)
  | [] => .error .noByte
  | b :: rest => .ok (decodeByte c b, rest)

/-- The opcode byte of a command (R100). -/
def opcodeOf (c : Config) : Instr → Byte
  | .idle => c.bIdle
  | .boot => c.opBoot
  | .lread => OP_LREAD
  | .pread => c.opPread
  | .lwrite => c.opLwrite
  | .pwrite => c.opPwrite
  | .format => c.opFormat
  | .chdrv => c.opChdrv
  | .ramrd => c.ramrd.op
  | .ramwr => c.ramwr.op
  | .ramex => c.ramex.op
  | .spd0 => c.spd0.op
  | .spd1 0 => c.spd1.op
  | .spd1 (k + 1) => moreSpdOp c k
  | .getpath => c.opGetpath
  | .mount => c.opMount
  | .getcwd => c.opGetcwd
  | .dir => c.opDir
  | .chdir => c.opChdir
  | .create => c.opCreate
  | .info => c.opInfo
  | .unrecognised b => b

/-- The words of a command: its one opcode byte (R90, R100). -/
def encode (c : Config) (i : Instr) : List Byte := [opcodeOf c i]

/-- Bytes of the longest inbound frame: a physical write, `4 + 513` (R103). -/
abbrev LONGEST_FRAME : Nat := 517

/-- The bytes of a table word in wire order (bits 7..0 are the first byte): `n` of them from `w`. -/
def wordBytes : Nat → Nat → List Byte
  | 0, _ => []
  | n + 1, w => BitVec.ofNat 8 w :: wordBytes n (w / 256)

/-- A table word laid out as the host would send it: `nbits` bits of `w`, then zeros up to the longest frame. -/
def tableBytes (nbits w : Nat) : List Byte :=
  wordBytes LONGEST_FRAME (w % 2 ^ nbits)

/-- The instruction the decoder reads from a word of spec/opcode_table.json, whose opcode values are REFCFG's. -/
def decodeTableWord (nbits w : Nat) : Option Instr :=
  match decode Config.refcfg (tableBytes nbits w) with
  | .ok (i, _) => some i
  | .error _ => none

end Sys2Proof
end

