-- ==== Sys2Proof/Machine/State.lean ====
section
/-! DEFINITION. The state of the machine (spec/10_state.md R20): the engine context, the per-transaction latches, the
bus with the host's side of it, the collaborators, the environment's pending steps, and the model's own records. Plain
data throughout. `INVENTORY.md` lists every element with its rule and its reset value. -/

namespace Sys2Proof.Machine

/-! ## Outcomes other than a next state -/

/-- The machine has no fault: every failure of R270 is absorbed into a next state (R271), so there is no constructor
and nobody raises one. Safe: nothing is stopped. -/
inductive Fault where
  deriving DecidableEq, Repr

/-- Why a step or an instruction is outside the model. -/
inductive Refusal where
  /-- Raised by `exec` for an instruction that has no meaning yet, by its mnemonic. Safe: the model stops. -/
  | notModelled (mnemonic : String)
  /-- Raised by `step` when a poll is started while one is running (U14, treated as 'refuse'; R313). Safe: the model
  stops, and no reachable state raises it because `phase` is idle between polls (R24). -/
  | pollReentered
  deriving DecidableEq, Repr

/-! ## The engine context -/

/-- The sequencer position `phase` (R24): idle between polls, else the rule of the dispatcher that is running. The
position inside a handler is the continuation of its definition (D2). -/
inductive Phase where
  | idle
  | presence
  | opcodeRead
  | handler (i : Instr)
  deriving DecidableEq, Repr

/-- The operation kind of a block command as three flag bits (R25, R171). -/
structure KindFlags where
  fRead   : Bool
  fWrite  : Bool
  fFormat : Bool
  deriving DecidableEq, Repr, Inhabited

/-- The per-transaction latches (R25). -/
structure Latches where
  op     : Byte
  kind   : KindFlags
  boot   : Bool
  count  : Nat
  sel    : Byte
  drive  : Fin 4
  sector : BitVec 6
  track  : Byte
  result : Byte
  off    : Nat
  deriving DecidableEq, Repr, Inhabited

end Sys2Proof.Machine

namespace Sys2Proof

/-- The latches after a poll (U2, notes/assumptions/7.md): a free value. -/
opaque Config.freeLatches : Nat → Machine.Latches

end Sys2Proof

namespace Sys2Proof.Machine

/-- The failure causes of R270. No register holds one; the model records the last in `State.lastEnd`. -/
inductive Cause where
  | rxTimeout
  | txTimeout
  | crcMismatch
  | argCheck
  | presenceFail
  | linkLoss
  | unknownOpcode
  deriving DecidableEq, Repr

/-! ## The bus -/

/-- One act on the lines inside `Send` or `Recv` (R121, R124). -/
inductive LineEvent where
  | dir (level : Bool)
  | drive (v : Byte)
  | hiZ
  | stb (level : Bool)
  | ack (level : Bool)
  | pulse (micros : Nat)
  | ibf (level : Bool)
  | obf (level : Bool)
  | data (v : Byte)
  deriving DecidableEq, Repr

/-- One byte-level event (R122, R128): a `Send` with its outcome, a byte latched, a `Recv` that saw none. -/
inductive WireEvent where
  | tx (v : Byte) (accepted : Bool)
  | rx (v : Byte)
  | rxTimeout
  deriving DecidableEq, Repr

/-- The bus as the engine sees it (R30 to R37): output lines, input lines at their last sample, the clock, the host's
coming samples, how many waits a free sample decided, and the model's records of lines and bytes, newest first. -/
structure Bus where
  sDir  : Bool
  sStb  : Bool
  sAck  : Bool
  dOe   : Bool
  dOut  : Byte
  sIbf  : Bool
  sObf  : Bool
  dIn   : Byte
  clock : Nat
  host  : List Sample
  draws : Nat
  lines : List LineEvent
  wire  : List WireEvent
  deriving DecidableEq, Repr

/-! ## The collaborators -/

/-- Bytes of an image as (offset, byte) pairs in one canonical form (`Memory.wf` of Machine/Memory.lean). -/
abbrev Memory := List Host.Cell

/-- One record of the drive-slot table (R41) with the image store behind it (R60) and whether bytes were written since
the last flush, which a flush reads (R40 b, R64, R73). -/
structure Slot where
  isOpen    : Bool
  writable  : Bool
  path      : Path
  image     : Memory
  unflushed : Bool
  deriving DecidableEq, Repr, Inhabited

/-- An open directory of the storage layer (R44): the handle and the entries it still has to give. -/
structure OpenDir where
  handle  : Nat
  entries : List Entry
  deriving DecidableEq, Repr, Inhabited

/-- One request to the collaborators (R13, R42 to R45). -/
inductive Request where
  | memRead (d : Fin 4) (off n : Nat)
  | memWrite (d : Fin 4) (off n : Nat)
  | memFlush (d : Fin 4)
  | unmount (d : Fin 4)
  | mount (d : Fin 4) (path : Path) (ro : Bool)
  | dirOpen (path : Path)
  | dirNext (handle : Nat)
  | dirClose (handle : Nat)
  | chdirProbe (path : Path)
  | createImage (path : Path)
  deriving DecidableEq, Repr

/-- The collaborators (R41 to R45): drive slots, files whose bytes are known, open directories, the answers they are
going to give to each kind of oracle call, how many free answers were drawn, and the model's record of requests,
newest first. -/
structure Coll where
  slots      : Vector Slot 4
  files      : List (Path × Memory)
  dirs       : List OpenDir
  nextHandle : Nat
  stores     : List Nat
  mounts     : List MountAnswer
  opens      : List (Option (List Entry))
  probes     : List Bool
  creates    : List Bool
  draws      : Nat
  requests   : List Request
  deriving DecidableEq, Repr

/-- What the environment may do between two polls (R46, R328). -/
inductive EnvAction where
  /-- The user interface mounts, unmounts or replaces what is behind a slot. -/
  | setSlot (d : Fin 4) (isOpen writable : Bool) (path : Path) (contents : List Host.Cell)
  /-- A file gets new contents. -/
  | setFile (path : Path) (contents : List Host.Cell)
  /-- A file goes away, or its contents change in a way the state does not know. -/
  | loseFile (path : Path)
  /-- A directory changes under its open handle. -/
  | setDir (handle : Nat) (entries : List Entry)
  /-- Time passes. -/
  | tick (ms : Nat)
  /-- The host moves its lines. -/
  | setLines (ibf obf : Bool) (din : Byte)
  deriving DecidableEq, Repr

/-! ## The whole state -/

structure State where
  /-- The configuration, fixed for the life of the machine (R47; notes/assumptions/1.md). -/
  cfg : Config
  link : Bool
  crc : Byte
  buf : Vector Byte 512
  cwd : Path
  dircur : Option Nat
  phase : Phase
  latch : Latches
  bus : Bus
  coll : Coll
  /-- What the environment does before each coming poll, one batch a poll (R46). -/
  between : List (List EnvAction)
  /-- The result `poll` last returned to its caller (R38, R157). -/
  pollResult : Bool
  /-- The model's record of how the last poll ended: a cause of R270, or none. -/
  lastEnd : Option Cause
  /-- How many polls have left free values behind (U1 to U3). -/
  draws : Nat
  deriving DecidableEq, Repr

/-! ## Reset (R50 to R54, R310) -/

/-- The latches at reset: unspecified (R52), zero here (DESIGN CHOICE, notes/assumptions/6.md). -/
def Latches.reset : Latches where
  op := 0
  kind := ⟨false, false, false⟩
  boot := false
  count := 0
  sel := 0
  drive := 0
  sector := 0
  track := 0
  result := 0
  off := 0

/-- A slot at reset: closed (DESIGN CHOICE, R54 leaves it to the collaborator; notes/assumptions/6.md). -/
def Slot.reset : Slot where
  isOpen := false
  writable := false
  path := []
  image := []
  unflushed := false

/-- The bus at reset: outputs at their defaults (R51); the rest is the host's (R54, notes/assumptions/6.md). -/
def Bus.reset (c : Config) : Bus where
  sDir := c.dirIn
  sStb := true
  sAck := c.ackOff
  dOe := false
  dOut := 0
  sIbf := true
  sObf := true
  dIn := 0
  clock := 0
  host := []
  draws := 0
  lines := []
  wire := []

/-- The collaborators at reset: nothing mounted, nothing known (R54, notes/assumptions/6.md). -/
def Coll.reset : Coll where
  slots := Vector.replicate 4 Slot.reset
  files := []
  dirs := []
  nextHandle := 0
  stores := []
  mounts := []
  opens := []
  probes := []
  creates := []
  draws := 0
  requests := []

/-- The machine right after reset, under configuration `c` (R50 to R54, R310). -/
def State.resetWith (c : Config) : State where
  cfg := c
  link := false
  crc := 0
  buf := Vector.replicate 512 0
  cwd := c.root
  dircur := none
  phase := .idle
  latch := Latches.reset
  bus := Bus.reset c
  coll := Coll.reset
  between := []
  pollResult := false
  lastEnd := none
  draws := 0

/-- The machine right after reset, under REFCFG. -/
def State.reset : State := State.resetWith Config.refcfg

end Sys2Proof.Machine
end

