-- ==== Sys2Proof/Machine/Memory.lean ====
section
/-! DEFINITION. An image as a list of cells in one canonical form (spec/20_memory.md R60, R61): offsets 0 to 368639,
strictly rising, no cell equal to what an unlisted offset reads as. An unlisted offset reads as `FILL`, the byte every
created or formatted image holds (R64, R45; DESIGN CHOICE, notes/assumptions/10.md). -/

namespace Sys2Proof.Machine

/-- What an offset that is not listed reads as. -/
def Memory.unlisted : Byte := FILL

/-- The canonical form. -/
abbrev Memory.wf (m : Memory) : Prop :=
  m.Pairwise (fun x y => x.1 < y.1) ∧ ∀ c ∈ m, c.1 < IMAGE_BYTES ∧ c.2 ≠ Memory.unlisted

/-- The byte at an offset. -/
def Memory.read : Memory → Nat → Byte
  | [], _ => Memory.unlisted
  | c :: m, a => if c.1 = a then c.2 else Memory.read m a

/-- The cells that the bytes `bs` make from offset `off` up: only those that must be listed. -/
def Memory.cellsOf : Nat → List Byte → Memory
  | _, [] => []
  | off, b :: bs =>
    if b = Memory.unlisted then Memory.cellsOf (off + 1) bs else (off, b) :: Memory.cellsOf (off + 1) bs

/-- Store `bs` from offset `off` up (R63: `v[i]` to offset `off + i`); every other offset keeps its byte. -/
def Memory.writeBytes (m : Memory) (off : Nat) (bs : List Byte) : Memory :=
  m.filter (fun c => c.1 < off) ++ Memory.cellsOf off bs ++ m.filter (fun c => off + bs.length ≤ c.1)

/-- Store `bs` from offset `off` up, as far as the image reaches: an image never grows (U6). -/
def Memory.storeBytes (m : Memory) (off : Nat) (bs : List Byte) : Memory :=
  m.writeBytes off (bs.take (IMAGE_BYTES - off))

/-- The canonical image holding the given cells, the first winning, cells beyond the image left out. -/
def Memory.canon : List Host.Cell → Memory
  | [] => []
  | c :: cs => (Memory.canon cs).storeBytes c.1 [c.2]

end Sys2Proof.Machine
end

