-- ==== Sys2Proof/Machine/Flags.lean ====
section
/-! DEFINITION. Every flag computation of the engine. There are no arithmetic condition codes (spec/10_state.md R26);
the status values are the accumulator `crc` with its zero test (spec/40_byte_transport.md R125, R126, R131) and the
operation-kind flags with the argument check (spec/42_block_io.md R171). -/

namespace Sys2Proof.Machine

/-- Fold one byte into the accumulator (R125). -/
def crcFold (crc v : Byte) : Byte := crc ^^^ v

/-- Fold a byte string into the accumulator, in order (R131 a). -/
def crcFoldAll (crc : Byte) (bs : List Byte) : Byte := bs.foldl crcFold crc

/-- The checksum byte of a byte string: its exclusive-or, from zero (R95, R96). -/
def checksum (bs : List Byte) : Byte := crcFoldAll 0 bs

/-- The zero test of the close-out (R126). -/
def crcGood (crc : Byte) : Bool := crc == 0

/-- The three kinds of R100 as flag bits. -/
def KindFlags.read : KindFlags := ⟨true, false, false⟩
def KindFlags.write : KindFlags := ⟨false, true, false⟩
def KindFlags.format : KindFlags := ⟨false, false, true⟩

/-- How many of the three flags are set (R171). -/
def KindFlags.population (f : KindFlags) : Nat := f.fRead.toNat + f.fWrite.toNat + f.fFormat.toNat

/-- The argument check of R171 fails: not exactly one flag, a count above the buffer, or a zero count on an operation
that is not a format. -/
def argCheckFails (f : KindFlags) (count : Nat) : Bool :=
  f.population != 1 || decide (count > BUF_CAP) || (count == 0 && !f.fFormat)

end Sys2Proof.Machine
end

