-- ==== Sys2Proof/Machine/Operands.lean ====
section
/-! DEFINITION. Every operand form of the wire protocol: the selector byte with the drive swap and the two sector
fields, the offset formula (spec/20_memory.md R67, R68), the drive-index byte (spec/30_encoding.md R94), the flag bytes
(R98), length-prefixed strings (R97) and the path helpers (spec/44_extended.md R233). -/

namespace Sys2Proof.Machine

/-! ## The selector byte (R67, R68, R92) -/

/-- `REMAP`: raw selector values 1 and 2 are swapped (R67). -/
def remap (raw : BitVec 2) : Fin 4 :=
  match raw.toNat with
  | 0 => 0
  | 1 => 2
  | 2 => 1
  | _ => 3

/-- `sel[7:6]`. -/
def selRaw (sel : Byte) : BitVec 2 := sel.extractLsb' 6 2

/-- The drive slot a selector byte names. -/
def selDrive (sel : Byte) : Fin 4 := remap (selRaw sel)

/-- The sector field: `sel[5:0]` for a count of 128, else the low `SECW` bits extended with zeros (R68). -/
def selSector (secw count : Nat) (sel : Byte) : BitVec 6 :=
  if count = 128 then sel.extractLsb' 0 6 else (sel.extractLsb' 0 secw).setWidth 6

/-- The selector byte of drive index `d` and sector `s`, `SEL(d, s)` (R92, R104). -/
def selByte (d : Fin 4) (s : BitVec 6) : Byte :=
  (BitVec.ofNat 2 (remap (BitVec.ofNat 2 d.val)).val) ++ s

/-- The byte offset (R68): the sector does not count in a format. -/
def byteOffset (f : KindFlags) (track : Byte) (sector : BitVec 6) : Nat :=
  if f.fFormat then track.toNat * TRACK_BYTES else track.toNat * TRACK_BYTES + sector.toNat * LSEC

/-! ## Drive-index and flag bytes (R94, R98) -/

/-- The slot a drive-index byte names at face value; 4 to 255 name none (R94, R234). -/
def driveIndex (drv : Byte) : Option (Fin 4) :=
  if h : drv.toNat < 4 then some ⟨drv.toNat, h⟩ else none

/-- `ro`: zero is writable, any other value read-only (R98). -/
def roFlag (ro : Byte) : Bool := ro != 0

/-- `wp`: 1 for a slot that is not writable (R98, R236). -/
def wpByte (writable : Bool) : Byte := if writable then 0 else 1

/-! ## Strings and paths (R97, R233) -/

/-- The first 63 bytes of a string (R233). -/
def trunc63 (s : Path) : Path := s.take WIRE_STR_MAX

/-- A length byte and the string (R97). -/
def lenPrefixed (s : Path) : List Byte := BitVec.ofNat 8 s.length :: s

/-- `Rel(p)`: `p` without a leading root marker (R233). -/
def relPath (root p : Path) : Path := if root.isPrefixOf p then p.drop root.length else p

/-- `Join(c, p)` (R233). -/
def joinPath (root sep c p : Path) : Path := if c = root then c ++ p else c ++ sep ++ p

/-- The index at which the last occurrence of `sep` in `s` starts. -/
def lastIndex (sep : Path) : Path → Option Nat
  | [] => none
  | b :: s =>
    match lastIndex sep s with
    | some j => some (j + 1)
    | none => if sep.isPrefixOf (b :: s) then some 0 else none

/-- `Parent(c)` (R233): `ROOT` at the root or when the last separator lies inside the root marker, else `c` cut before
its last separator. A `c` without a separator has the parent `ROOT` (DEDUCED, notes/assumptions/19.md). -/
def parentPath (root sep c : Path) : Path :=
  if c = root then root
  else
    match lastIndex sep c with
    | some j => if j < root.length then root else c.take j
    | none => root

/-- An ASCII letter in lower case, any other byte as it is. -/
def lowerByte (b : Byte) : Byte := if 0x41 ≤ b.toNat ∧ b.toNat ≤ 0x5A then b + 0x20 else b

/-- `EndsExt(s)`: the last four bytes are `.p32`, compared without case (R233). -/
def endsExt (s : Path) : Bool := decide (4 ≤ s.length) && (s.drop (s.length - 4)).map lowerByte == IMG_EXT

/-- `.` as a path (R248). -/
def dotName : Path := [0x2E#8]
/-- `..` as a path (R248). -/
def dotDotName : Path := [0x2E#8, 0x2E#8]

/-- A name in square brackets (R244, R245). -/
def bracketed (n : Path) : Path := 0x5B#8 :: (n ++ [0x5D#8])

end Sys2Proof.Machine
end

