-- ==== Sys2Proof/Machine/Ops.lean ====
section
/-! DEFINITION. The operations every command is written with: the byte transport on its lines (spec/40_byte_transport.md
R120 to R130), the I/O buffer, the collaborator's primitives (spec/20_memory.md R62 to R65, spec/10_state.md R42 to
R45), dispatch, the abort with its return (spec/60_exceptions.md R279 to R281), and the environment between polls (R46). -/

namespace Sys2Proof.Machine

/-! ## Lines (R31 to R36) -/

/-- Set the direction line. -/
def Bus.setDir (level : Bool) (b : Bus) : Bus := { b with sDir := level, lines := .dir level :: b.lines }

/-- Drive the data lines. -/
def Bus.drive (v : Byte) (b : Bus) : Bus := { b with dOut := v, dOe := true, lines := .drive v :: b.lines }

/-- Release the data lines to high impedance. -/
def Bus.release (b : Bus) : Bus := { b with dOe := false, lines := .hiZ :: b.lines }

/-- Set the strobe line. -/
def Bus.setStb (level : Bool) (b : Bus) : Bus := { b with sStb := level, lines := .stb level :: b.lines }

/-- Set the acknowledge line. -/
def Bus.setAck (level : Bool) (b : Bus) : Bus := { b with sAck := level, lines := .ack level :: b.lines }

/-- Wait one pulse width; the millisecond clock does not move (notes/assumptions/4.md). -/
def Bus.pulse (micros : Nat) (b : Bus) : Bus := { b with lines := .pulse micros :: b.lines }

/-- The input lines at a sample. -/
def Bus.see (x : Sample) (b : Bus) : Bus := { b with sIbf := x.ibf, sObf := x.obf, dIn := x.din }

/-- Record a byte-level event. -/
def Bus.note (e : WireEvent) (b : Bus) : Bus := { b with wire := e :: b.wire }

/-- Every output line at its default (R51, R279 step 1). -/
abbrev Bus.AtDefault (c : Config) (b : Bus) : Prop :=
  b.sDir = c.dirIn ∧ b.sStb = true ∧ b.sAck = c.ackOff ∧ b.dOe = false

/-! ## Bounded waits (R120, R121 step 4, R124 step 1) -/

/-- The line a wait polls. -/
inductive Line where
  | ibf
  | obf
  deriving DecidableEq, Repr

/-- The level of a line in a sample. -/
def Sample.at (x : Sample) : Line → Bool
  | .ibf => x.ibf
  | .obf => x.obf

/-- The record of a line's sampled level. -/
def LineEvent.sampled : Line → Bool → LineEvent
  | .ibf, v => .ibf v
  | .obf, v => .obf v

/-- How a wait ends in the host's script: a sample with the line low, the first sample after which the clock has
reached the timeout, or neither before the script is over. Each carries the clock and the samples left. -/
inductive WaitEnd where
  | low (x : Sample) (now : Nat) (rest : List Sample)
  | late (x : Sample) (now : Nat) (rest : List Sample)
  | ended (now : Nat)
  deriving DecidableEq, Repr

/-- The polling loop: the line is sampled before the clock is tested (R121, R124). -/
def waitScript (l : Line) (t0 T : Nat) : Nat → List Sample → WaitEnd
  | now, [] => .ended now
  | now, x :: xs =>
    if Sample.at x l = false then .low x (now + x.dt) xs
    else if T ≤ now + x.dt - t0 then .late x (now + x.dt) xs
    else waitScript l t0 T (now + x.dt) xs

/-- Wait for a line to read low, at most `T` milliseconds. After the script a free sample decides (U4): low, or high
until the timeout has passed. -/
def Bus.wait (l : Line) (T : Nat) (b : Bus) : Bool × Bus :=
  match waitScript l b.clock T b.clock b.host with
  | .low x now rest =>
    (true, { b.see x with clock := now, host := rest, lines := .sampled l false :: b.lines })
  | .late x now rest =>
    (false, { b.see x with clock := now, host := rest, lines := .sampled l true :: b.lines })
  | .ended now =>
    let x := Config.freeSample b.draws
    if Sample.at x l = false then
      (true, { b.see x with
        clock := now + x.dt, host := [], draws := b.draws + 1, lines := .sampled l false :: b.lines })
    else
      (false, { b.see x with
        clock := max now (b.clock + T) + x.dt, host := [], draws := b.draws + 1,
        lines := .sampled l true :: b.lines })

/-! ## Send and Recv (R121, R124) -/

/-- `Send(v, T)` on the lines, step by step; the lines are restored on both outcomes (R121). -/
def Bus.send (c : Config) (v : Byte) (T : Nat) (b : Bus) : Bool × Bus :=
  let b := b.setDir c.dirOut
  let b := b.drive v
  let b := ((b.setStb false).pulse c.tPulse).setStb true
  let r := b.wait .ibf T
  (r.1, ((r.2.release).setDir c.dirIn).note (.tx v r.1))

/-- Steps 1 and 2 of `Recv`: wait for a byte and latch it while the acknowledge line is asserted (R124). -/
def Bus.latch (c : Config) (T : Nat) (b : Bus) : Option Byte × Bus :=
  let r := b.wait .obf T
  if r.1 then
    let b := (r.2.setAck c.ackOn).pulse c.tPulse
    let v := b.dIn
    let b := { b with lines := .data v :: b.lines }
    (some v, (b.setAck c.ackOff).note (.rx v))
  else (none, r.2.note .rxTimeout)

/-- `Send(v, T)`; `crc` is not written (R123). -/
def State.send (s : State) (v : Byte) (T : Nat) : Bool × State :=
  let r := s.bus.send s.cfg v T
  (r.1, { s with bus := r.2 })

/-- What `Recv` returns: `(true, v)`, `(false, v)` after a failed zero test, or `(false, unspecified)` (R124, U5). -/
inductive Rx where
  | ok (v : Byte)
  | bad (v : Byte)
  | timeout
  deriving DecidableEq, Repr

/-- `Recv(T, chk)` (R124 to R127): every latched byte is folded into `crc`; with `chk` the call closes the inbound
transfer and answers `B_ACK` or `B_NAK`, and its own result does not depend on that answer being taken (R126). -/
def State.recv (s : State) (T : Nat) (chk : Bool) : Rx × State :=
  match s.bus.latch s.cfg T with
  | (none, b) =>
    let s := { s with bus := b }
    if chk then (.timeout, (s.send s.cfg.bNak s.cfg.tXfer).2) else (.timeout, s)
  | (some v, b) =>
    let s := { s with bus := b, crc := crcFold s.crc v }
    if chk then
      if crcGood s.crc then (.ok v, (s.send s.cfg.bAck s.cfg.tXfer).2)
      else (.bad v, (s.send s.cfg.bNak s.cfg.tXfer).2)
    else (.ok v, s)

/-! ## Handlers: a run of steps that may abort (R15) -/

/-- How far a handler got: to its end with a result, or to its first `raise Abort(cause)`. -/
inductive Progress (α : Type) where
  | done (a : α) (s : State)
  | abort (c : Cause) (s : State)

/-- `A; B`: `B` runs only if `A` did not abort (R15). -/
def Progress.bind {α β : Type} (p : Progress α) (f : α → State → Progress β) : Progress β :=
  match p with
  | .done a s => f a s
  | .abort c s => .abort c s

/-- `RecvArg()` (R232, R173): a byte, or an abort with nothing sent. -/
def recvArg (s : State) : Progress Byte :=
  match s.recv s.cfg.tXfer false with
  | (.ok v, s) => .done v s
  | (.bad _, s) => .abort .rxTimeout s
  | (.timeout, s) => .abort .rxTimeout s

/-- `buf[i] <- b`. -/
def State.setBuf (s : State) (i : Nat) (b : Byte) : State := { s with buf := s.buf.setIfInBounds i b }

/-- `buf[0..n-1]`. -/
def State.bufTake (s : State) (n : Nat) : List Byte := s.buf.toList.take n

/-- Write a byte string to `buf` from index `i` up, as far as the buffer reaches. -/
def bufWrite (buf : Vector Byte 512) : Nat → List Byte → Vector Byte 512
  | _, [] => buf
  | i, b :: bs => bufWrite (buf.setIfInBounds i b) (i + 1) bs

/-- Receive `n` bytes to `buf` from index `i` up (R175; `RecvStr` of R232 with `i = 0`). -/
def recvBuf : Nat → Nat → State → Progress Unit
  | 0, _, s => .done () s
  | n + 1, i, s => (recvArg s).bind fun b s => recvBuf n (i + 1) (s.setBuf i b)

/-- Receive `n` bytes and discard them (R178, R212). -/
def recvSkip : Nat → State → Progress Unit
  | 0, s => .done () s
  | n + 1, s => (recvArg s).bind fun _ s => recvSkip n s

/-- `RecvStr(L)` (R232): the string is `buf[0..L-1]`. -/
def recvStr (n : Nat) (s : State) : Progress Path :=
  (recvBuf n 0 s).bind fun _ s => .done (s.bufTake n) s

/-- The close-out (R126, R179, `CloseOut()` of R232). -/
def closeOut (s : State) : Progress Unit :=
  match s.recv s.cfg.tXfer true with
  | (.ok _, s) => .done () s
  | (.bad _, s) => .abort .crcMismatch s
  | (.timeout, s) => .abort .rxTimeout s

/-- A `Send` whose result the rule tests (R270 `TX_TIMEOUT`). -/
def sendByte (v : Byte) (s : State) : Progress Unit :=
  match s.send v s.cfg.tXfer with
  | (true, s) => .done () s
  | (false, s) => .abort .txTimeout s

/-- `result <- r`. -/
def State.setResult (s : State) (r : Byte) : State := { s with latch := { s.latch with result := r } }

/-- `SendResult(r)` (R187, R232). -/
def sendResult (r : Byte) (s : State) : Progress Unit := sendByte r (s.setResult r)

/-- Send `n` zero bytes, plainly (R212). -/
def sendZeros : Nat → State → Progress Unit
  | 0, s => .done () s
  | n + 1, s => (sendByte 0 s).bind fun _ s => sendZeros n s

/-- Stream a byte string, each byte folded into `crc` as it is sent (R130). -/
def sendStream : List Byte → State → Progress Unit
  | [], s => .done () s
  | v :: vs, s => (sendByte v s).bind fun _ s => sendStream vs { s with crc := crcFold s.crc v }

/-- `SendPayload(n)` (R130): from a `crc` of zero, `buf[0..n-1]` and then the checksum byte. -/
def sendPayload (n : Nat) (s : State) : Progress Unit :=
  (sendStream (s.bufTake n) { s with crc := 0 }).bind fun _ s => sendByte s.crc s

/-- `SendFramed(s)` (R232): the string goes to `buf` and is streamed from there. -/
def sendFramed (bs : List Byte) (s : State) : Progress Unit :=
  sendPayload bs.length { s with buf := bufWrite s.buf 0 bs }

/-! ## The drive-slot table and the storage primitives (R41, R42, R62 to R65) -/

/-- The record of slot `d`. -/
def Coll.slot (c : Coll) (d : Fin 4) : Slot := c.slots.get d

/-- Replace the record of slot `d`. -/
def Coll.setSlot (c : Coll) (d : Fin 4) (x : Slot) : Coll := { c with slots := c.slots.set d.val x d.isLt }

/-- Record a request. -/
def Coll.ask (c : Coll) (r : Request) : Coll := { c with requests := r :: c.requests }

/-- How many of `n` bytes from `off` the storage layer transfers: its next answer if the state holds one, at most
`n`; else the reference store's (R65): all inside the image, none where the access passes its end. -/
def Coll.storeCount (c : Coll) (off n : Nat) : Nat :=
  match c.stores with
  | k :: _ => min k n
  | [] => if off + n ≤ IMAGE_BYTES then n else 0

/-- The bytes a read delivers: those of the image, free beyond it (R62, U6). -/
def readData (draw : Nat) (m : Memory) (off k : Nat) : List Byte :=
  (List.range k).map fun i =>
    if off + i < IMAGE_BYTES then m.read (off + i) else Config.freeBeyond draw (off + i)

/-- `MemRead(d, off, n) -> (k, data)` (R62); no image changes. -/
def Coll.memRead (c : Coll) (d : Fin 4) (off n : Nat) : List Byte × Coll :=
  (readData c.draws (c.slot d).image off (c.storeCount off n),
   { c.ask (.memRead d off n) with stores := c.stores.tail, draws := c.draws + 1 })

/-- `MemWrite(d, off, n, v) -> k` (R63): the first `k` bytes are stored and the rest of the image is unchanged. -/
def Coll.memWrite (c : Coll) (d : Fin 4) (off : Nat) (v : List Byte) : Nat × Coll :=
  let k := c.storeCount off v.length
  let x := c.slot d
  (k, { (c.ask (.memWrite d off v.length)).setSlot d
          { x with image := x.image.storeBytes off (v.take k), unflushed := x.unflushed || decide (0 < k) } with
        stores := c.stores.tail })

/-! ## Files, mount, create (R42, R45) -/

/-- The bytes of a file the machine knows. Two paths name the same file exactly when they are the same bytes (DESIGN
CHOICE, notes/assumptions/33.md). -/
def fileLookup : List (Path × Memory) → Path → Option Memory
  | [], _ => none
  | f :: fs, p => if f.1 = p then some f.2 else fileLookup fs p

/-- Give a file its bytes. -/
def filePut (fs : List (Path × Memory)) (p : Path) (m : Memory) : List (Path × Memory) :=
  (p, m) :: fs.filter (fun f => f.1 ≠ p)

/-- `MemFlush(d)` (R64): if bytes were written to the slot since its last flush, the image file gets the slot's bytes,
which every later mount of that path reads (notes/assumptions/23.md). -/
def Coll.memFlush (c : Coll) (d : Fin 4) : Coll :=
  let x := c.slot d
  let c' := (c.ask (.memFlush d)).setSlot d { x with unflushed := false }
  if x.unflushed then { c' with files := filePut c.files x.path x.image } else c'

/-- `Coll.Unmount(d)` (R42): an open slot is closed, and its file gets the image's bytes, also where nothing of the slot
is unflushed and another slot with the same path has flushed others (DESIGN CHOICE, notes/assumptions/11.md). -/
def Coll.unmount (c : Coll) (d : Fin 4) : Coll :=
  let x := c.slot d
  let c := c.ask (.unmount d)
  if x.isOpen then
    { c.setSlot d { x with isOpen := false } with files := filePut c.files x.path x.image }
  else c

/-- The next answer of `Coll.Mount`: the state's, or a free one (U11). -/
def Coll.mountAnswer (c : Coll) : MountAnswer :=
  match c.mounts with
  | a :: _ => a
  | [] => Config.freeMount c.draws

/-- The bytes of the file that is mounted: known ones, else those the answer brings (R42, notes/assumptions/12.md). -/
def Coll.mountImage (c : Coll) (path : Path) (contents : List Host.Cell) : Memory :=
  match fileLookup c.files path with
  | some m => m
  | none => Memory.canon contents

/-- `Coll.Mount(d, path, ro) -> r` (R42); the result is the byte the engine forwards (R238, U11). The spec gives the
slot's fields only after `RC_OK`: that a refused mount leaves the slot as the unmount left it, closed with its old path
and flag, is the model's choice (DESIGN CHOICE, notes/assumptions/30.md). -/
def Coll.mount (cfg : Config) (c : Coll) (d : Fin 4) (path : Path) (ro : Bool) : Byte × Coll :=
  let a := c.mountAnswer
  let c' := { c.ask (.mount d path ro) with mounts := c.mounts.tail, draws := c.draws + 1 }
  match a with
  | .ok contents =>
    (RC_OK, c'.setSlot d
      { isOpen := true, writable := !ro, path := path, image := c.mountImage path contents, unflushed := false })
  | .noPath => (RC_NOPATH, c')
  | .imgUnknown => (RC_IMGUNK, c')
  | .nak => (cfg.bNak, c')

/-- The next answer of `Coll.CreateImage`: the state's, or a free one (U11). -/
def Coll.createAnswer (c : Coll) : Bool :=
  match c.creates with
  | a :: _ => a
  | [] => Config.freeCreate c.draws

/-- `Coll.CreateImage(path) -> bool` (R45): on `true` the file exists and holds `FILL` throughout; no slot changes. The
spec says nothing of what `false` leaves at the path: that every known file keeps its bytes is the model's choice (DESIGN
CHOICE, notes/assumptions/31.md). -/
def Coll.createImage (c : Coll) (path : Path) : Bool × Coll :=
  let a := c.createAnswer
  let c' := { c.ask (.createImage path) with creates := c.creates.tail, draws := c.draws + 1 }
  (a, if a then { c' with files := filePut c.files path [] } else c')

/-- The next answer of `Coll.ChdirProbe`: the state's, or a free one (U11). -/
def Coll.probeAnswer (c : Coll) : Bool :=
  match c.probes with
  | a :: _ => a
  | [] => Config.freeProbe c.draws

/-- `Coll.ChdirProbe(path) -> bool` (R44). -/
def Coll.chdirProbe (c : Coll) (path : Path) : Bool × Coll :=
  (c.probeAnswer, { c.ask (.chdirProbe path) with probes := c.probes.tail, draws := c.draws + 1 })

/-! ## Directories (R44) -/

/-- The next answer of `Coll.DirOpen`: the state's, or a free one (U12). -/
def Coll.openAnswer (c : Coll) : Option (List Entry) :=
  match c.opens with
  | a :: _ => a
  | [] => Config.freeOpen c.draws

/-- `Coll.DirOpen(path) -> h or none`: a new handle on the entries the answer lists (notes/assumptions/13.md). -/
def Coll.dirOpen (c : Coll) (path : Path) : Option Nat × Coll :=
  let a := c.openAnswer
  let c' := { c.ask (.dirOpen path) with opens := c.opens.tail, draws := c.draws + 1 }
  match a with
  | some es => (some c.nextHandle,
      { c' with dirs := ⟨c.nextHandle, es⟩ :: c.dirs, nextHandle := c.nextHandle + 1 })
  | none => (none, c')

/-- `Coll.DirClose(h)`. -/
def Coll.dirClose (c : Coll) (h : Nat) : Coll :=
  { c.ask (.dirClose h) with dirs := c.dirs.filter (fun d => d.handle ≠ h) }

/-- The entries handle `h` still has to give. -/
def Coll.dirEntries (c : Coll) (h : Nat) : List Entry :=
  match c.dirs.find? (fun d => d.handle == h) with
  | some d => d.entries
  | none => Config.freeEntries c.draws

/-- The entries handle `h` still has to give become `es`. -/
def Coll.setDirEntries (c : Coll) (h : Nat) (es : List Entry) : Coll :=
  { c with dirs := c.dirs.map fun d => if d.handle = h then { d with entries := es } else d }

/-! ## Dispatch, abort and return (R155, R157, R279 to R281) -/

/-- Dispatch of a recognised opcode: `crc <- op`, whatever it held (R155). -/
def State.dispatch (s : State) (i : Instr) : State :=
  let op := opcodeOf s.cfg i
  { s with crc := op, latch := { s.latch with op := op }, phase := .handler i }

/-- The end of a poll (R332): control goes back to the caller with the result, `phase` is idle, and `crc`, `buf`,
`D_out` and the latches hold free values from here on (U1 to U3, R23, R25, R279 step 5). -/
def State.endPoll (s : State) (result : Bool) (how : Option Cause) : State :=
  { s with
    phase := .idle
    crc := Config.freeCrc s.draws
    buf := Config.freeBuf s.draws
    latch := Config.freeLatches s.draws
    bus := { s.bus with dOut := Config.freeDOut s.draws }
    pollResult := result
    lastEnd := how
    draws := s.draws + 1 }

/-- Taking an abort (R279): the lines are already at their defaults, nothing is saved, `link`, `cwd` and `dircur`
keep their values, and `poll` returns true (R157). -/
def State.takeAbort (s : State) (c : Cause) : State := s.endPoll true (some c)

/-- The return of a handler that ran to its end: `poll` returns true (R155, R157). -/
def State.handlerReturn (s : State) : State := s.endPoll true none

/-- The state a handler leaves, by return or by abort. -/
def Progress.leave (p : Progress Unit) : State :=
  match p with
  | .done _ s => s.handlerReturn
  | .abort c s => s.takeAbort c

/-- Run a handler on the dispatched command (R155): its end and its abort are both next states. -/
def runHandler (i : Instr) (h : State → Progress Unit) (s : State) : Host.Outcome State Fault Refusal :=
  .next (h (s.dispatch i)).leave

/-! ## The environment between two polls (R46) -/

/-- One act of the environment. A path keeps to the on-device capacity (R41), handles are not touched. -/
def State.envAct (s : State) : EnvAction → State
  | .setSlot d o w p m =>
    let x : Slot :=
      { isOpen := o, writable := w, path := p.take DEV_PATH_CAP, image := Memory.canon m, unflushed := false }
    { s with coll := s.coll.setSlot d x }
  | .setFile p m => { s with coll := { s.coll with files := filePut s.coll.files p (Memory.canon m) } }
  | .loseFile p => { s with coll := { s.coll with files := s.coll.files.filter (fun f => f.1 ≠ p) } }
  | .setDir h es => { s with coll := s.coll.setDirEntries h es }
  | .tick ms => { s with bus := { s.bus with clock := s.bus.clock + ms } }
  | .setLines i o d => { s with bus := { s.bus with sIbf := i, sObf := o, dIn := d } }

/-- The environment's batch before this poll. -/
def State.envStep (s : State) : State :=
  match s.between with
  | [] => s
  | acts :: rest => acts.foldl State.envAct { s with between := rest }

end Sys2Proof.Machine
end

