-- ==== Sys2Proof/Machine/BlockIO.lean ====
section
/-! DEFINITION. The Block I/O Engine and its six commands (spec/42_block_io.md). `blockIO` is the shared procedure of
R189, step by step; the commands are its six calls (R190 to R195). -/

namespace Sys2Proof.Machine

/-- The latches an operation is started with (R25, R170). -/
def State.setKind (s : State) (f : KindFlags) (boot : Bool) (count : Nat) : State :=
  { s with latch := { s.latch with kind := f, boot := boot, count := count } }

/-- Step 1 (R173, R174): the selector and track bytes, or drive, sector and track 0 for a boot read. -/
def blockAddress (boot : Bool) (count : Nat) (s : State) : Progress Unit :=
  if boot then
    .done () { s with latch := { s.latch with drive := 0, sector := 0, track := 0 } }
  else
    (recvArg s).bind fun sel s =>
      let s := { s with latch := { s.latch with
        sel := sel, drive := selDrive sel, sector := selSector s.cfg.secw count sel } }
      (recvArg s).bind fun track s => .done () { s with latch := { s.latch with track := track } }

/-- Steps 2 and 2a (R175, R178): the payload of a write, and the 513th byte of a physical write. -/
def blockPayload (f : KindFlags) (count : Nat) (s : State) : Progress Unit :=
  if f.fWrite then
    (recvBuf count 0 s).bind fun _ s => if count = PSEC then recvSkip 1 s else .done () s
  else .done () s

/-- Step 5w (R182, R183). -/
def blockWrite (d : Fin 4) (off count : Nat) (s : State) : State :=
  if (s.coll.slot d).writable = false then s.setResult RC_WRPROT
  else
    let s := s.setResult RC_WRERR
    let r := s.coll.memWrite d off (s.bufTake count)
    let s := { s with coll := r.2 }
    if r.1 = count then s.setResult RC_OK else s

/-- Step 5r (R184, R183); `buf[k..count-1]` is unspecified when the read came up short (R62). -/
def blockRead (d : Fin 4) (off count : Nat) (s : State) : State :=
  let s := s.setResult RC_RDERR
  let draw := s.coll.draws
  let r := s.coll.memRead d off count
  let data := r.1
  let tail := (List.range (count - data.length)).map (Config.freeTail draw)
  let s := { s with coll := r.2, buf := bufWrite s.buf 0 (data ++ tail) }
  if data.length = count then s.setResult RC_OK else s

/-- Step 5f with the flush (R185, R186, R183). -/
def blockFormat (d : Fin 4) (off : Nat) (s : State) : State :=
  if (s.coll.slot d).writable = false then s.setResult RC_WRPROT
  else
    let s := s.setResult RC_FMTERR
    let r := s.coll.memWrite d off (List.replicate TRACK_BYTES FILL)
    let s := { s with coll := r.2.memFlush d }
    if r.1 = TRACK_BYTES then s.setResult RC_OK else s

/-- Steps 4 and 5 (R180, R181): the drive is resolved, the offset computed, the storage operation done. -/
def blockStorage (f : KindFlags) (count : Nat) (s : State) : State :=
  let d := s.latch.drive
  if (s.coll.slot d).isOpen = false then s.setResult RC_INVDRV
  else
    let off := byteOffset f s.latch.track s.latch.sector
    let s := { s with latch := { s.latch with off := off } }
    if f.fWrite then blockWrite d off count s
    else if f.fRead then blockRead d off count s
    else blockFormat d off s

/-- Steps 6 and 7 (R187, R188): the result byte, and the payload of a read that went well. -/
def blockReply (f : KindFlags) (count : Nat) (s : State) : Progress Unit :=
  (sendResult s.latch.result s).bind fun _ s =>
    if s.latch.result = RC_OK ∧ f.fRead then sendPayload count s else .done () s

/-- `BlockIO(kind, boot, count)` (R189), from the argument check (R171) to the reply. -/
def blockIO (f : KindFlags) (boot : Bool) (count : Nat) (s : State) : Progress Unit :=
  if argCheckFails f count then .abort .argCheck s
  else
    (blockAddress boot count (s.setKind f boot count)).bind fun _ s =>
      (blockPayload f count s).bind fun _ s =>
        (closeOut s).bind fun _ s => blockReply f count (blockStorage f count s)

/-- `BOOT` (R190): the first `BOOT_COUNT` bytes of slot A. -/
def execBoot (s : State) : Host.Outcome State Fault Refusal :=
  runHandler .boot (blockIO .read true s.cfg.bootCount) s

/-- `LREAD` (R191). -/
def execLread (s : State) : Host.Outcome State Fault Refusal :=
  runHandler .lread (blockIO .read false LSEC) s

/-- `PREAD` (R192). -/
def execPread (s : State) : Host.Outcome State Fault Refusal :=
  runHandler .pread (blockIO .read false PSEC) s

/-- `LWRITE` (R193). -/
def execLwrite (s : State) : Host.Outcome State Fault Refusal :=
  runHandler .lwrite (blockIO .write false LSEC) s

/-- `PWRITE` (R194). -/
def execPwrite (s : State) : Host.Outcome State Fault Refusal :=
  runHandler .pwrite (blockIO .write false PSEC) s

/-- `FORMAT` (R195). -/
def execFormat (s : State) : Host.Outcome State Fault Refusal :=
  runHandler .format (blockIO .format false 0) s

end Sys2Proof.Machine
end

