-- ==== Sys2Proof/Machine/Extended.lean ====
section
/-! DEFINITION. The seven extended commands (spec/44_extended.md): the wire behaviour and the calls on the
collaborators, whose answers the engine forwards. -/

namespace Sys2Proof.Machine

/-! ## Get image path (R236) -/

/-- The payload of `GETPATH` for a slot: flag, length and path, or flag 0 and the empty path when it is closed. -/
def getpathPayload (root : Path) (x : Slot) : List Byte :=
  if x.isOpen then wpByte x.writable :: lenPrefixed (trunc63 (relPath root x.path)) else 0 :: lenPrefixed []

/-- The handler of `GETPATH` (R236). -/
def getpathHandler (s : State) : Progress Unit :=
  (recvArg s).bind fun drv s =>
    (closeOut s).bind fun _ s =>
      match driveIndex drv with
      | none => sendResult RC_INVDRV s
      | some d => (sendResult RC_OK s).bind fun _ s => sendFramed (getpathPayload s.cfg.root (s.coll.slot d)) s

/-- `GETPATH` (R236). -/
def execGetpath (s : State) : Host.Outcome State Fault Refusal := runHandler .getpath getpathHandler s

/-! ## Mount image (R238) -/

/-- The path bytes of `MOUNT`: none when `L` is 0 or 0xFF, else `L` of them (R97, R238). -/
def mountString (L : Byte) (s : State) : Progress Path :=
  if L = 0 ∨ L = 0xFF then .done [] s else recvStr L.toNat s

/-- What `MOUNT` does after its close-out: the result byte and the collaborators after it (R238). With length 0xFF and a
slot that had no path it asks for the empty one (U11; DESIGN CHOICE, notes/assumptions/32.md). -/
def mountAct (s : State) (drv ro L : Byte) (p : Path) : Byte × Coll :=
  match driveIndex drv with
  | none => (RC_INVDRV, s.coll)
  | some d =>
    let old := (s.coll.slot d).path
    let c := s.coll.unmount d
    if L = 0 then (RC_OK, c)
    else if L = 0xFF then Coll.mount s.cfg c d old (roFlag ro)
    else
      let path := joinPath s.cfg.root s.cfg.sep s.cwd p
      if DEV_PATH_CAP < path.length then (RC_NOPATH, c) else Coll.mount s.cfg c d path (roFlag ro)

/-- The handler of `MOUNT` (R238). -/
def mountHandler (s : State) : Progress Unit :=
  (recvArg s).bind fun drv s =>
    (recvArg s).bind fun ro s =>
      (recvArg s).bind fun L s =>
        (mountString L s).bind fun p s =>
          (closeOut s).bind fun _ s =>
            let r := mountAct s drv ro L p
            sendResult r.1 { s with coll := r.2 }

/-- `MOUNT` (R238). -/
def execMount (s : State) : Host.Outcome State Fault Refusal := runHandler .mount mountHandler s

/-! ## Get cwd (R241) -/

/-- The handler of `GETCWD` (R241). -/
def getcwdHandler (s : State) : Progress Unit :=
  (closeOut s).bind fun _ s => sendFramed (lenPrefixed (relPath s.cfg.root s.cwd)) s

/-- `GETCWD` (R241). -/
def execGetcwd (s : State) : Host.Outcome State Fault Refusal := runHandler .getcwd getcwdHandler s

/-! ## Directory listing (R243 to R245) -/

/-- Close the cursor if there is one (R244, R29). -/
def dirDiscard (s : State) : State :=
  match s.dircur with
  | some h => { s with coll := s.coll.dirClose h, dircur := none }
  | none => s

/-- `DirReset()` (R244): the synthesised first entry is returned whether or not the open succeeded. -/
def dirReset (s : State) : Path × State :=
  let s := dirDiscard s
  let r := s.coll.dirOpen s.cwd
  (if s.cwd = s.cfg.root then bracketed dotName else bracketed dotDotName, { s with coll := r.2, dircur := r.1 })

/-- One run of the loop of R245 over the entries a handle still has: the name found, bracketed for a directory, with
the entries left, or nothing at the end; and how many times `Coll.DirNext` was called. -/
def dirScan : List Entry → Option (Path × List Entry) × Nat
  | [] => (none, 1)
  | e :: es =>
    if e.isDir then (some (bracketed e.name, es), 1)
    else if endsExt e.name then (some (e.name, es), 1)
    else
      let r := dirScan es
      (r.1, r.2 + 1)

/-- Record `n` calls of `Coll.DirNext`. -/
def Coll.askNext (c : Coll) (h n : Nat) : Coll := { c with requests := List.replicate n (.dirNext h) ++ c.requests }

/-- `DirAdvance()` (R245): the next directory or image, or the empty name with the cursor released. -/
def dirAdvance (s : State) : Path × State :=
  match s.dircur with
  | none => ([], s)
  | some h =>
    let r := dirScan (s.coll.dirEntries h)
    let c := { s.coll.askNext h r.2 with draws := s.coll.draws + 1 }
    match r.1 with
    | some (n, es) => (n, { s with coll := c.setDirEntries h es })
    | none => ([], { s with coll := c.dirClose h, dircur := none })

/-- The handler of `DIR` (R243). -/
def dirHandler (s : State) : Progress Unit :=
  (recvArg s).bind fun flag s =>
    (closeOut s).bind fun _ s =>
      let r := if flag = 0 then dirReset s else dirAdvance s
      sendFramed (lenPrefixed (trunc63 r.1)) r.2

/-- `DIR` (R243). -/
def execDir (s : State) : Host.Outcome State Fault Refusal := runHandler .dir dirHandler s

/-! ## Change cwd (R248, R249) -/

/-- What `CHDIR` does after its close-out: the result byte and the state after it. `cwd` changes only on `RC_OK`. -/
def chdirAct (L : Byte) (p : Path) (s : State) : Byte × State :=
  if WIRE_STR_MAX < L.toNat then (RC_LONGPATH, s)
  else if L = 0 ∨ p = dotName then (RC_OK, s)
  else if p = dotDotName then (RC_OK, { s with cwd := parentPath s.cfg.root s.cfg.sep s.cwd })
  else
    let new := joinPath s.cfg.root s.cfg.sep s.cwd p
    if CWD_CAP < new.length then (RC_LONGPATH, s)
    else
      let r := s.coll.chdirProbe new
      if r.1 then (RC_OK, { s with coll := r.2, cwd := new }) else (RC_NOPATH, { s with coll := r.2 })

/-- The handler of `CHDIR` (R248). -/
def chdirHandler (s : State) : Progress Unit :=
  (recvArg s).bind fun L s =>
    (recvStr L.toNat s).bind fun p s =>
      (closeOut s).bind fun _ s =>
        let r := chdirAct L p s
        sendResult r.1 r.2

/-- `CHDIR` (R248). -/
def execChdir (s : State) : Host.Outcome State Fault Refusal := runHandler .chdir chdirHandler s

/-! ## Create image (R251) -/

/-- The file name `CREATE` makes of a string: the extension is appended where it is missing (R251). -/
def createName (p : Path) : Path := if endsExt p then p else p ++ IMG_EXT

/-- What `CREATE` does after its close-out (R251). -/
def createAct (L : Byte) (p : Path) (s : State) : Byte × Coll :=
  if WIRE_STR_MAX < L.toNat then (RC_LONGPATH, s.coll)
  else
    let full := joinPath s.cfg.root s.cfg.sep s.cwd (createName p)
    if DEV_PATH_CAP < full.length then (RC_LONGPATH, s.coll)
    else
      let r := s.coll.createImage full
      (if r.1 then RC_OK else RC_CREATERR, r.2)

/-- The handler of `CREATE` (R251). -/
def createHandler (s : State) : Progress Unit :=
  (recvArg s).bind fun L s =>
    (recvStr L.toNat s).bind fun p s =>
      (closeOut s).bind fun _ s =>
        let r := createAct L p s
        sendResult r.1 { s with coll := r.2 }

/-- `CREATE` (R251). -/
def execCreate (s : State) : Host.Outcome State Fault Refusal := runHandler .create createHandler s

/-! ## Image info (R253) -/

/-- The geometry record: the constants for an open slot, else zeros (R253). -/
def infoRecord (cfg : Config) (c : Coll) (drv : Byte) : List Byte :=
  match driveIndex drv with
  | some d => if (c.slot d).isOpen then [GEOM_TRACKS, GEOM_SPT, cfg.geomPsize] else [0, 0, 0]
  | none => [0, 0, 0]

/-- The handler of `INFO` (R253). -/
def infoHandler (s : State) : Progress Unit :=
  (recvArg s).bind fun drv s =>
    (closeOut s).bind fun _ s => sendFramed (infoRecord s.cfg s.coll drv) s

/-- `INFO` (R253). -/
def execInfo (s : State) : Host.Outcome State Fault Refusal := runHandler .info infoHandler s

end Sys2Proof.Machine
end

