-- ==== Sys2Proof/Machine/Legacy.lean ====
section
/-! DEFINITION. Change drive and the inert legacy commands (spec/43_drive_change_legacy.md). -/

namespace Sys2Proof.Machine

/-- The result of a change-drive query: whether the slot the byte names is open (R210, R211). -/
def chdrvResult (c : Coll) (drv : Byte) : Byte :=
  match driveIndex drv with
  | some d => if (c.slot d).isOpen then RC_OK else RC_INVDRV
  | none => RC_INVDRV

/-- The handler of `CHDRV` (R211); the outcome of its last `Send` ends the transaction either way. -/
def chdrvHandler (s : State) : Progress Unit :=
  (recvArg s).bind fun drv s =>
    (closeOut s).bind fun _ s =>
      let r := chdrvResult s.coll drv
      .done () ((s.setResult r).send r s.cfg.tXfer).2

/-- `CHDRV` (R211). -/
def execChdrv (s : State) : Host.Outcome State Fault Refusal := runHandler .chdrv chdrvHandler s

/-- `Legacy(op)` (R212): the argument bytes are discarded, the checksum handshake is made, zero bytes are sent. -/
def legacyHandler (row : LegRow) (s : State) : Progress Unit :=
  (recvSkip row.args s).bind fun _ s => (closeOut s).bind fun _ s => sendZeros row.zeros s

/-- The row of the `k`-th speed toggle after the first (R218). -/
def spdRow (c : Config) : Nat → LegRow
  | 0 => c.spd1
  | k + 1 => c.moreSpd.getD k c.spd1

/-- `RAMRD` (R214). -/
def execRamrd (s : State) : Host.Outcome State Fault Refusal := runHandler .ramrd (legacyHandler s.cfg.ramrd) s

/-- `RAMWR` (R215). -/
def execRamwr (s : State) : Host.Outcome State Fault Refusal := runHandler .ramwr (legacyHandler s.cfg.ramwr) s

/-- `RAMEX` (R216). -/
def execRamex (s : State) : Host.Outcome State Fault Refusal := runHandler .ramex (legacyHandler s.cfg.ramex) s

/-- `SPD0` (R217). -/
def execSpd0 (s : State) : Host.Outcome State Fault Refusal := runHandler .spd0 (legacyHandler s.cfg.spd0) s

/-- `SPD1` and the further toggles (R218). -/
def execSpd1 (k : Nat) (s : State) : Host.Outcome State Fault Refusal :=
  runHandler (.spd1 k) (legacyHandler (spdRow s.cfg k)) s

end Sys2Proof.Machine
end

