-- ==== Sys2Proof/Machine/Link.lean ====
section
/-! DEFINITION. The link state machine of spec/41_dispatcher.md: the presence exchange (R152), the opcode read (R153),
the idle no-op (R154) and the answer to an unrecognised byte (R156). -/

namespace Sys2Proof.Machine

/-- The presence exchange of a poll that finds `link = 0` (R152). -/
def presenceExchange (s : State) : State :=
  match ({ s with phase := .presence }).send s.cfg.bIdle s.cfg.tIdleTx with
  | (false, s) => s.endPoll false (some .presenceFail)
  | (true, s) =>
    match s.recv s.cfg.tIdleRx false with
    | (.ok b, s) =>
      if b = s.cfg.bIdle then ({ s with link := true }).endPoll false none
      else s.endPoll false (some .presenceFail)
    | (.bad _, s) => s.endPoll false (some .presenceFail)
    | (.timeout, s) => s.endPoll false (some .presenceFail)

/-- The opcode read of a poll that finds `link = 1` (R153): the byte read, or none when the host was silent. -/
def opcodeRead (s : State) : Option Byte × State :=
  match ({ s with phase := .opcodeRead }).recv s.cfg.tCmd false with
  | (.ok op, s) => (some op, s)
  | (.bad _, s) => (none, s)
  | (.timeout, s) => (none, s)

/-- Link loss (R153, R275): `link <- 0`, nothing is sent, `poll` returns false. -/
def linkLoss (s : State) : State := ({ s with link := false }).endPoll false (some .linkLoss)

/-- `IDLE` (R154): a silent no-op, `poll` returns false. -/
def execIdle (s : State) : Host.Outcome State Fault Refusal := .next (s.endPoll false none)

/-- An unrecognised byte (R156): exactly one `B_NAK`, whatever becomes of it, and `poll` returns false. The byte
itself has no further effect. -/
def execUnrecognised (_b : Byte) (s : State) : Host.Outcome State Fault Refusal :=
  .next ((s.send s.cfg.bNak s.cfg.tXfer).2.endPoll false (some .unknownOpcode))

end Sys2Proof.Machine
end

