-- ==== Sys2Proof/Machine/Dispatch.lean ====
section
/-! DEFINITION. The dispatcher's table from command to handler (spec/30_encoding.md R101): one arm per command. -/

namespace Sys2Proof.Machine

def exec (i : Instr) (s : State) : Host.Outcome State Fault Refusal :=
  match i with
  | .idle => Sys2Proof.Machine.execIdle s
  | .boot => Sys2Proof.Machine.execBoot s
  | .lread => Sys2Proof.Machine.execLread s
  | .pread => Sys2Proof.Machine.execPread s
  | .lwrite => Sys2Proof.Machine.execLwrite s
  | .pwrite => Sys2Proof.Machine.execPwrite s
  | .format => Sys2Proof.Machine.execFormat s
  | .chdrv => Sys2Proof.Machine.execChdrv s
  | .ramrd => Sys2Proof.Machine.execRamrd s
  | .ramwr => Sys2Proof.Machine.execRamwr s
  | .ramex => Sys2Proof.Machine.execRamex s
  | .spd0 => Sys2Proof.Machine.execSpd0 s
  | .spd1 k => Sys2Proof.Machine.execSpd1 k s
  | .getpath => Sys2Proof.Machine.execGetpath s
  | .mount => Sys2Proof.Machine.execMount s
  | .getcwd => Sys2Proof.Machine.execGetcwd s
  | .dir => Sys2Proof.Machine.execDir s
  | .chdir => Sys2Proof.Machine.execChdir s
  | .create => Sys2Proof.Machine.execCreate s
  | .info => Sys2Proof.Machine.execInfo s
  | .unrecognised b => Sys2Proof.Machine.execUnrecognised b s

end Sys2Proof.Machine
end

