-- ==== Sys2Proof/Machine/Fetch.lean ====
section
/-! DEFINITION. How a word of spec/opcode_table.json is placed where the next poll reads its opcode: the host offers
its bytes. A program is a host session, loaded from outside the machine (notes/assumptions/21.md). -/

namespace Sys2Proof.Machine

/-- A sample in which the host offers a byte and takes one: both handshake lines low, no time passing. -/
def readySample (v : Byte) : Sample := { ibf := false, obf := false, din := v, dt := 0 }

/-- How many bytes a poll can send at most, the close-out's answer included (R330): `1 + 1 + 513`. -/
abbrev MOST_SENDS : Nat := 515

/-- The host's samples that offer a table word: its bytes, then zero bytes up to the longest frame, and then as many
samples again as the longest reply takes. -/
def fetchScript (nbits w : Nat) : List Sample :=
  (tableBytes nbits w ++ List.replicate MOST_SENDS 0).map readySample

end Sys2Proof.Machine
end

