-- ==== Sys2Proof/Machine/Step.lean ====
section
/-! DEFINITION. One step is one `poll` (spec/41_dispatcher.md R150, R151), with what the environment does before it
(spec/10_state.md R46). -/

namespace Sys2Proof.Machine

/-- The body of `poll` (R151): the presence exchange while Disconnected; while Linked the opcode read, and then link
loss or the command the byte selects (R153). -/
def poll (s : State) : Host.Outcome State Fault Refusal :=
  if s.link then
    match opcodeRead s with
    | (none, s) => .next (linkLoss s)
    | (some op, s) => exec (decodeByte s.cfg op) s
  else .next (presenceExchange s)

/-- One step: the environment's batch, then one poll. A poll started while one is running is refused (U14). -/
def step (s : State) : Host.Outcome State Fault Refusal :=
  if s.phase = .idle then poll s.envStep else .refused .pollReentered

/-- `s` with a table word where the next step reads its opcode: the link is up, no poll is running, the environment
is quiet, and the host offers the word's bytes. -/
def State.withFetchWord (s : State) (nbits w : Nat) : State :=
  { s with
    link := true
    phase := .idle
    between := []
    bus := { s.bus with host := fetchScript nbits w } }

end Sys2Proof.Machine
end

