-- ==== Sys2Proof/Machine/Frame.lean ====
section
/-! DEFINITION. Whole commands with their operands, as the host writes them on the wire: the formats of
spec/30_encoding.md R91 with the field order of each command rule, the checksum byte of R95, and the reading of a frame
back from its bytes (R103: the length follows from the opcode, or from a length byte among the arguments). -/

namespace Sys2Proof.Machine

/-- A command with the operand bytes of its frame (R91). `chdir` and `create` carry the string; its length byte is
made from it. `mount` carries its length byte, because 0 and 0xFF stand for no path bytes (R97). -/
inductive Command where
  | idle
  | boot
  | lread (sel trk : Byte)
  | pread (sel trk : Byte)
  | lwrite (sel trk : Byte) (data : List Byte)
  | pwrite (sel trk : Byte) (data : List Byte) (extra : Byte)
  | format (sel trk : Byte)
  | chdrv (drv : Byte)
  | ramrd (args : List Byte)
  | ramwr (args : List Byte)
  | ramex (args : List Byte)
  | spd0 (args : List Byte)
  | spd1 (k : Nat) (args : List Byte)
  | getpath (drv : Byte)
  | mount (drv ro len : Byte) (path : Path)
  | getcwd
  | dir (flag : Byte)
  | chdir (str : Path)
  | create (str : Path)
  | info (drv : Byte)
  | unrecognised (b : Byte)
  deriving DecidableEq, Repr

/-- The command's row of the opcode map. -/
def Command.instr : Command → Instr
  | .idle => .idle
  | .boot => .boot
  | .lread _ _ => .lread
  | .pread _ _ => .pread
  | .lwrite _ _ _ => .lwrite
  | .pwrite _ _ _ _ => .pwrite
  | .format _ _ => .format
  | .chdrv _ => .chdrv
  | .ramrd _ => .ramrd
  | .ramwr _ => .ramwr
  | .ramex _ => .ramex
  | .spd0 _ => .spd0
  | .spd1 k _ => .spd1 k
  | .getpath _ => .getpath
  | .mount _ _ _ _ => .mount
  | .getcwd => .getcwd
  | .dir _ => .dir
  | .chdir _ => .chdir
  | .create _ => .create
  | .info _ => .info
  | .unrecognised b => .unrecognised b

/-- The bytes between the opcode and the checksum byte, in wire order (R91). -/
def Command.body : Command → List Byte
  | .idle | .boot | .getcwd | .unrecognised _ => []
  | .lread sel trk | .pread sel trk | .format sel trk => [sel, trk]
  | .lwrite sel trk data => sel :: trk :: data
  | .pwrite sel trk data extra => sel :: trk :: (data ++ [extra])
  | .chdrv drv | .getpath drv | .info drv => [drv]
  | .ramrd args | .ramwr args | .ramex args | .spd0 args | .spd1 _ args => args
  | .mount drv ro len path => drv :: ro :: len :: path
  | .dir flag => [flag]
  | .chdir str | .create str => BitVec.ofNat 8 str.length :: str

/-- Bytes of the path of a mount command: none for the two escapes (R97, R238). -/
def mountPathLen (len : Byte) : Nat := if len = 0 ∨ len = 0xFF then 0 else len.toNat

/-- The legacy row of the `k`-th toggle's arguments (R218). -/
def spdArgs (c : Config) : Nat → Nat
  | 0 => c.spd1.args
  | k + 1 => (c.moreSpd.getD k c.spd1).args

/-- The operands have the sizes their format gives them. -/
def Command.wellFormed (c : Config) (m : Command) : Bool :=
  m.instr.wellFormed c &&
  match m with
  | .lwrite _ _ data => data.length == LSEC
  | .pwrite _ _ data _ => data.length == PSEC
  | .ramrd args => args.length == c.ramrd.args
  | .ramwr args => args.length == c.ramwr.args
  | .ramex args => args.length == c.ramex.args
  | .spd0 args => args.length == c.spd0.args
  | .spd1 k args => args.length == spdArgs c k
  | .mount _ _ len path => path.length == mountPathLen len
  | .chdir str | .create str => decide (str.length < 256)
  | .idle | .boot | .lread _ _ | .pread _ _ | .format _ _ | .chdrv _ | .getpath _ | .getcwd | .dir _ | .info _
  | .unrecognised _ => true

/-- Whether a byte in opcode position opens a frame with a checksum byte: not the idle byte, not an unrecognised one
(R102). -/
def Instr.isCommand : Instr → Bool
  | .idle | .unrecognised _ => false
  | .boot | .lread | .pread | .lwrite | .pwrite | .format | .chdrv | .ramrd | .ramwr | .ramex | .spd0 | .spd1 _
  | .getpath | .mount | .getcwd | .dir | .chdir | .create | .info => true

/-- The frame the host sends (R91, R95): opcode, body and the checksum byte that makes the exclusive-or zero. -/
def Command.frame (c : Config) (m : Command) : List Byte :=
  let head := opcodeOf c m.instr :: m.body
  if Instr.isCommand m.instr then head ++ [checksum head] else head

/-- Why no frame could be read from a list of bytes. -/
inductive FrameError where
  /-- No byte is there. -/
  | noByte
  /-- The list ends inside the frame; the engine's `Recv` would time out (R270). -/
  | truncated
  /-- The exclusive-or is not zero; the engine answers `B_NAK` (R126). -/
  | badChecksum
  deriving DecidableEq, Repr

/-- The first `n` bytes and the rest, if there are that many. -/
def splitBytes (n : Nat) (bs : List Byte) : Option (List Byte × List Byte) :=
  if n ≤ bs.length then some (bs.take n, bs.drop n) else none

/-- A body of `n` bytes made into a command. -/
def takeBody (n : Nat) (f : List Byte → Command) (bs : List Byte) : Option (Command × List Byte) :=
  match splitBytes n bs with
  | some (x, rest) => some (f x, rest)
  | none => none

/-- Read the body of a command from its bytes (R103). -/
def readBody (c : Config) : Instr → List Byte → Option (Command × List Byte)
  | .idle, bs => some (.idle, bs)
  | .boot, bs => some (.boot, bs)
  | .lread, sel :: trk :: bs => some (.lread sel trk, bs)
  | .pread, sel :: trk :: bs => some (.pread sel trk, bs)
  | .lwrite, sel :: trk :: bs => takeBody LSEC (.lwrite sel trk) bs
  | .pwrite, sel :: trk :: bs =>
    match splitBytes PSEC bs with
    | some (data, extra :: rest) => some (.pwrite sel trk data extra, rest)
    | _ => none
  | .format, sel :: trk :: bs => some (.format sel trk, bs)
  | .chdrv, drv :: bs => some (.chdrv drv, bs)
  | .ramrd, bs => takeBody c.ramrd.args .ramrd bs
  | .ramwr, bs => takeBody c.ramwr.args .ramwr bs
  | .ramex, bs => takeBody c.ramex.args .ramex bs
  | .spd0, bs => takeBody c.spd0.args .spd0 bs
  | .spd1 k, bs => takeBody (spdArgs c k) (.spd1 k) bs
  | .getpath, drv :: bs => some (.getpath drv, bs)
  | .mount, drv :: ro :: len :: bs => takeBody (mountPathLen len) (.mount drv ro len) bs
  | .getcwd, bs => some (.getcwd, bs)
  | .dir, flag :: bs => some (.dir flag, bs)
  | .chdir, len :: bs => takeBody len.toNat .chdir bs
  | .create, len :: bs => takeBody len.toNat .create bs
  | .info, drv :: bs => some (.info drv, bs)
  | .unrecognised b, bs => some (.unrecognised b, bs)
  | .lread, _ | .pread, _ | .lwrite, _ | .pwrite, _ | .format, _ | .chdrv, _ | .getpath, _ | .mount, _ | .dir, _
  | .chdir, _ | .create, _ | .info, _ => none

/-- Read one frame from the head of a byte stream, checksum byte included. -/
def parseFrame (c : Config) : List Byte → Except FrameError (Command × List Byte)
  | [] => .error .noByte
  | op :: bs =>
    match readBody c (decodeByte c op) bs with
    | none => .error .truncated
    | some (m, rest) =>
      if Instr.isCommand m.instr then
        match rest with
        | [] => .error .truncated
        | ck :: rest => if checksum (op :: m.body) = ck then .ok (m, rest) else .error .badChecksum
      else .ok (m, rest)

end Sys2Proof.Machine
end

