-- ==== Sys2Proof/Safety.lean ====
section
/-! DEFINITION. The terms claims are made in: what a well-formed state is (the invariant of spec/10_state.md R21 to R29,
R36, R41, R47 and spec/70_reset_and_hazards.md R332), what a host that keeps up with the engine does
(spec/40_byte_transport.md R122, R128), and how a transaction reads on the wire. -/

namespace Sys2Proof.Machine

/-! ## The invariant -/

/-- `cwd` is 1 to 64 bytes long and opens with the root marker (R27). -/
abbrev State.CwdOk (s : State) : Prop := s.cfg.root <+: s.cwd ∧ s.cwd.length ≤ CWD_CAP

/-- The open directory handles are exactly the one `dircur` names, if any, and a new handle differs from it (R28,
R29). -/
abbrev State.CursorOk (s : State) : Prop :=
  s.coll.dirs.map (·.handle) = s.dircur.toList ∧ ∀ h, s.dircur = some h → h < s.coll.nextHandle

/-- Every image, of a slot or of a known file, is in canonical form, and slot paths keep to their capacity (R41,
R60). -/
abbrev Coll.Ok (c : Coll) : Prop :=
  (∀ d : Fin 4, (c.slot d).image.wf ∧ (c.slot d).path.length ≤ DEV_PATH_CAP) ∧ ∀ f ∈ c.files, Memory.wf f.2

/-- What holds of the machine between two polls. -/
structure State.Inv (s : State) : Prop where
  cfgValid : s.cfg.Valid
  idle : s.phase = .idle
  busDefault : s.bus.AtDefault s.cfg
  cwdOk : s.CwdOk
  cursorOk : s.CursorOk
  collOk : s.coll.Ok

/-! ## A host that keeps up -/

/-- The sample that ends a wait of `T` milliseconds on a line with the line low, and the samples after it; none if the
script has no such sample in time. -/
def answered (l : Line) (T : Nat) (h : List Sample) : Option (Sample × List Sample) :=
  match waitScript l 0 T 0 h with
  | .low x _ rest => some (x, rest)
  | .late _ _ _ => none
  | .ended _ => none

/-- The host offers exactly the bytes `bs`, each within `T`; the samples after them. -/
def offers (T : Nat) : List Byte → List Sample → Option (List Sample)
  | [], h => some h
  | b :: bs, h =>
    match answered .obf T h with
    | some (x, rest) => if x.din = b then offers T bs rest else none
    | none => none

/-- The host takes `n` bytes, each within `T`; the samples after them. -/
def takes (T : Nat) : Nat → List Sample → Option (List Sample)
  | 0, h => some h
  | n + 1, h =>
    match answered .ibf T h with
    | some (_, rest) => takes T n rest
    | none => none

/-- The host offers `bs` and then takes `n` bytes, each within `T`; `h'` is what its script holds after them. -/
def serves (T : Nat) (bs : List Byte) (n : Nat) (h h' : List Sample) : Prop :=
  ∃ m, offers T bs h = some m ∧ takes T n m = some h'

/-- The host leaves the line high until `T` milliseconds have passed: it offers no byte, or does not take the one sent. -/
def misses (l : Line) (T : Nat) (h : List Sample) : Prop := ∃ x now rest, waitScript l 0 T 0 h = .late x now rest

/-- The host offers `bs`, takes `n` bytes, and does not take the one after them. -/
def servesOnly (T : Nat) (bs : List Byte) (n : Nat) (h : List Sample) : Prop :=
  ∃ h', serves T bs n h h' ∧ misses .ibf T h'

/-- The bytes received and then the bytes sent and accepted, as the record shows them, newest first. -/
def transcript (ins outs : List Byte) : List WireEvent :=
  (ins.map WireEvent.rx ++ outs.map (WireEvent.tx · true)).reverse

/-- A payload with its own checksum byte (R96, R130). -/
def framed (q : List Byte) : List Byte := q ++ [checksum q]

/-- The opcode byte the next poll will read and the state after reading it: the state `exec` runs in. -/
def State.fetched (s : State) : Option Byte × State := opcodeRead s.envStep

/-! ## What a command keeps -/

/-- Everything but the bus, `crc`, `buf`, the latches, `phase`, the collaborators and the record of the poll: the
lasting state no transfer touches. -/
abbrev State.sameContext (s t : State) : Prop :=
  t.cfg = s.cfg ∧ t.link = s.link ∧ t.cwd = s.cwd ∧ t.dircur = s.dircur ∧ t.between = s.between

/-! ## Words of the statements about commands -/

/-- `exec i` from `s` answers a next state `t` in which the command ran to its end: the bytes `ins` were received and
then `outs` sent, `poll` returns true, no abort was taken, the host's script is used up to `h'`, the link, the
configuration and the environment's plans are as before, and `P t` holds. -/
def Completes (i : Instr) (s : State) (ins outs : List Byte) (h' : List Sample) (P : State → Prop) : Prop :=
  ∃ t, exec i s = .next t ∧ t.bus.wire = transcript ins outs ++ s.bus.wire ∧ t.bus.host = h' ∧
    t.pollResult = true ∧ t.lastEnd = none ∧ t.link = s.link ∧ t.cfg = s.cfg ∧ t.between = s.between ∧ P t

/-- `exec i` from `s` answers a next state `t` in which the command got as far as the byte `v`, which the host did not
take: the bytes `ins` were received, `outs` sent and taken, then `v` sent, and nothing after it; `poll` returns true, the
abort is `TX_TIMEOUT`, the link, the configuration and the environment's plans are as before, and `P t` holds. -/
def StopsAt (i : Instr) (s : State) (ins outs : List Byte) (v : Byte) (P : State → Prop) : Prop :=
  ∃ t, exec i s = .next t ∧ t.bus.wire = .tx v false :: (transcript ins outs ++ s.bus.wire) ∧
    t.pollResult = true ∧ t.lastEnd = some .txTimeout ∧ t.link = s.link ∧ t.cfg = s.cfg ∧ t.between = s.between ∧ P t

/-- The working directory and the directory cursor are as before. -/
def keepsPlace (s t : State) : Prop := t.cwd = s.cwd ∧ t.dircur = s.dircur

/-- Directories and the coming answers of the path calls are as before. -/
def keepsCalls (c c' : Coll) : Prop :=
  c'.dirs = c.dirs ∧ c'.nextHandle = c.nextHandle ∧ c'.mounts = c.mounts ∧ c'.opens = c.opens ∧
    c'.probes = c.probes ∧ c'.creates = c.creates

/-- Files, directories and the coming answers of the path calls are as before. -/
def keepsFiles (c c' : Coll) : Prop := c'.files = c.files ∧ keepsCalls c c'

/-- Nothing of the collaborators changed but the record of requests, the storage answers used and the count of free
answers. -/
def keepsDisks (c c' : Coll) : Prop := keepsFiles c c' ∧ c'.slots = c.slots

/-- Every slot but for the bytes of one image and its flush mark is as before, and so is every byte of that image
outside `off .. off + n - 1`. -/
def keepsSlots (c c' : Coll) (d : Fin 4) (off n : Nat) : Prop :=
  (∀ e, e ≠ d → c'.slot e = c.slot e) ∧
    (c'.slot d).isOpen = (c.slot d).isOpen ∧ (c'.slot d).writable = (c.slot d).writable ∧
    (c'.slot d).path = (c.slot d).path ∧
    ∀ a, a < off ∨ off + n ≤ a → (c'.slot d).image.read a = (c.slot d).image.read a

/-- A storage write changes nothing outside `off .. off + n - 1` of one image: the file behind it gets the bytes with
the next flush only (R73). -/
def keepsOutside (c c' : Coll) (d : Fin 4) (off n : Nat) : Prop := keepsFiles c c' ∧ keepsSlots c c' d off n

/-- A write with its flush changes nothing outside `off .. off + n - 1` of one image and the file behind that slot,
which is as before or holds the image's bytes (R64). -/
def keepsOutsideFlushed (c c' : Coll) (d : Fin 4) (off n : Nat) : Prop :=
  keepsCalls c c' ∧ keepsSlots c c' d off n ∧
    (∀ p, p ≠ (c.slot d).path → fileLookup c'.files p = fileLookup c.files p) ∧
    (c'.files = c.files ∨ fileLookup c'.files (c.slot d).path = some (c'.slot d).image)

/-- The offset of track `trk` and sector field value `sector` (R68). -/
def sectorOffset (trk : Byte) (sector : Nat) : Nat := trk.toNat * 4608 + sector * 128

/-- What a read command of `n` bytes at `off` of slot `d` replies after `B_ACK` (R180, R184, R187, R188). -/
def readReply (c : Coll) (d : Fin 4) (off n : Nat) : List Byte :=
  if (c.slot d).isOpen = false then [RC_INVDRV]
  else if (c.memRead d off n).1.length = n then RC_OK :: framed (c.memRead d off n).1
  else [RC_RDERR]

/-- The storage requests of a read command, newest first. -/
def readRequests (c : Coll) (d : Fin 4) (off n : Nat) : List Request :=
  if (c.slot d).isOpen = false then [] else [.memRead d off n]

/-- What a write command of the bytes `v` at `off` of slot `d` replies after `B_ACK` (R180, R182, R196). -/
def writeReply (c : Coll) (d : Fin 4) (off : Nat) (v : List Byte) : Byte :=
  if (c.slot d).isOpen = false then RC_INVDRV
  else if (c.slot d).writable = false then RC_WRPROT
  else if (c.memWrite d off v).1 = v.length then RC_OK
  else RC_WRERR

/-- The storage requests of a write command. -/
def writeRequests (c : Coll) (d : Fin 4) (off n : Nat) : List Request :=
  if (c.slot d).isOpen = false ∨ (c.slot d).writable = false then [] else [.memWrite d off n]

/-- The collaborators after a write command. -/
def writeColl (c : Coll) (d : Fin 4) (off : Nat) (v : List Byte) : Coll :=
  if (c.slot d).isOpen = false ∨ (c.slot d).writable = false then c else (c.memWrite d off v).2

/-- A track of fill bytes (R185). -/
def fillTrack : List Byte := List.replicate 4608 FILL

/-- What a format replies after `B_ACK` (R180, R185). -/
def formatReply (c : Coll) (d : Fin 4) (off : Nat) : Byte :=
  if (c.slot d).isOpen = false then RC_INVDRV
  else if (c.slot d).writable = false then RC_WRPROT
  else if (c.memWrite d off fillTrack).1 = 4608 then RC_OK
  else RC_FMTERR

/-- The collaborators after a format: the fill, then the flush (R186). -/
def formatColl (c : Coll) (d : Fin 4) (off : Nat) : Coll :=
  if (c.slot d).isOpen = false ∨ (c.slot d).writable = false then c else ((c.memWrite d off fillTrack).2).memFlush d

/-- The legacy row of a command (R212). -/
def legacyRow (c : Config) : Instr → Option LegRow
  | .ramrd => some c.ramrd
  | .ramwr => some c.ramwr
  | .ramex => some c.ramex
  | .spd0 => some c.spd0
  | .spd1 0 => some c.spd1
  | .spd1 (k + 1) => c.moreSpd[k]?
  | _ => none

/-- The lines of one byte-level event, newest first: a whole `Send`, a latched byte, or a wait for one that timed out
(R121, R124). -/
def eventLines (c : Config) : WireEvent → List LineEvent
  | .tx v ok => [.dir c.dirIn, .hiZ, .ibf (!ok), .stb true, .pulse c.tPulse, .stb false, .drive v, .dir c.dirOut]
  | .rx v => [.ack c.ackOff, .data v, .pulse c.tPulse, .ack c.ackOn, .obf false]
  | .rxTimeout => [.obf true]

/-- An entry that a listing shows (R245). -/
def listed (e : Entry) : Bool := e.isDir || endsExt e.name

/-- The name a listing shows an entry under (R245). -/
def shownName (e : Entry) : Path := if e.isDir then bracketed e.name else e.name

end Sys2Proof.Machine
end

