-- ==== Sys2Proof/Certificates/Slice0/Obligations.lean ====
section
/-! DEFINITION. The statements about the PMD32 protocol engine, from the numbered rules of spec/, family by family; the
words they are made in are those of Sys2Proof/Safety.lean. A statement that runs a command in full takes a host that
keeps up (`serves`): it offers the command's bytes after the opcode and takes the bytes of the reply, each within
`T_XFER`, in any number of polling passes. -/

open Sys2Proof Sys2Proof.Machine

/-! ## Encoding -/

/-- R100 with the values of spec/opcode_table.json: what some of its words decode to, the default row included.
All values but 0x51 are the spec's own choice (D3). -/
def Obligations.TableWordsDecode : Prop :=
  decodeTableWord 8 0xAA = some .idle ∧ decodeTableWord 8 0x42 = some .boot ∧ decodeTableWord 8 0x51 = some .lread ∧
  decodeTableWord 8 0x57 = some .pwrite ∧ decodeTableWord 8 0x49 = some .chdrv ∧ decodeTableWord 8 0x4A = some .ramex ∧
  decodeTableWord 8 0x53 = some (.spd1 0) ∧ decodeTableWord 8 0x4D = some .mount ∧
  decodeTableWord 8 0x59 = some .info ∧ decodeTableWord 8 0x00 = some (.unrecognised 0)

/-- R100, R101: under every valid configuration the encoding of a well-formed command, followed by anything, decodes to
that command and leaves the rest.
Validity holds R10 and three clauses of the model's own (notes/assumptions/19.md). -/
def Obligations.DecodeOfEncode : Prop :=
  ∀ (c : Config) (i : Instr) (rest : List Byte), c.Valid → i.wellFormed c = true →
    decode c (encode c i ++ rest) = .ok (i, rest)

/-- R102: every byte decodes to a well-formed command whose encoding is that byte, under every configuration; so no
byte is left out and none falls to another's row. -/
def Obligations.EncodeOfDecode : Prop :=
  ∀ (c : Config) (b : Byte), encode c (decodeByte c b) = [b] ∧ (decodeByte c b).wellFormed c = true

/-- R91, R95, R97, R103: a whole frame of a well-formed command, with every operand at every value, is read back as that
command, and the bytes after it are left.
The order of the fields of the extended commands is the spec's own choice (D19, D20, D25). -/
def Obligations.FrameRoundTrip : Prop :=
  ∀ (c : Config) (m : Command) (rest : List Byte), c.Valid → m.wellFormed c = true →
    parseFrame c (m.frame c ++ rest) = .ok (m, rest)

/-- R95: the exclusive-or of every byte of a command's frame is zero. -/
def Obligations.FrameChecksumCloses : Prop :=
  ∀ (c : Config) (m : Command), Instr.isCommand m.instr = true → checksum (m.frame c) = 0

/-- R103: the length of a command's frame.
The lengths of `BOOT` and of the string commands are the spec's own choice (D10, D19). -/
def Obligations.FrameLengths : Prop :=
  ∀ (c : Config) (m : Command), m.wellFormed c = true → (m.frame c).length =
    match m with
    | .idle | .unrecognised _ => 1
    | .boot | .getcwd => 2
    | .chdrv _ | .getpath _ | .dir _ | .info _ => 3
    | .lread _ _ | .pread _ _ | .format _ _ => 4
    | .lwrite _ _ _ => 132
    | .pwrite _ _ _ _ => 517
    | .ramrd _ => 2 + c.ramrd.args
    | .ramwr _ => 2 + c.ramwr.args
    | .ramex _ => 2 + c.ramex.args
    | .spd0 _ => 2 + c.spd0.args
    | .spd1 k _ => 2 + spdArgs c k
    | .mount _ _ len _ => if len = 0 ∨ len = 0xFF then 5 else 5 + len.toNat
    | .chdir str | .create str => 3 + str.length

/-! ## Operands -/

/-- R67, R92: the drive table, that `REMAP` is its own inverse, and that a selector byte built for a drive and a sector
names that drive and that sector.
The spec marks the clause on the inverse (R67) and the host's construction (R92) as derived. -/
def Obligations.SelectorNamesDriveAndSector : Prop :=
  remap 0 = 0 ∧ remap 1 = 2 ∧ remap 2 = 1 ∧ remap 3 = 3 ∧
  (∀ d : Fin 4, remap (BitVec.ofNat 2 (remap (BitVec.ofNat 2 d.val)).val) = d) ∧
  ∀ (secw : Nat) (d : Fin 4) (x : BitVec 6), selDrive (selByte d x) = d ∧ selSector secw 128 (selByte d x) = x

/-- R68: the sector field is `sel[5:0]` for a count of 128 and the low `SECW` bits otherwise, and the offset counts the
sector unless the operation is a format.
The place and the unit of the narrower field are the spec's own choice (D12). -/
def Obligations.OffsetFormula : Prop :=
  (∀ (secw : Nat) (sel : Byte), (selSector secw 128 sel).toNat = sel.toNat % 64) ∧
  (∀ (secw count : Nat) (sel : Byte), secw < 6 → count ≠ 128 →
    (selSector secw count sel).toNat = sel.toNat % 2 ^ secw) ∧
  (∀ (track : Byte) (x : BitVec 6),
    byteOffset KindFlags.format track x = track.toNat * 4608 ∧
    byteOffset KindFlags.read track x = track.toNat * 4608 + x.toNat * 128 ∧
    byteOffset KindFlags.write track x = track.toNat * 4608 + x.toNat * 128)

/-- R69, R71: no range check. Sector values from 36 up reach into the next track, every offset is a multiple of 128 and
none passes 1183104.
That nothing wraps is the spec's own choice (D13). -/
def Obligations.OffsetsAliasAndAlign : Prop :=
  (∀ (f : KindFlags) (track : Byte) (x : BitVec 6),
    byteOffset f track x % 128 = 0 ∧ byteOffset f track x ≤ 1183104) ∧
  (∀ (track : Byte) (x : BitVec 6), 36 ≤ x.toNat → track.toNat < 255 →
    byteOffset KindFlags.read track x = byteOffset KindFlags.read (track + 1) (x - 36))

/-- R131: the accumulator's laws: the order of the bytes does not matter, and the close-out byte that passes is exactly
the exclusive-or of what came before. -/
def Obligations.AccumulatorLaws : Prop :=
  (∀ (x : Byte) (bs cs : List Byte), bs.Perm cs → crcFoldAll x bs = crcFoldAll x cs) ∧
  (∀ (op ck : Byte) (bs : List Byte), crcGood (crcFold (crcFoldAll op bs) ck) = true ↔ ck = checksum (op :: bs)) ∧
  (∀ bs : List Byte, checksum (framed bs) = 0)

/-- R233, R248: entering a directory named without a separator and leaving it again comes back to where it was (for a
root marker and a separator that are the same one byte).
The path helpers are the spec's own choice (D22). -/
def Obligations.ParentUndoesJoin : Prop :=
  ∀ (b : Byte) (c p : Path), c ≠ [] → b ∉ p → parentPath [b] [b] (joinPath [b] [b] c p) = c

/-- R245: the loop of a directory listing answers the first entry that is a directory or has the image extension, skips
the others, and comes to the end exactly when none is left.
That a handle gives finitely many entries is the model's choice (U12, notes/assumptions/13.md). -/
def Obligations.ListingFindsNextEntry : Prop :=
  ∀ es : List Entry,
    ((dirScan es).1 = none ↔ ∀ e ∈ es, listed e = false) ∧
    ∀ (n : Path) (rest : List Entry), (dirScan es).1 = some (n, rest) ↔
      ∃ skipped e, es = skipped ++ e :: rest ∧ (∀ x ∈ skipped, listed x = false) ∧ listed e = true ∧ n = shownName e

/-! ## Byte transport -/

/-- R121, R122, R123: on both outcomes `Send` makes exactly its line sequence, leaves the output lines at their
defaults, records one byte-level event with its outcome, and changes nothing but the bus.
The strobe's levels and that `crc` is left alone are the spec's own choice (D33, D4). -/
def Obligations.SendOnTheLines : Prop :=
  ∀ (s : State) (v : Byte) (T : Nat), s.bus.AtDefault s.cfg →
    (s.send v T).2 = { s with bus := (s.send v T).2.bus } ∧
    (s.send v T).2.bus.AtDefault s.cfg ∧
    (s.send v T).2.bus.lines = eventLines s.cfg (.tx v (s.send v T).1) ++ s.bus.lines ∧
    (s.send v T).2.bus.wire = .tx v (s.send v T).1 :: s.bus.wire

/-- R121, R124, R129: a wait samples its line before it tests the clock, so one that finds the line low at the first
sample succeeds whatever the timeout; one that fails has waited its time; the clock never goes back. While the timeout
has not passed it goes on over samples with the line high: the next one with the line low ends it with true, and the first
one at which the timeout has passed ends it with false; either way the samples after it are left unread.
The order of sampling and clock test is the spec's own choice (D34), the host as a script of samples the model's
(notes/assumptions/3.md). -/
def Obligations.WaitsAreBounded : Prop :=
  ∀ (l : Line) (T : Nat) (b : Bus),
    (∀ x rest, b.host = x :: rest → Sample.at x l = false → (b.wait l T).1 = true) ∧
    ((b.wait l T).1 = false → b.clock + T ≤ (b.wait l T).2.clock) ∧
    b.clock ≤ (b.wait l T).2.clock ∧
    ∀ (pre : List Sample) (x : Sample) (rest : List Sample), b.host = pre ++ x :: rest →
      (∀ y ∈ pre, Sample.at y l = true) → pre = [] ∨ (pre.map (·.dt)).sum < T →
      (Sample.at x l = false → (b.wait l T).1 = true ∧ (b.wait l T).2.host = rest) ∧
      (Sample.at x l = true → T ≤ (pre.map (·.dt)).sum + x.dt →
        (b.wait l T).1 = false ∧ (b.wait l T).2.host = rest ∧
        (b.wait l T).2.clock = b.clock + (pre.map (·.dt)).sum + x.dt)

/-- R125, R128: without checking, a byte the host offers in time is returned and folded into `crc` and nothing is sent;
a timeout leaves `crc` alone and sends nothing. -/
def Obligations.ReceiveFoldsTheByte : Prop :=
  ∀ (s : State) (T : Nat),
    (∀ x rest, answered .obf T s.bus.host = some (x, rest) →
      (s.recv T false).1 = .ok x.din ∧ (s.recv T false).2.crc = s.crc ^^^ x.din ∧
      (s.recv T false).2.bus.wire = .rx x.din :: s.bus.wire ∧ (s.recv T false).2.bus.host = rest) ∧
    ((s.recv T false).1 = .timeout →
      (s.recv T false).2.crc = s.crc ∧ (s.recv T false).2.bus.wire = .rxTimeout :: s.bus.wire)

/-- R126, R127: the close-out. A byte that makes the accumulator zero is answered `B_ACK` and accepted, any other is
answered `B_NAK` and refused, a timeout is answered `B_NAK`; whether the answer is taken makes no difference.
That the outcome rests on the zero test alone is the spec's own choice (D5). -/
def Obligations.CloseOutAnswers : Prop :=
  ∀ (s : State) (T : Nat),
    (∀ v, (s.recv T true).1 = .ok v → s.crc ^^^ v = 0 ∧ (s.recv T true).2.crc = 0 ∧
      ∃ taken, (s.recv T true).2.bus.wire = .tx s.cfg.bAck taken :: .rx v :: s.bus.wire) ∧
    (∀ v, (s.recv T true).1 = .bad v → s.crc ^^^ v ≠ 0 ∧ (s.recv T true).2.crc = s.crc ^^^ v ∧
      ∃ taken, (s.recv T true).2.bus.wire = .tx s.cfg.bNak taken :: .rx v :: s.bus.wire) ∧
    ((s.recv T true).1 = .timeout → (s.recv T true).2.crc = s.crc ∧
      ∃ taken, (s.recv T true).2.bus.wire = .tx s.cfg.bNak taken :: .rxTimeout :: s.bus.wire)

/-- R130: a payload of `n` buffer bytes is sent in ascending order and then its own checksum, from a `crc` of zero; at
the first byte that is not taken the transaction aborts and nothing more is sent.
The order and the abort are the spec's own choice (D9, D16). -/
def Obligations.PayloadStreams : Prop :=
  ∀ (s : State) (n : Nat), n ≤ 512 →
    (∀ h', takes s.cfg.tXfer (n + 1) s.bus.host = some h' →
      ∃ t, sendPayload n s = .done () t ∧ t.crc = checksum (s.bufTake n) ∧ t.bus.host = h' ∧
        t.bus.wire = ((framed (s.bufTake n)).map (WireEvent.tx · true)).reverse ++ s.bus.wire) ∧
    (∀ c t, sendPayload n s = .abort c t → c = .txTimeout ∧
      ∃ sent v rest, framed (s.bufTake n) = sent ++ v :: rest ∧
        t.bus.wire = .tx v false :: ((sent.map (WireEvent.tx · true)).reverse ++ s.bus.wire))

/-- R31, R32, R33, R36, R122, R128: the byte-level account of a poll and its signal-level account agree: the lines move
only in the sequences of whole `Send` and `Recv` calls, one for each byte-level event, in the same order.
The moment the data lines are read and the levels are the spec's own choice (D33, D36); the two records are the model's
(notes/assumptions/17.md). -/
def Obligations.LinesRefineBytes : Prop :=
  ∀ s t : State, step s = .next t →
    ∃ es : List WireEvent, t.bus.wire = es ++ s.bus.wire ∧
      t.bus.lines = es.flatMap (eventLines s.cfg) ++ s.bus.lines

/-! ## Storage primitives -/

/-- R62, R65: every byte that a read delivers is the image's, as far as the image reaches. With no answer pending the
reference store decides: a read inside the image delivers every byte of it in order, one that passes the end delivers
none; a pending answer bounds what is delivered. No slot changes either way.
The reference store is the spec's own choice (D14); pending answers, and that nothing is said of bytes beyond the image,
are the model's (U6, notes/assumptions/9.md). -/
def Obligations.MemReadDelivers : Prop :=
  ∀ (c : Coll) (d : Fin 4) (off n : Nat),
    (c.stores = [] → off + n ≤ 368640 →
      (c.memRead d off n).1 = (List.range n).map fun i => (c.slot d).image.read (off + i)) ∧
    (c.stores = [] → 368640 < off + n → (c.memRead d off n).1 = []) ∧
    (∀ i (h : i < (c.memRead d off n).1.length), off + i < 368640 →
      (c.memRead d off n).1[i] = (c.slot d).image.read (off + i)) ∧
    (c.memRead d off n).1.length ≤ n ∧ (c.memRead d off n).2.slots = c.slots

/-- R63: `MemWrite` writes at most what it is given; the first `k` bytes lie at `off` up (as far as the image reaches),
and every other byte of the image and every other slot is unchanged.
A short write is the spec's own choice (D14); that nothing lies beyond the image (U6, notes/assumptions/9.md), and that no
file gets the bytes before a flush (R73, notes/assumptions/23.md), are the model's. -/
def Obligations.MemWriteStoresPrefix : Prop :=
  ∀ (c : Coll) (d : Fin 4) (off : Nat) (v : List Byte),
    (c.memWrite d off v).1 ≤ v.length ∧
    (∀ i (h : i < v.length), i < (c.memWrite d off v).1 → off + i < 368640 →
      ((c.memWrite d off v).2.slot d).image.read (off + i) = v[i]) ∧
    keepsOutside c (c.memWrite d off v).2 d off (c.memWrite d off v).1

/-- R65: the reference store writes all of an access inside the image and nothing of one that passes its end.
The reference store is the spec's own choice (D14). -/
def Obligations.ReferenceStoreWrites : Prop :=
  ∀ (c : Coll) (d : Fin 4) (off : Nat) (v : List Byte), c.stores = [] →
    (off + v.length ≤ 368640 → (c.memWrite d off v).1 = v.length) ∧
    (368640 < off + v.length → (c.memWrite d off v).1 = 0 ∧
      ∀ e a, ((c.memWrite d off v).2.slot e).image.read a = (c.slot e).image.read a)

/-! ## Dispatcher and link -/

/-- R151, R153, R155: a poll of a linked, idle engine whose opcode read yields `op` is `exec` of the command `op`
decodes to, in the state after the environment's batch and that read; without a byte the link is lost.
The plain opcode read is the spec's own choice (D41); the environment's batch is the model's (notes/assumptions/14.md). -/
def Obligations.StepRunsDecodedCommand : Prop :=
  ∀ s : State, s.phase = .idle → s.envStep.link = true →
    (∀ op, s.fetched.1 = some op → step s = exec (decodeByte s.fetched.2.cfg op) s.fetched.2) ∧
    (s.fetched.1 = none → step s = .next (linkLoss s.fetched.2))

/-- R152, R158: every poll that finds the link down makes a presence exchange and nothing else: its four cases with the
bytes sent and received and the link after it; the result is false, and nothing lasting changes but the link.
The result after a good exchange is the spec's own choice (D7). -/
def Obligations.PresenceExchangeCases : Prop :=
  ∀ s : State, s.link = false → ∃ t, poll s = .next t ∧ t.pollResult = false ∧ t.cfg = s.cfg ∧ t.cwd = s.cwd ∧
    t.dircur = s.dircur ∧ t.coll = s.coll ∧
    ((t.link = false ∧ t.bus.wire = .tx s.cfg.bIdle false :: s.bus.wire) ∨
     (t.link = false ∧ t.bus.wire = .rxTimeout :: .tx s.cfg.bIdle true :: s.bus.wire) ∨
     (∃ b, b ≠ s.cfg.bIdle ∧ t.link = false ∧ t.bus.wire = .rx b :: .tx s.cfg.bIdle true :: s.bus.wire) ∨
     (t.link = true ∧ t.bus.wire = .rx s.cfg.bIdle :: .tx s.cfg.bIdle true :: s.bus.wire))

/-- R21, R152, R153, R275: a host that takes the idle byte and echoes it in time links the engine; a linked engine whose
opcode read times out goes to Disconnected, sends nothing and returns false; and nothing else disconnects it.
That nothing is sent on a failed opcode read (D41, C13), and that the poll of a good exchange returns false (D7), are the
spec's own choice. -/
def Obligations.LinkUpAndDown : Prop :=
  (∀ (s : State) (x y : Sample) (h1 h2 : List Sample), s.link = false →
    answered .ibf s.cfg.tIdleTx s.bus.host = some (x, h1) → answered .obf s.cfg.tIdleRx h1 = some (y, h2) →
    y.din = s.cfg.bIdle →
    ∃ t, poll s = .next t ∧ t.link = true ∧ t.pollResult = false ∧ t.bus.host = h2) ∧
  (∀ s : State, s.link = true → (opcodeRead s).1 = none →
    ∃ t, poll s = .next t ∧ t.link = false ∧ t.pollResult = false ∧ t.lastEnd = some .linkLoss ∧
      t.bus.wire = .rxTimeout :: s.bus.wire ∧ t.cwd = s.cwd ∧ t.dircur = s.dircur ∧ t.coll = s.coll) ∧
  (∀ s t : State, s.link = true → poll s = .next t → t.link = false → (opcodeRead s).1 = none)

/-- R154: `IDLE` answers a next state, sends and receives nothing, changes nothing lasting, and `poll` returns false. -/
def Obligations.IdleIsSilent : Prop :=
  ∀ s : State, ∃ t, exec .idle s = .next t ∧ t.bus.wire = s.bus.wire ∧ t.bus.host = s.bus.host ∧
    t.pollResult = false ∧ t.lastEnd = none ∧ s.sameContext t ∧ t.coll = s.coll

/-- R102 c, R156, R273: an unrecognised byte is answered with exactly one `B_NAK`, taken or not; nothing else changes,
the link stays, and `poll` returns false.
That the link stays, and that a `B_NAK` not taken makes no difference, are the spec's own choice (D37). -/
def Obligations.UnrecognisedSendsOneNak : Prop :=
  ∀ (b : Byte) (s : State), ∃ t taken, exec (.unrecognised b) s = .next t ∧
    t.bus.wire = .tx s.cfg.bNak taken :: s.bus.wire ∧ t.pollResult = false ∧ t.lastEnd = some .unknownOpcode ∧
    s.sameContext t ∧ t.coll = s.coll

/-- R157: `poll` returns true exactly when a recognised opcode was dispatched, whatever became of its handler.
That this reading of the result governs is the spec's own choice (D7, C1). -/
def Obligations.PollResultMeansDispatch : Prop :=
  ∀ s t : State, step s = .next t →
    (t.pollResult = true ↔ s.envStep.link = true ∧
      ∃ op, s.fetched.1 = some op ∧ Instr.isCommand (decodeByte s.cfg op) = true)

/-- R158, R160, R47: no command, no result code and no abort changes the link or the configuration, and a poll whose
opcode read fails is the only one that brings the link down. -/
def Obligations.OnlyOpcodeReadFailureUnlinks : Prop :=
  (∀ (i : Instr) (s t : State), exec i s = .next t → t.link = s.link ∧ t.cfg = s.cfg) ∧
  (∀ s t : State, step s = .next t → s.link = true → (t.link = false ↔ s.fetched.1 = none))

/-! ## Block commands -/

/-- R190: `BOOT` reads `BOOT_COUNT` bytes at offset 0 of drive A and replies with them, or with the code of the first
check that fails.
The close-out of a boot read is the spec's own choice (D10), and so is the reference store behind the reply (D14). -/
def Obligations.BootReadsFirstBytes : Prop :=
  ∀ (s : State) (h' : List Sample), s.cfg.Valid →
    serves s.cfg.tXfer [s.cfg.opBoot] (1 + (readReply s.coll 0 0 s.cfg.bootCount).length) s.bus.host h' →
    Completes .boot s [s.cfg.opBoot] (s.cfg.bAck :: readReply s.coll 0 0 s.cfg.bootCount) h' fun t =>
      keepsPlace s t ∧ keepsDisks s.coll t.coll ∧
      t.coll.requests = readRequests s.coll 0 0 s.cfg.bootCount ++ s.coll.requests

/-- R191: `LREAD` reads the 128 bytes at `track * 4608 + sel[5:0] * 128` of slot `REMAP(sel[7:6])` and replies with
them and their checksum, or with the code of the first check that fails.
The reference store behind the reply is the spec's own choice (D14). -/
def Obligations.LreadSendsSector : Prop :=
  ∀ (s : State) (sel trk : Byte) (h' : List Sample),
    let off := sectorOffset trk (sel.toNat % 64)
    let ins := [sel, trk, OP_LREAD ^^^ sel ^^^ trk]
    let reply := readReply s.coll (selDrive sel) off 128
    serves s.cfg.tXfer ins (1 + reply.length) s.bus.host h' →
    Completes .lread s ins (s.cfg.bAck :: reply) h' fun t =>
      keepsPlace s t ∧ keepsDisks s.coll t.coll ∧
      t.coll.requests = readRequests s.coll (selDrive sel) off 128 ++ s.coll.requests

/-- R192: `PREAD` reads 512 bytes at `track * 4608 + sel[SECW-1:0] * 128`, and replies as `LREAD` does.
The count and the field are the spec's own choice (D11, D12, D14). -/
def Obligations.PreadSendsFourSectors : Prop :=
  ∀ (s : State) (sel trk : Byte) (h' : List Sample), s.cfg.Valid →
    let off := sectorOffset trk (sel.toNat % 2 ^ s.cfg.secw)
    let ins := [sel, trk, s.cfg.opPread ^^^ sel ^^^ trk]
    let reply := readReply s.coll (selDrive sel) off 512
    serves s.cfg.tXfer ins (1 + reply.length) s.bus.host h' →
    Completes .pread s ins (s.cfg.bAck :: reply) h' fun t =>
      keepsPlace s t ∧ keepsDisks s.coll t.coll ∧
      t.coll.requests = readRequests s.coll (selDrive sel) off 512 ++ s.coll.requests

/-- R193, R280: `LWRITE` receives 128 bytes, and after a good checksum stores them at `track * 4608 + sel[5:0] * 128` of
slot `REMAP(sel[7:6])`; it replies with one result byte, and the store has happened whether or not that byte is taken.
Every byte outside those 128, and every other slot, is as before.
The reference store behind it is the spec's own choice (D14), and the spec marks R280 as derived; that no file gets the
bytes before a flush is the model's (R73, notes/assumptions/23.md). -/
def Obligations.LwriteStoresSector : Prop :=
  ∀ (s : State) (sel trk : Byte) (data : List Byte), data.length = 128 →
    let d := selDrive sel
    let off := sectorOffset trk (sel.toNat % 64)
    let ins := sel :: trk :: (data ++ [checksum (s.cfg.opLwrite :: sel :: trk :: data)])
    let r := writeReply s.coll d off data
    let P : State → Prop := fun t =>
      keepsPlace s t ∧ t.coll = writeColl s.coll d off data ∧ keepsOutside s.coll t.coll d off 128 ∧
      t.coll.requests = writeRequests s.coll d off 128 ++ s.coll.requests
    (∀ h', serves s.cfg.tXfer ins 2 s.bus.host h' → Completes .lwrite s ins [s.cfg.bAck, r] h' P) ∧
    (servesOnly s.cfg.tXfer ins 1 s.bus.host → StopsAt .lwrite s ins [s.cfg.bAck] r P)

/-- R178, R194, R280: `PWRITE` receives 512 bytes and one more that is folded into the checksum and discarded; it stores
the 512 at `track * 4608 + sel[SECW-1:0] * 128` and replies with one result byte, taken or not.
The field and the store are the spec's own choice (D12, D14), and the spec marks R280 as derived; that no file gets the
bytes before a flush is the model's (R73, notes/assumptions/23.md). -/
def Obligations.PwriteStoresFirst512 : Prop :=
  ∀ (s : State) (sel trk extra : Byte) (data : List Byte), s.cfg.Valid → data.length = 512 →
    let d := selDrive sel
    let off := sectorOffset trk (sel.toNat % 2 ^ s.cfg.secw)
    let ins := sel :: trk :: (data ++ [extra, checksum (s.cfg.opPwrite :: sel :: trk :: (data ++ [extra]))])
    let r := writeReply s.coll d off data
    let P : State → Prop := fun t =>
      keepsPlace s t ∧ t.coll = writeColl s.coll d off data ∧ keepsOutside s.coll t.coll d off 512 ∧
      t.coll.requests = writeRequests s.coll d off 512 ++ s.coll.requests
    (∀ h', serves s.cfg.tXfer ins 2 s.bus.host h' → Completes .pwrite s ins [s.cfg.bAck, r] h' P) ∧
    (servesOnly s.cfg.tXfer ins 1 s.bus.host → StopsAt .pwrite s ins [s.cfg.bAck] r P)

/-- R64, R185, R186, R195, R280: `FORMAT` fills the 4608 bytes of the track with 0xE5 whatever the sector field says,
flushes, so that after OK the file behind the slot holds the image's bytes, and replies with one result byte, taken or
not; every byte outside the track, every other slot and every other file is as before.
Format-Error and the zero count are the spec's own choice (D15, D11), the spec marks R280 as derived; one request and the
flush as a copy of the whole image are the model's (notes/assumptions/22.md, 23.md), and so is that a path of other bytes
is another file (notes/assumptions/33.md). -/
def Obligations.FormatFillsTrack : Prop :=
  ∀ (s : State) (sel trk : Byte),
    let d := selDrive sel
    let off := trk.toNat * 4608
    let ins := [sel, trk, s.cfg.opFormat ^^^ sel ^^^ trk]
    let r := formatReply s.coll d off
    let P : State → Prop := fun t =>
      keepsPlace s t ∧ t.coll = formatColl s.coll d off ∧ keepsOutsideFlushed s.coll t.coll d off 4608 ∧
      (r = RC_OK → (t.coll.slot d).unflushed = false ∧
        fileLookup t.coll.files (s.coll.slot d).path = some (t.coll.slot d).image ∧
        ∀ a, off ≤ a → a < off + 4608 → a < 368640 → (t.coll.slot d).image.read a = 0xE5)
    (∀ h', serves s.cfg.tXfer ins 2 s.bus.host h' → Completes .format s ins [s.cfg.bAck, r] h' P) ∧
    (servesOnly s.cfg.tXfer ins 1 s.bus.host → StopsAt .format s ins [s.cfg.bAck] r P)

/-- R75, R197: write then read at the same drive, track and sector returns the payload byte for byte.
It is made for the reference store, the spec's own choice (D14). -/
def Obligations.WriteThenReadRoundTrip : Prop :=
  ∀ (s s' t : State) (sel trk : Byte) (data : List Byte) (h1 h2 : List Sample),
    let d := selDrive sel
    let off := sectorOffset trk (sel.toNat % 64)
    let insW := sel :: trk :: (data ++ [checksum (s.cfg.opLwrite :: sel :: trk :: data)])
    let insR := [sel, trk, OP_LREAD ^^^ sel ^^^ trk]
    data.length = 128 → (s.coll.slot d).isOpen = true → (s.coll.slot d).writable = true → s.coll.stores = [] →
    off + 128 ≤ 368640 →
    serves s.cfg.tXfer insW 2 s.bus.host h1 → exec .lwrite s = .next t →
    s'.coll = t.coll → serves s'.cfg.tXfer insR 131 s'.bus.host h2 →
    ∃ u, exec .lread s' = .next u ∧
      u.bus.wire = transcript insR (s'.cfg.bAck :: RC_OK :: framed data) ++ s'.bus.wire

/-- R171, R172: the argument check refuses exactly what it says, before any traffic and with nothing written, and none of
the six rows of the opcode map fails it.
The counts of the rows are the spec's own choice (D11). -/
def Obligations.ArgumentCheck : Prop :=
  (∀ (f : KindFlags) (boot : Bool) (count : Nat) (s : State),
    (f ≠ KindFlags.read ∧ f ≠ KindFlags.write ∧ f ≠ KindFlags.format ∨ 512 < count ∨
      (count = 0 ∧ f.fFormat = false)) ↔ blockIO f boot count s = .abort .argCheck s) ∧
  ∀ c : Config, c.Valid →
    argCheckFails .read c.bootCount = false ∧ argCheckFails .read 128 = false ∧ argCheckFails .read 512 = false ∧
    argCheckFails .write 128 = false ∧ argCheckFails .write 512 = false ∧ argCheckFails .format 0 = false

/-! ## Change drive and legacy commands -/

/-- R211: `CHDRV` answers whether the slot its byte names is open, at face value and with 4 to 255 naming none, and
changes no state.
The face value and the result byte are the spec's own choice (D17). -/
def Obligations.ChdrvAnswersWhetherOpen : Prop :=
  ∀ (s : State) (drv : Byte) (h' : List Sample),
    let ins := [drv, s.cfg.opChdrv ^^^ drv]
    let r := if h : drv.toNat < 4 then (if (s.coll.slot ⟨drv.toNat, h⟩).isOpen then RC_OK else RC_INVDRV) else RC_INVDRV
    serves s.cfg.tXfer ins 2 s.bus.host h' →
    Completes .chdrv s ins [s.cfg.bAck, r] h' fun t => keepsPlace s t ∧ t.coll = s.coll

/-- R212, R214 to R218: every legacy command consumes its fixed number of argument bytes, whatever they are, completes
the checksum handshake, sends its fixed number of zero bytes plainly, and does nothing else. -/
def Obligations.LegacyCommandsAreInert : Prop :=
  ∀ (i : Instr) (s : State) (row : LegRow) (args : List Byte) (h' : List Sample), legacyRow s.cfg i = some row →
    args.length = row.args →
    let ins := args ++ [checksum (opcodeOf s.cfg i :: args)]
    serves s.cfg.tXfer ins (1 + row.zeros) s.bus.host h' →
    Completes i s ins (s.cfg.bAck :: List.replicate row.zeros 0) h' fun t => keepsPlace s t ∧ t.coll = s.coll

/-- R219: a legacy command sends `B_NAK` only as the answer of a failed close-out: in a run that did not fail so, every
byte sent is `B_ACK` or zero. -/
def Obligations.LegacyNakDiscipline : Prop :=
  ∀ (i : Instr) (s t : State) (row : LegRow) (es : List WireEvent), legacyRow s.cfg i = some row →
    exec i s = .next t → t.bus.wire = es ++ s.bus.wire → t.lastEnd ≠ some .crcMismatch → t.lastEnd ≠ some .rxTimeout →
    ∀ v taken, .tx v taken ∈ es → v = s.cfg.bAck ∨ v = 0

/-! ## Extended commands -/

/-- R236: `GETPATH` answers Invalid-Drive for an index above 3; else OK and the framed flag, length and path (at most 63
bytes, without the root marker), flag 0 and the empty path for a closed slot.
The status byte, the closed slot and the index above 3 are the spec's own choice (D20, D40). -/
def Obligations.GetpathReportsSlot : Prop :=
  ∀ (s : State) (drv : Byte) (h' : List Sample),
    let ins := [drv, s.cfg.opGetpath ^^^ drv]
    let path := fun x : Slot => (relPath s.cfg.root x.path).take 63
    let reply := if h : drv.toNat < 4 then
        (let x := s.coll.slot ⟨drv.toNat, h⟩
         RC_OK :: framed (if x.isOpen then (if x.writable then 0 else 1) :: BitVec.ofNat 8 (path x).length :: path x
           else [0, 0]))
      else [RC_INVDRV]
    serves s.cfg.tXfer ins (1 + reply.length) s.bus.host h' →
    Completes .getpath s ins (s.cfg.bAck :: reply) h' fun t => keepsPlace s t ∧ t.coll = s.coll

/-- R238, R280: `MOUNT`. The inbound frame has path bytes unless its length byte is 0 or 0xFF; after the close-out an index
above 3 is refused with nothing unmounted; otherwise the slot is unmounted and, for a length other than 0, the collaborator
is asked to mount the old path or the joined one, and its answer is forwarded; all of it has happened whether or not the
result byte is taken.
The field order and the corner cases are the spec's own choice (D25, D40), and the spec marks R280 as derived; that the
old path of a slot which had none is the empty one is the model's (U11, notes/assumptions/32.md). -/
def Obligations.MountUnmountsThenMounts : Prop :=
  ∀ (s : State) (drv ro len : Byte) (p : Path),
    p.length = (if len = 0 ∨ len = 0xFF then 0 else len.toNat) →
    let ins := drv :: ro :: len :: (p ++ [checksum (s.cfg.opMount :: drv :: ro :: len :: p)])
    let joined := joinPath s.cfg.root s.cfg.sep s.cwd p
    let act : Byte × Coll := if h : drv.toNat < 4 then
        (let d : Fin 4 := ⟨drv.toNat, h⟩
         let c := s.coll.unmount d
         if len = 0 then (RC_OK, c)
         else if len = 0xFF then c.mount s.cfg d (s.coll.slot d).path (ro != 0)
         else if 255 < joined.length then (RC_NOPATH, c)
         else c.mount s.cfg d joined (ro != 0))
      else (RC_INVDRV, s.coll)
    let P : State → Prop := fun t => keepsPlace s t ∧ t.coll = act.2
    (∀ h', serves s.cfg.tXfer ins 2 s.bus.host h' → Completes .mount s ins [s.cfg.bAck, act.1] h' P) ∧
    (servesOnly s.cfg.tXfer ins 1 s.bus.host → StopsAt .mount s ins [s.cfg.bAck] act.1 P)

/-- R42, R238, R276: what the collaborator's two calls do. Unmount closes the slot and nothing else of the table, and the
file behind a slot that was open keeps its bytes. Mount answers OK, Path-Not-Found, Image-Unknown or `B_NAK`; it opens the
slot with the path, the flag and the bytes of the file asked for exactly on OK, leaves every slot alone otherwise, and
changes no file. Which of the four it answers is the collaborator's answer.
That an unmount saves the image and touches nothing else of a slot, where the bytes of a file that the machine does not
know come from, and that a refused mount keeps the old path and flag, are the model's choices (notes/assumptions/11.md,
12.md, 30.md), and so is that a path of other bytes is another file (notes/assumptions/33.md). -/
def Obligations.MountAndUnmountEffects : Prop :=
  ∀ (c : Coll) (cfg : Config) (d : Fin 4) (path : Path) (ro : Bool),
    ((c.unmount d).slot d).isOpen = false ∧ (∀ e, e ≠ d → (c.unmount d).slot e = c.slot e) ∧
    (c.unmount d).slot d = { c.slot d with isOpen := false } ∧
    ((c.slot d).isOpen = true → fileLookup (c.unmount d).files (c.slot d).path = some (c.slot d).image ∧
      ∀ p, p ≠ (c.slot d).path → fileLookup (c.unmount d).files p = fileLookup c.files p) ∧
    ((c.slot d).isOpen = false → (c.unmount d).files = c.files) ∧
    ((c.mount cfg d path ro).1 = RC_OK ∨ (c.mount cfg d path ro).1 = RC_NOPATH ∨
      (c.mount cfg d path ro).1 = RC_IMGUNK ∨ (c.mount cfg d path ro).1 = cfg.bNak) ∧
    (c.mount cfg d path ro).1 = (match c.mountAnswer with
      | .ok _ => RC_OK | .noPath => RC_NOPATH | .imgUnknown => RC_IMGUNK | .nak => cfg.bNak) ∧
    (∀ e, e ≠ d → ((c.mount cfg d path ro).2).slot e = c.slot e) ∧ (c.mount cfg d path ro).2.files = c.files ∧
    (cfg.Valid → (c.mount cfg d path ro).1 = RC_OK →
      (((c.mount cfg d path ro).2).slot d).isOpen = true ∧
      (((c.mount cfg d path ro).2).slot d).writable = !ro ∧ (((c.mount cfg d path ro).2).slot d).path = path ∧
      (∀ m, fileLookup c.files path = some m → (((c.mount cfg d path ro).2).slot d).image = m) ∧
      (fileLookup c.files path = none → ∃ contents, c.mountAnswer = .ok contents ∧
        (((c.mount cfg d path ro).2).slot d).image = Memory.canon contents)) ∧
    (cfg.Valid → (c.mount cfg d path ro).1 ≠ RC_OK → (c.mount cfg d path ro).2.slots = c.slots)

/-- R241: `GETCWD` replies with the working directory without its root marker, length first, at most 63 bytes, framed
with its checksum; no result byte.
That no result byte is sent is the spec's own choice (D19). -/
def Obligations.GetcwdReportsDirectory : Prop :=
  ∀ (s : State) (h' : List Sample), s.cfg.Valid → s.CwdOk →
    let p := s.cwd.drop s.cfg.root.length
    p.length ≤ 63 ∧
    (serves s.cfg.tXfer [s.cfg.opGetcwd] (3 + p.length) s.bus.host h' →
      Completes .getcwd s [s.cfg.opGetcwd] (s.cfg.bAck :: framed (BitVec.ofNat 8 p.length :: p)) h' fun t =>
        keepsPlace s t ∧ t.coll = s.coll)

/-- R243, R244, R280: `DIR` with flag 0 closes an open cursor, opens the working directory anew and replies with `[.]` at
the root and `[..]` elsewhere, whether or not the open succeeded: where the collaborator answers the open with a list of
entries the cursor is a handle, not open before, that still has exactly these to give, where it refuses there is no
cursor; all of it has happened also where the host takes nothing of the reply.
No result byte and the entry after a failed open are the spec's own choice (D19, D23), the spec marks R280 as derived; the
list of entries is the model's (notes/assumptions/13.md). That the handle is new is said of states with the invariant's
`CursorOk` (StepKeepsInvariant). -/
def Obligations.DirResetStartsListing : Prop :=
  ∀ s : State,
    let ins := [0, s.cfg.opDir]
    let name : Path := if s.cwd = s.cfg.root then [0x5B, 0x2E, 0x5D] else [0x5B, 0x2E, 0x2E, 0x5D]
    let c := match s.dircur with | some h => s.coll.dirClose h | none => s.coll
    let P : State → Prop := fun t =>
      t.cwd = s.cwd ∧ t.dircur = (c.dirOpen s.cwd).1 ∧ t.coll = (c.dirOpen s.cwd).2 ∧
      t.coll.slots = s.coll.slots ∧ t.coll.files = s.coll.files ∧
      (∀ es, s.coll.openAnswer = some es → ∃ h, t.dircur = some h ∧ t.coll.dirEntries h = es ∧
        t.coll.dirs = ⟨h, es⟩ :: c.dirs ∧ (s.CursorOk → ∀ o ∈ s.coll.dirs, o.handle ≠ h)) ∧
      (s.coll.openAnswer = none → t.dircur = none ∧ t.coll.dirs = c.dirs)
    (∀ h', serves s.cfg.tXfer ins (3 + name.length) s.bus.host h' →
      Completes .dir s ins (s.cfg.bAck :: framed (BitVec.ofNat 8 name.length :: name)) h' P) ∧
    (servesOnly s.cfg.tXfer ins 1 s.bus.host →
      StopsAt .dir s ins [s.cfg.bAck] (BitVec.ofNat 8 name.length) P)

/-- R243, R245, R280: `DIR` with another flag replies with the next name of the listing, cut to 63 bytes, and moves the
cursor past it; at the end, and without a cursor, with the empty name, and no cursor is open afterwards. The cursor has
moved also where the host takes nothing of the reply.
The empty name without a cursor and the cut are the spec's own choice (D19, D23), the spec marks R280 as derived; the list
of entries is the model's (notes/assumptions/13.md). -/
def Obligations.DirNextAdvancesListing : Prop :=
  ∀ (s : State) (flag : Byte), flag ≠ 0 →
    let ins := [flag, s.cfg.opDir ^^^ flag]
    let found := s.dircur.bind fun h => (dirScan (s.coll.dirEntries h)).1
    let name : Path := (found.elim [] fun r => r.1).take 63
    let P : State → Prop := fun t =>
      t.cwd = s.cwd ∧ t.coll.slots = s.coll.slots ∧ t.coll.files = s.coll.files ∧
      t.dircur = (if found.isSome then s.dircur else none) ∧
      (∀ h n rest, s.dircur = some h → found = some (n, rest) →
        t.coll.dirs = s.coll.dirs.map fun o => if o.handle = h then { o with entries := rest } else o) ∧
      (∀ h, s.dircur = some h → found = none → t.coll.dirs = s.coll.dirs.filter fun o => o.handle ≠ h)
    (∀ h', serves s.cfg.tXfer ins (3 + name.length) s.bus.host h' →
      Completes .dir s ins (s.cfg.bAck :: framed (BitVec.ofNat 8 name.length :: name)) h' P) ∧
    (servesOnly s.cfg.tXfer ins 1 s.bus.host →
      StopsAt .dir s ins [s.cfg.bAck] (BitVec.ofNat 8 name.length) P)

/-- R248, R280: `CHDIR` reads the whole string whatever its length, then answers by its cases: too long, a no-op, the
parent, a joined path that is too long, and the probe's answer; `cwd` changes only where the rule assigns it, and has
changed there whether or not the result byte is taken.
The length tests and the empty string are the spec's own choice (D19, D22); the spec marks R280 as derived. -/
def Obligations.ChdirMovesOrKeeps : Prop :=
  ∀ (s : State) (p : Path), p.length < 256 →
    let ins := BitVec.ofNat 8 p.length :: (p ++ [checksum (s.cfg.opChdir :: BitVec.ofNat 8 p.length :: p)])
    let new := joinPath s.cfg.root s.cfg.sep s.cwd p
    let act : Byte × Path :=
      if 63 < p.length then (RC_LONGPATH, s.cwd)
      else if p = [] ∨ p = [0x2E] then (RC_OK, s.cwd)
      else if p = [0x2E, 0x2E] then (RC_OK, parentPath s.cfg.root s.cfg.sep s.cwd)
      else if 64 < new.length then (RC_LONGPATH, s.cwd)
      else if s.coll.probeAnswer then (RC_OK, new)
      else (RC_NOPATH, s.cwd)
    let P : State → Prop := fun t =>
      t.cwd = act.2 ∧ t.dircur = s.dircur ∧ t.coll.slots = s.coll.slots ∧ t.coll.files = s.coll.files ∧
      t.coll.dirs = s.coll.dirs
    (∀ h', serves s.cfg.tXfer ins 2 s.bus.host h' → Completes .chdir s ins [s.cfg.bAck, act.1] h' P) ∧
    (servesOnly s.cfg.tXfer ins 1 s.bus.host → StopsAt .chdir s ins [s.cfg.bAck] act.1 P)

/-- R251, R280: `CREATE` appends the extension where it is missing and asks the collaborator to create the joined path; on
its yes that file holds 0xE5 throughout and every other file is as before, and no slot changes either way; all of it has
happened whether or not the result byte is taken.
The length tests and the extension are the spec's own choice (D19, D24), the spec marks R280 as derived; that a no leaves
every known file as it was, and that a path of other bytes is another file, are the model's (notes/assumptions/31.md,
33.md). -/
def Obligations.CreateMakesFilledFile : Prop :=
  ∀ (s : State) (p : Path), p.length < 256 →
    let ins := BitVec.ofNat 8 p.length :: (p ++ [checksum (s.cfg.opCreate :: BitVec.ofNat 8 p.length :: p)])
    let full := joinPath s.cfg.root s.cfg.sep s.cwd (if endsExt p then p else p ++ IMG_EXT)
    let asked := p.length ≤ 63 ∧ full.length ≤ 255
    let r : Byte := if asked then (if s.coll.createAnswer then RC_OK else RC_CREATERR) else RC_LONGPATH
    let P : State → Prop := fun t =>
      keepsPlace s t ∧ t.coll.slots = s.coll.slots ∧ t.coll.dirs = s.coll.dirs ∧
      (r = RC_OK → (∃ m, fileLookup t.coll.files full = some m ∧ ∀ a, Memory.read m a = 0xE5) ∧
        ∀ q, q ≠ full → fileLookup t.coll.files q = fileLookup s.coll.files q) ∧
      (r ≠ RC_OK → t.coll.files = s.coll.files)
    (∀ h', serves s.cfg.tXfer ins 2 s.bus.host h' → Completes .create s ins [s.cfg.bAck, r] h' P) ∧
    (servesOnly s.cfg.tXfer ins 1 s.bus.host → StopsAt .create s ins [s.cfg.bAck] r P)

/-- R253: `INFO` replies with the framed geometry record of an open slot, and with zeros for a closed one and for an
index above 3; no result byte.
No status byte, the third byte and the index above 3 are the spec's own choice (D21, D40). -/
def Obligations.InfoReportsGeometry : Prop :=
  ∀ (s : State) (drv : Byte) (h' : List Sample),
    let ins := [drv, s.cfg.opInfo ^^^ drv]
    let isOpen := if h : drv.toNat < 4 then (s.coll.slot ⟨drv.toNat, h⟩).isOpen else false
    let record : List Byte := if isOpen then [80, 36, s.cfg.geomPsize] else [0, 0, 0]
    serves s.cfg.tXfer ins 5 s.bus.host h' →
    Completes .info s ins (s.cfg.bAck :: framed record) h' fun t => keepsPlace s t ∧ t.coll = s.coll

/-! ## Failures -/

/-- R279: what taking an abort does: `link`, `cwd`, `dircur` and the collaborators keep their values, no byte moves, no
line moves, `phase` is idle, `poll` returns true, and the next poll starts anew. -/
def Obligations.AbortEntry : Prop :=
  ∀ (s : State) (c : Cause), let t := s.takeAbort c
    t.link = s.link ∧ t.cwd = s.cwd ∧ t.dircur = s.dircur ∧ t.coll = s.coll ∧ t.cfg = s.cfg ∧ t.phase = .idle ∧
    t.pollResult = true ∧ t.bus.wire = s.bus.wire ∧ t.bus.lines = s.bus.lines ∧ t.bus.host = s.bus.host ∧
    (s.bus.AtDefault s.cfg → t.bus.AtDefault t.cfg)

/-- R179, R272, R280: an abort at or before the close-out has no lasting effect, whichever command it ends; and every
command refuses a wrong checksum byte: a host that offers the body of its frame and then another byte than the checksum
gets `B_NAK` and nothing after it, and the command has no lasting effect.
The spec marks R280 as derived; the zero test alone (D5), the one timeout (D6) and the close-out of a boot read (D10) are
its own choice. -/
def Obligations.EarlyAbortsLeaveNoTrace : Prop :=
  (∀ (i : Instr) (s t : State), exec i s = .next t →
    t.lastEnd = some .rxTimeout ∨ t.lastEnd = some .crcMismatch ∨ t.lastEnd = some .argCheck →
    t.coll = s.coll ∧ t.cwd = s.cwd ∧ t.dircur = s.dircur ∧ t.link = s.link) ∧
  ∀ (m : Command) (s : State) (ck : Byte) (h' : List Sample),
    s.cfg.Valid → m.wellFormed s.cfg = true → Instr.isCommand m.instr = true →
    ck ≠ checksum (opcodeOf s.cfg m.instr :: m.body) →
    offers s.cfg.tXfer (m.body ++ [ck]) s.bus.host = some h' →
    ∃ t taken, exec m.instr s = .next t ∧ t.lastEnd = some .crcMismatch ∧ t.pollResult = true ∧
      t.bus.wire = .tx s.cfg.bNak taken :: (((m.body ++ [ck]).map WireEvent.rx).reverse ++ s.bus.wire) ∧
      t.coll = s.coll ∧ t.cwd = s.cwd ∧ t.dircur = s.dircur ∧ t.link = s.link

/-- R173, R270, R271: what the host sees last of an aborted command: nothing or one `B_NAK` after a byte that did not
come, `B_NAK` after a bad checksum byte, and nothing after a byte it did not take. Which of the two it is after a byte that
did not come: a host that falls silent inside the body of a command is sent nothing, one that falls silent where the
checksum byte is due is sent `B_NAK`; neither leaves a lasting effect.
The one timeout (D6) and the close-out of a boot read (D10) are the spec's own choice. -/
def Obligations.AbortsShowOnTheWire : Prop :=
  (∀ (i : Instr) (s t : State), exec i s = .next t →
    (t.lastEnd = some .rxTimeout → ∃ w taken,
      t.bus.wire = .rxTimeout :: w ∨ t.bus.wire = .tx s.cfg.bNak taken :: .rxTimeout :: w) ∧
    (t.lastEnd = some .crcMismatch → ∃ w v taken, t.bus.wire = .tx s.cfg.bNak taken :: .rx v :: w) ∧
    (t.lastEnd = some .txTimeout → ∃ w v, t.bus.wire = .tx v false :: w)) ∧
  ∀ (m : Command) (s : State) (q more : List Byte) (h' : List Sample),
    s.cfg.Valid → m.wellFormed s.cfg = true → Instr.isCommand m.instr = true → m.body = q ++ more →
    offers s.cfg.tXfer q s.bus.host = some h' → misses .obf s.cfg.tXfer h' →
    ∃ t, exec m.instr s = .next t ∧ t.lastEnd = some .rxTimeout ∧ t.pollResult = true ∧
      (more ≠ [] → t.bus.wire = .rxTimeout :: ((q.map WireEvent.rx).reverse ++ s.bus.wire)) ∧
      (more = [] → ∃ taken,
        t.bus.wire = .tx s.cfg.bNak taken :: .rxTimeout :: ((q.map WireEvent.rx).reverse ++ s.bus.wire)) ∧
      t.coll = s.coll ∧ t.cwd = s.cwd ∧ t.dircur = s.dircur ∧ t.link = s.link

/-! ## Frames over all commands -/

/-- R27, R46, R249: `cwd` changes only in `CHDIR`, and only with the result byte OK as the last byte sent, in a command and
in a whole poll: the environment's batch before it leaves the configuration, the link, `cwd`, the cursor and the record of
the wire alone.
The batch is the model's form of R46 (notes/assumptions/14.md). -/
def Obligations.OnlyChdirChangesCwd : Prop :=
  (∀ (i : Instr) (s t : State), exec i s = .next t → t.cwd ≠ s.cwd →
    i = .chdir ∧ ∃ w taken, t.bus.wire = .tx RC_OK taken :: w) ∧
  (∀ s : State, s.envStep.cfg = s.cfg ∧ s.envStep.link = s.link ∧ s.envStep.cwd = s.cwd ∧
    s.envStep.dircur = s.dircur ∧ s.envStep.bus.wire = s.bus.wire) ∧
  ∀ s t : State, step s = .next t → t.cwd ≠ s.cwd → s.link = true ∧
    ∃ op w taken, s.fetched.1 = some op ∧ decodeByte s.cfg op = .chdir ∧ t.bus.wire = .tx RC_OK taken :: w

/-- R28, R46, R246: the directory cursor and the open directories change only in `DIR`, in a command and in a whole poll:
between polls the environment may change what a directory still lists, and neither the cursor nor which handles are open.
The spec marks R246 as derived; the environment's batch is the model's (notes/assumptions/14.md). -/
def Obligations.OnlyDirMovesCursor : Prop :=
  (∀ (i : Instr) (s t : State), exec i s = .next t → i ≠ .dir →
    t.dircur = s.dircur ∧ t.coll.dirs = s.coll.dirs) ∧
  ∀ s t : State, step s = .next t →
    t.dircur ≠ s.dircur ∨ t.coll.dirs.map (·.handle) ≠ s.coll.dirs.map (·.handle) →
    s.link = true ∧ ∃ op, s.fetched.1 = some op ∧ decodeByte s.cfg op = .dir

/-- R41, R198, R238: only `MOUNT` opens, closes or renames a slot, and beside it only the two writes and the format
change the bytes of an image; only `MOUNT`, `FORMAT` and `CREATE` change a file.
That a write reaches no file before a flush is the model's choice (R73, notes/assumptions/23.md). -/
def Obligations.SlotsChangeOnlyByMountAndWrites : Prop :=
  ∀ (i : Instr) (s t : State) (d : Fin 4), exec i s = .next t → i ≠ .mount →
    (t.coll.slot d).isOpen = (s.coll.slot d).isOpen ∧ (t.coll.slot d).writable = (s.coll.slot d).writable ∧
    (t.coll.slot d).path = (s.coll.slot d).path ∧
    (i ≠ .lwrite → i ≠ .pwrite → i ≠ .format → t.coll.slot d = s.coll.slot d) ∧
    (i ≠ .format → i ≠ .create → t.coll.files = s.coll.files)

/-- R68, R182, R185, R198, R280: whatever becomes of a write or a format, an image either keeps every byte or changes only
inside the bytes that the selector and track bytes just received address, in the one slot they name; a format changes no
file but the one behind that slot, which gets the image's bytes with the flush.
The narrower field is the spec's own choice (D12); that a write leaves the files alone, and the flush as a copy of the
whole image, are the model's (R73, notes/assumptions/23.md), and so is that a path of other bytes is another file
(notes/assumptions/33.md). -/
def Obligations.StoresOnlyWhereAddressed : Prop :=
  ∀ (i : Instr) (s t : State), exec i s = .next t → i = .lwrite ∨ i = .pwrite ∨ i = .format →
    t.coll = s.coll ∨ ∃ (es : List WireEvent) (sel trk : Byte),
      t.bus.wire = es ++ .rx trk :: .rx sel :: s.bus.wire ∧
      (i = .lwrite → keepsOutside s.coll t.coll (selDrive sel) (sectorOffset trk (sel.toNat % 64)) 128) ∧
      (i = .pwrite → s.cfg.secw < 6 →
        keepsOutside s.coll t.coll (selDrive sel) (sectorOffset trk (sel.toNat % 2 ^ s.cfg.secw)) 512) ∧
      (i = .format → keepsOutsideFlushed s.coll t.coll (selDrive sel) (trk.toNat * 4608) 4608)

/-! ## Reset and the whole machine -/

/-- R50, R51, R53, R310: what reset leaves, under every configuration, in the elements to which the rules give a value.
Only `link` is the source's; `cwd`, the cursor and the lines are the spec's own choice (D22, D26, D33). -/
def Obligations.ResetState : Prop :=
  ∀ c : Config, let s := State.resetWith c
    s.link = false ∧ s.cwd = c.root ∧ s.dircur = none ∧ s.phase = .idle ∧ s.bus.dOe = false ∧ s.bus.sDir = c.dirIn ∧
    s.bus.sStb = true ∧ s.bus.sAck = c.ackOff

/-- The invariant holds at reset under every valid configuration (the closed slots and empty stores are the model's own
choice, notes/assumptions/6.md). -/
def Obligations.ResetMeetsInvariant : Prop := ∀ c : Config, c.Valid → (State.resetWith c).Inv

/-- R24, R27, R28, R29, R36, R47, R332: from every state that meets the invariant, whatever the host, the collaborators
and the environment do, a poll leaves a state that meets it: valid configuration, idle sequencer, output lines at their
defaults, `cwd` within its bounds under the root marker, at most the one handle of `dircur` open, images in canonical
form.
The bounds on `cwd` and on paths rest on the spec's and the model's choices (D22, notes/assumptions/14.md, 19.md). -/
def Obligations.StepKeepsInvariant : Prop := ∀ s t : State, s.Inv → step s = .next t → t.Inv

/-- R120, R330: an idle engine always comes to the end of its poll: no wait and no collaborator call can stop it. A poll
started while one is running is outside the model (U14; notes/assumptions/16.md).
That every wait ends is the spec's assumption (U13), the finite directory the model's form of it (U12,
notes/assumptions/13.md). -/
def Obligations.PollAlwaysReturns : Prop :=
  ∀ s : State, (s.phase = .idle → ∃ t, step s = .next t) ∧ (s.phase ≠ .idle → step s = .refused .pollReentered)

/-- R52, R23, R25, D31: what a poll finds in `crc`, `buf`, the latches and `D_out` makes no difference to anything it
does or leaves.
That they are unspecified after a poll is the spec's own choice (D31). -/
def Obligations.StaleContentsAreDead : Prop :=
  ∀ (s : State) (crc dOut : Byte) (buf : Vector Byte 512) (latch : Latches),
    step { s with crc := crc, buf := buf, latch := latch, bus := { s.bus with dOut := dOut } } = step s
end

