-- ==== Sys2Proof/Laws/State.lean ====
section
/-! SUPPORT. One lemma per field and update of the state, true by `rfl`: no later proof unfolds a record update. -/

namespace Sys2Proof.Machine

/-! ## The bus -/

@[simp] theorem Bus.setDir_sDir (x : Bus) (l : Bool) : (x.setDir l).sDir = l := rfl
@[simp] theorem Bus.setDir_sStb (x : Bus) (l : Bool) : (x.setDir l).sStb = x.sStb := rfl
@[simp] theorem Bus.setDir_sAck (x : Bus) (l : Bool) : (x.setDir l).sAck = x.sAck := rfl
@[simp] theorem Bus.setDir_dOe (x : Bus) (l : Bool) : (x.setDir l).dOe = x.dOe := rfl
@[simp] theorem Bus.setDir_dOut (x : Bus) (l : Bool) : (x.setDir l).dOut = x.dOut := rfl
@[simp] theorem Bus.setDir_sIbf (x : Bus) (l : Bool) : (x.setDir l).sIbf = x.sIbf := rfl
@[simp] theorem Bus.setDir_sObf (x : Bus) (l : Bool) : (x.setDir l).sObf = x.sObf := rfl
@[simp] theorem Bus.setDir_dIn (x : Bus) (l : Bool) : (x.setDir l).dIn = x.dIn := rfl
@[simp] theorem Bus.setDir_clock (x : Bus) (l : Bool) : (x.setDir l).clock = x.clock := rfl
@[simp] theorem Bus.setDir_host (x : Bus) (l : Bool) : (x.setDir l).host = x.host := rfl
@[simp] theorem Bus.setDir_draws (x : Bus) (l : Bool) : (x.setDir l).draws = x.draws := rfl
@[simp] theorem Bus.setDir_lines (x : Bus) (l : Bool) : (x.setDir l).lines = .dir l :: x.lines := rfl
@[simp] theorem Bus.setDir_wire (x : Bus) (l : Bool) : (x.setDir l).wire = x.wire := rfl

@[simp] theorem Bus.drive_sDir (x : Bus) (v : Byte) : (x.drive v).sDir = x.sDir := rfl
@[simp] theorem Bus.drive_sStb (x : Bus) (v : Byte) : (x.drive v).sStb = x.sStb := rfl
@[simp] theorem Bus.drive_sAck (x : Bus) (v : Byte) : (x.drive v).sAck = x.sAck := rfl
@[simp] theorem Bus.drive_dOe (x : Bus) (v : Byte) : (x.drive v).dOe = true := rfl
@[simp] theorem Bus.drive_dOut (x : Bus) (v : Byte) : (x.drive v).dOut = v := rfl
@[simp] theorem Bus.drive_sIbf (x : Bus) (v : Byte) : (x.drive v).sIbf = x.sIbf := rfl
@[simp] theorem Bus.drive_sObf (x : Bus) (v : Byte) : (x.drive v).sObf = x.sObf := rfl
@[simp] theorem Bus.drive_dIn (x : Bus) (v : Byte) : (x.drive v).dIn = x.dIn := rfl
@[simp] theorem Bus.drive_clock (x : Bus) (v : Byte) : (x.drive v).clock = x.clock := rfl
@[simp] theorem Bus.drive_host (x : Bus) (v : Byte) : (x.drive v).host = x.host := rfl
@[simp] theorem Bus.drive_draws (x : Bus) (v : Byte) : (x.drive v).draws = x.draws := rfl
@[simp] theorem Bus.drive_lines (x : Bus) (v : Byte) : (x.drive v).lines = .drive v :: x.lines := rfl
@[simp] theorem Bus.drive_wire (x : Bus) (v : Byte) : (x.drive v).wire = x.wire := rfl

@[simp] theorem Bus.release_sDir (x : Bus) : (x.release).sDir = x.sDir := rfl
@[simp] theorem Bus.release_sStb (x : Bus) : (x.release).sStb = x.sStb := rfl
@[simp] theorem Bus.release_sAck (x : Bus) : (x.release).sAck = x.sAck := rfl
@[simp] theorem Bus.release_dOe (x : Bus) : (x.release).dOe = false := rfl
@[simp] theorem Bus.release_dOut (x : Bus) : (x.release).dOut = x.dOut := rfl
@[simp] theorem Bus.release_sIbf (x : Bus) : (x.release).sIbf = x.sIbf := rfl
@[simp] theorem Bus.release_sObf (x : Bus) : (x.release).sObf = x.sObf := rfl
@[simp] theorem Bus.release_dIn (x : Bus) : (x.release).dIn = x.dIn := rfl
@[simp] theorem Bus.release_clock (x : Bus) : (x.release).clock = x.clock := rfl
@[simp] theorem Bus.release_host (x : Bus) : (x.release).host = x.host := rfl
@[simp] theorem Bus.release_draws (x : Bus) : (x.release).draws = x.draws := rfl
@[simp] theorem Bus.release_lines (x : Bus) : (x.release).lines = .hiZ :: x.lines := rfl
@[simp] theorem Bus.release_wire (x : Bus) : (x.release).wire = x.wire := rfl

@[simp] theorem Bus.setStb_sDir (x : Bus) (l : Bool) : (x.setStb l).sDir = x.sDir := rfl
@[simp] theorem Bus.setStb_sStb (x : Bus) (l : Bool) : (x.setStb l).sStb = l := rfl
@[simp] theorem Bus.setStb_sAck (x : Bus) (l : Bool) : (x.setStb l).sAck = x.sAck := rfl
@[simp] theorem Bus.setStb_dOe (x : Bus) (l : Bool) : (x.setStb l).dOe = x.dOe := rfl
@[simp] theorem Bus.setStb_dOut (x : Bus) (l : Bool) : (x.setStb l).dOut = x.dOut := rfl
@[simp] theorem Bus.setStb_sIbf (x : Bus) (l : Bool) : (x.setStb l).sIbf = x.sIbf := rfl
@[simp] theorem Bus.setStb_sObf (x : Bus) (l : Bool) : (x.setStb l).sObf = x.sObf := rfl
@[simp] theorem Bus.setStb_dIn (x : Bus) (l : Bool) : (x.setStb l).dIn = x.dIn := rfl
@[simp] theorem Bus.setStb_clock (x : Bus) (l : Bool) : (x.setStb l).clock = x.clock := rfl
@[simp] theorem Bus.setStb_host (x : Bus) (l : Bool) : (x.setStb l).host = x.host := rfl
@[simp] theorem Bus.setStb_draws (x : Bus) (l : Bool) : (x.setStb l).draws = x.draws := rfl
@[simp] theorem Bus.setStb_lines (x : Bus) (l : Bool) : (x.setStb l).lines = .stb l :: x.lines := rfl
@[simp] theorem Bus.setStb_wire (x : Bus) (l : Bool) : (x.setStb l).wire = x.wire := rfl

@[simp] theorem Bus.setAck_sDir (x : Bus) (l : Bool) : (x.setAck l).sDir = x.sDir := rfl
@[simp] theorem Bus.setAck_sStb (x : Bus) (l : Bool) : (x.setAck l).sStb = x.sStb := rfl
@[simp] theorem Bus.setAck_sAck (x : Bus) (l : Bool) : (x.setAck l).sAck = l := rfl
@[simp] theorem Bus.setAck_dOe (x : Bus) (l : Bool) : (x.setAck l).dOe = x.dOe := rfl
@[simp] theorem Bus.setAck_dOut (x : Bus) (l : Bool) : (x.setAck l).dOut = x.dOut := rfl
@[simp] theorem Bus.setAck_sIbf (x : Bus) (l : Bool) : (x.setAck l).sIbf = x.sIbf := rfl
@[simp] theorem Bus.setAck_sObf (x : Bus) (l : Bool) : (x.setAck l).sObf = x.sObf := rfl
@[simp] theorem Bus.setAck_dIn (x : Bus) (l : Bool) : (x.setAck l).dIn = x.dIn := rfl
@[simp] theorem Bus.setAck_clock (x : Bus) (l : Bool) : (x.setAck l).clock = x.clock := rfl
@[simp] theorem Bus.setAck_host (x : Bus) (l : Bool) : (x.setAck l).host = x.host := rfl
@[simp] theorem Bus.setAck_draws (x : Bus) (l : Bool) : (x.setAck l).draws = x.draws := rfl
@[simp] theorem Bus.setAck_lines (x : Bus) (l : Bool) : (x.setAck l).lines = .ack l :: x.lines := rfl
@[simp] theorem Bus.setAck_wire (x : Bus) (l : Bool) : (x.setAck l).wire = x.wire := rfl

@[simp] theorem Bus.pulse_sDir (x : Bus) (n : Nat) : (x.pulse n).sDir = x.sDir := rfl
@[simp] theorem Bus.pulse_sStb (x : Bus) (n : Nat) : (x.pulse n).sStb = x.sStb := rfl
@[simp] theorem Bus.pulse_sAck (x : Bus) (n : Nat) : (x.pulse n).sAck = x.sAck := rfl
@[simp] theorem Bus.pulse_dOe (x : Bus) (n : Nat) : (x.pulse n).dOe = x.dOe := rfl
@[simp] theorem Bus.pulse_dOut (x : Bus) (n : Nat) : (x.pulse n).dOut = x.dOut := rfl
@[simp] theorem Bus.pulse_sIbf (x : Bus) (n : Nat) : (x.pulse n).sIbf = x.sIbf := rfl
@[simp] theorem Bus.pulse_sObf (x : Bus) (n : Nat) : (x.pulse n).sObf = x.sObf := rfl
@[simp] theorem Bus.pulse_dIn (x : Bus) (n : Nat) : (x.pulse n).dIn = x.dIn := rfl
@[simp] theorem Bus.pulse_clock (x : Bus) (n : Nat) : (x.pulse n).clock = x.clock := rfl
@[simp] theorem Bus.pulse_host (x : Bus) (n : Nat) : (x.pulse n).host = x.host := rfl
@[simp] theorem Bus.pulse_draws (x : Bus) (n : Nat) : (x.pulse n).draws = x.draws := rfl
@[simp] theorem Bus.pulse_lines (x : Bus) (n : Nat) : (x.pulse n).lines = .pulse n :: x.lines := rfl
@[simp] theorem Bus.pulse_wire (x : Bus) (n : Nat) : (x.pulse n).wire = x.wire := rfl

@[simp] theorem Bus.see_sDir (x : Bus) (p : Sample) : (x.see p).sDir = x.sDir := rfl
@[simp] theorem Bus.see_sStb (x : Bus) (p : Sample) : (x.see p).sStb = x.sStb := rfl
@[simp] theorem Bus.see_sAck (x : Bus) (p : Sample) : (x.see p).sAck = x.sAck := rfl
@[simp] theorem Bus.see_dOe (x : Bus) (p : Sample) : (x.see p).dOe = x.dOe := rfl
@[simp] theorem Bus.see_dOut (x : Bus) (p : Sample) : (x.see p).dOut = x.dOut := rfl
@[simp] theorem Bus.see_sIbf (x : Bus) (p : Sample) : (x.see p).sIbf = p.ibf := rfl
@[simp] theorem Bus.see_sObf (x : Bus) (p : Sample) : (x.see p).sObf = p.obf := rfl
@[simp] theorem Bus.see_dIn (x : Bus) (p : Sample) : (x.see p).dIn = p.din := rfl
@[simp] theorem Bus.see_clock (x : Bus) (p : Sample) : (x.see p).clock = x.clock := rfl
@[simp] theorem Bus.see_host (x : Bus) (p : Sample) : (x.see p).host = x.host := rfl
@[simp] theorem Bus.see_draws (x : Bus) (p : Sample) : (x.see p).draws = x.draws := rfl
@[simp] theorem Bus.see_lines (x : Bus) (p : Sample) : (x.see p).lines = x.lines := rfl
@[simp] theorem Bus.see_wire (x : Bus) (p : Sample) : (x.see p).wire = x.wire := rfl

@[simp] theorem Bus.note_sDir (x : Bus) (e : WireEvent) : (x.note e).sDir = x.sDir := rfl
@[simp] theorem Bus.note_sStb (x : Bus) (e : WireEvent) : (x.note e).sStb = x.sStb := rfl
@[simp] theorem Bus.note_sAck (x : Bus) (e : WireEvent) : (x.note e).sAck = x.sAck := rfl
@[simp] theorem Bus.note_dOe (x : Bus) (e : WireEvent) : (x.note e).dOe = x.dOe := rfl
@[simp] theorem Bus.note_dOut (x : Bus) (e : WireEvent) : (x.note e).dOut = x.dOut := rfl
@[simp] theorem Bus.note_sIbf (x : Bus) (e : WireEvent) : (x.note e).sIbf = x.sIbf := rfl
@[simp] theorem Bus.note_sObf (x : Bus) (e : WireEvent) : (x.note e).sObf = x.sObf := rfl
@[simp] theorem Bus.note_dIn (x : Bus) (e : WireEvent) : (x.note e).dIn = x.dIn := rfl
@[simp] theorem Bus.note_clock (x : Bus) (e : WireEvent) : (x.note e).clock = x.clock := rfl
@[simp] theorem Bus.note_host (x : Bus) (e : WireEvent) : (x.note e).host = x.host := rfl
@[simp] theorem Bus.note_draws (x : Bus) (e : WireEvent) : (x.note e).draws = x.draws := rfl
@[simp] theorem Bus.note_lines (x : Bus) (e : WireEvent) : (x.note e).lines = x.lines := rfl
@[simp] theorem Bus.note_wire (x : Bus) (e : WireEvent) : (x.note e).wire = e :: x.wire := rfl

/-! ## The collaborators -/

@[simp] theorem Coll.ask_slots (x : Coll) (r : Request) : (x.ask r).slots = x.slots := rfl
@[simp] theorem Coll.ask_files (x : Coll) (r : Request) : (x.ask r).files = x.files := rfl
@[simp] theorem Coll.ask_dirs (x : Coll) (r : Request) : (x.ask r).dirs = x.dirs := rfl
@[simp] theorem Coll.ask_nextHandle (x : Coll) (r : Request) : (x.ask r).nextHandle = x.nextHandle := rfl
@[simp] theorem Coll.ask_stores (x : Coll) (r : Request) : (x.ask r).stores = x.stores := rfl
@[simp] theorem Coll.ask_mounts (x : Coll) (r : Request) : (x.ask r).mounts = x.mounts := rfl
@[simp] theorem Coll.ask_opens (x : Coll) (r : Request) : (x.ask r).opens = x.opens := rfl
@[simp] theorem Coll.ask_probes (x : Coll) (r : Request) : (x.ask r).probes = x.probes := rfl
@[simp] theorem Coll.ask_creates (x : Coll) (r : Request) : (x.ask r).creates = x.creates := rfl
@[simp] theorem Coll.ask_draws (x : Coll) (r : Request) : (x.ask r).draws = x.draws := rfl
@[simp] theorem Coll.ask_requests (x : Coll) (r : Request) : (x.ask r).requests = r :: x.requests := rfl

@[simp] theorem Coll.setSlot_slots (x : Coll) (d : Fin 4) (y : Slot) : (x.setSlot d y).slots = x.slots.set d.val y d.isLt := rfl
@[simp] theorem Coll.setSlot_files (x : Coll) (d : Fin 4) (y : Slot) : (x.setSlot d y).files = x.files := rfl
@[simp] theorem Coll.setSlot_dirs (x : Coll) (d : Fin 4) (y : Slot) : (x.setSlot d y).dirs = x.dirs := rfl
@[simp] theorem Coll.setSlot_nextHandle (x : Coll) (d : Fin 4) (y : Slot) : (x.setSlot d y).nextHandle = x.nextHandle := rfl
@[simp] theorem Coll.setSlot_stores (x : Coll) (d : Fin 4) (y : Slot) : (x.setSlot d y).stores = x.stores := rfl
@[simp] theorem Coll.setSlot_mounts (x : Coll) (d : Fin 4) (y : Slot) : (x.setSlot d y).mounts = x.mounts := rfl
@[simp] theorem Coll.setSlot_opens (x : Coll) (d : Fin 4) (y : Slot) : (x.setSlot d y).opens = x.opens := rfl
@[simp] theorem Coll.setSlot_probes (x : Coll) (d : Fin 4) (y : Slot) : (x.setSlot d y).probes = x.probes := rfl
@[simp] theorem Coll.setSlot_creates (x : Coll) (d : Fin 4) (y : Slot) : (x.setSlot d y).creates = x.creates := rfl
@[simp] theorem Coll.setSlot_draws (x : Coll) (d : Fin 4) (y : Slot) : (x.setSlot d y).draws = x.draws := rfl
@[simp] theorem Coll.setSlot_requests (x : Coll) (d : Fin 4) (y : Slot) : (x.setSlot d y).requests = x.requests := rfl

/-! ## The whole state -/

@[simp] theorem State.setBuf_cfg (x : State) (i : Nat) (b : Byte) : (x.setBuf i b).cfg = x.cfg := rfl
@[simp] theorem State.setBuf_link (x : State) (i : Nat) (b : Byte) : (x.setBuf i b).link = x.link := rfl
@[simp] theorem State.setBuf_crc (x : State) (i : Nat) (b : Byte) : (x.setBuf i b).crc = x.crc := rfl
@[simp] theorem State.setBuf_buf (x : State) (i : Nat) (b : Byte) : (x.setBuf i b).buf = x.buf.setIfInBounds i b := rfl
@[simp] theorem State.setBuf_cwd (x : State) (i : Nat) (b : Byte) : (x.setBuf i b).cwd = x.cwd := rfl
@[simp] theorem State.setBuf_dircur (x : State) (i : Nat) (b : Byte) : (x.setBuf i b).dircur = x.dircur := rfl
@[simp] theorem State.setBuf_phase (x : State) (i : Nat) (b : Byte) : (x.setBuf i b).phase = x.phase := rfl
@[simp] theorem State.setBuf_latch (x : State) (i : Nat) (b : Byte) : (x.setBuf i b).latch = x.latch := rfl
@[simp] theorem State.setBuf_bus (x : State) (i : Nat) (b : Byte) : (x.setBuf i b).bus = x.bus := rfl
@[simp] theorem State.setBuf_coll (x : State) (i : Nat) (b : Byte) : (x.setBuf i b).coll = x.coll := rfl
@[simp] theorem State.setBuf_between (x : State) (i : Nat) (b : Byte) : (x.setBuf i b).between = x.between := rfl
@[simp] theorem State.setBuf_pollResult (x : State) (i : Nat) (b : Byte) : (x.setBuf i b).pollResult = x.pollResult := rfl
@[simp] theorem State.setBuf_lastEnd (x : State) (i : Nat) (b : Byte) : (x.setBuf i b).lastEnd = x.lastEnd := rfl
@[simp] theorem State.setBuf_draws (x : State) (i : Nat) (b : Byte) : (x.setBuf i b).draws = x.draws := rfl

@[simp] theorem State.setResult_cfg (x : State) (r : Byte) : (x.setResult r).cfg = x.cfg := rfl
@[simp] theorem State.setResult_link (x : State) (r : Byte) : (x.setResult r).link = x.link := rfl
@[simp] theorem State.setResult_crc (x : State) (r : Byte) : (x.setResult r).crc = x.crc := rfl
@[simp] theorem State.setResult_buf (x : State) (r : Byte) : (x.setResult r).buf = x.buf := rfl
@[simp] theorem State.setResult_cwd (x : State) (r : Byte) : (x.setResult r).cwd = x.cwd := rfl
@[simp] theorem State.setResult_dircur (x : State) (r : Byte) : (x.setResult r).dircur = x.dircur := rfl
@[simp] theorem State.setResult_phase (x : State) (r : Byte) : (x.setResult r).phase = x.phase := rfl
@[simp] theorem State.setResult_latch (x : State) (r : Byte) : (x.setResult r).latch = { x.latch with result := r } := rfl
@[simp] theorem State.setResult_bus (x : State) (r : Byte) : (x.setResult r).bus = x.bus := rfl
@[simp] theorem State.setResult_coll (x : State) (r : Byte) : (x.setResult r).coll = x.coll := rfl
@[simp] theorem State.setResult_between (x : State) (r : Byte) : (x.setResult r).between = x.between := rfl
@[simp] theorem State.setResult_pollResult (x : State) (r : Byte) : (x.setResult r).pollResult = x.pollResult := rfl
@[simp] theorem State.setResult_lastEnd (x : State) (r : Byte) : (x.setResult r).lastEnd = x.lastEnd := rfl
@[simp] theorem State.setResult_draws (x : State) (r : Byte) : (x.setResult r).draws = x.draws := rfl

@[simp] theorem State.setKind_cfg (x : State) (f : KindFlags) (b : Bool) (n : Nat) : (x.setKind f b n).cfg = x.cfg := rfl
@[simp] theorem State.setKind_link (x : State) (f : KindFlags) (b : Bool) (n : Nat) : (x.setKind f b n).link = x.link := rfl
@[simp] theorem State.setKind_crc (x : State) (f : KindFlags) (b : Bool) (n : Nat) : (x.setKind f b n).crc = x.crc := rfl
@[simp] theorem State.setKind_buf (x : State) (f : KindFlags) (b : Bool) (n : Nat) : (x.setKind f b n).buf = x.buf := rfl
@[simp] theorem State.setKind_cwd (x : State) (f : KindFlags) (b : Bool) (n : Nat) : (x.setKind f b n).cwd = x.cwd := rfl
@[simp] theorem State.setKind_dircur (x : State) (f : KindFlags) (b : Bool) (n : Nat) : (x.setKind f b n).dircur = x.dircur := rfl
@[simp] theorem State.setKind_phase (x : State) (f : KindFlags) (b : Bool) (n : Nat) : (x.setKind f b n).phase = x.phase := rfl
@[simp] theorem State.setKind_latch (x : State) (f : KindFlags) (b : Bool) (n : Nat) : (x.setKind f b n).latch = { x.latch with kind := f, boot := b, count := n } := rfl
@[simp] theorem State.setKind_bus (x : State) (f : KindFlags) (b : Bool) (n : Nat) : (x.setKind f b n).bus = x.bus := rfl
@[simp] theorem State.setKind_coll (x : State) (f : KindFlags) (b : Bool) (n : Nat) : (x.setKind f b n).coll = x.coll := rfl
@[simp] theorem State.setKind_between (x : State) (f : KindFlags) (b : Bool) (n : Nat) : (x.setKind f b n).between = x.between := rfl
@[simp] theorem State.setKind_pollResult (x : State) (f : KindFlags) (b : Bool) (n : Nat) : (x.setKind f b n).pollResult = x.pollResult := rfl
@[simp] theorem State.setKind_lastEnd (x : State) (f : KindFlags) (b : Bool) (n : Nat) : (x.setKind f b n).lastEnd = x.lastEnd := rfl
@[simp] theorem State.setKind_draws (x : State) (f : KindFlags) (b : Bool) (n : Nat) : (x.setKind f b n).draws = x.draws := rfl

@[simp] theorem State.dispatch_cfg (x : State) (i : Instr) : (x.dispatch i).cfg = x.cfg := rfl
@[simp] theorem State.dispatch_link (x : State) (i : Instr) : (x.dispatch i).link = x.link := rfl
@[simp] theorem State.dispatch_crc (x : State) (i : Instr) : (x.dispatch i).crc = opcodeOf x.cfg i := rfl
@[simp] theorem State.dispatch_buf (x : State) (i : Instr) : (x.dispatch i).buf = x.buf := rfl
@[simp] theorem State.dispatch_cwd (x : State) (i : Instr) : (x.dispatch i).cwd = x.cwd := rfl
@[simp] theorem State.dispatch_dircur (x : State) (i : Instr) : (x.dispatch i).dircur = x.dircur := rfl
@[simp] theorem State.dispatch_phase (x : State) (i : Instr) : (x.dispatch i).phase = .handler i := rfl
@[simp] theorem State.dispatch_latch (x : State) (i : Instr) : (x.dispatch i).latch = { x.latch with op := opcodeOf x.cfg i } := rfl
@[simp] theorem State.dispatch_bus (x : State) (i : Instr) : (x.dispatch i).bus = x.bus := rfl
@[simp] theorem State.dispatch_coll (x : State) (i : Instr) : (x.dispatch i).coll = x.coll := rfl
@[simp] theorem State.dispatch_between (x : State) (i : Instr) : (x.dispatch i).between = x.between := rfl
@[simp] theorem State.dispatch_pollResult (x : State) (i : Instr) : (x.dispatch i).pollResult = x.pollResult := rfl
@[simp] theorem State.dispatch_lastEnd (x : State) (i : Instr) : (x.dispatch i).lastEnd = x.lastEnd := rfl
@[simp] theorem State.dispatch_draws (x : State) (i : Instr) : (x.dispatch i).draws = x.draws := rfl

@[simp] theorem State.endPoll_cfg (x : State) (r : Bool) (e : Option Cause) : (x.endPoll r e).cfg = x.cfg := rfl
@[simp] theorem State.endPoll_link (x : State) (r : Bool) (e : Option Cause) : (x.endPoll r e).link = x.link := rfl
@[simp] theorem State.endPoll_crc (x : State) (r : Bool) (e : Option Cause) : (x.endPoll r e).crc = Config.freeCrc x.draws := rfl
@[simp] theorem State.endPoll_buf (x : State) (r : Bool) (e : Option Cause) : (x.endPoll r e).buf = Config.freeBuf x.draws := rfl
@[simp] theorem State.endPoll_cwd (x : State) (r : Bool) (e : Option Cause) : (x.endPoll r e).cwd = x.cwd := rfl
@[simp] theorem State.endPoll_dircur (x : State) (r : Bool) (e : Option Cause) : (x.endPoll r e).dircur = x.dircur := rfl
@[simp] theorem State.endPoll_phase (x : State) (r : Bool) (e : Option Cause) : (x.endPoll r e).phase = .idle := rfl
@[simp] theorem State.endPoll_latch (x : State) (r : Bool) (e : Option Cause) : (x.endPoll r e).latch = Config.freeLatches x.draws := rfl
@[simp] theorem State.endPoll_bus (x : State) (r : Bool) (e : Option Cause) : (x.endPoll r e).bus = { x.bus with dOut := Config.freeDOut x.draws } := rfl
@[simp] theorem State.endPoll_coll (x : State) (r : Bool) (e : Option Cause) : (x.endPoll r e).coll = x.coll := rfl
@[simp] theorem State.endPoll_between (x : State) (r : Bool) (e : Option Cause) : (x.endPoll r e).between = x.between := rfl
@[simp] theorem State.endPoll_pollResult (x : State) (r : Bool) (e : Option Cause) : (x.endPoll r e).pollResult = r := rfl
@[simp] theorem State.endPoll_lastEnd (x : State) (r : Bool) (e : Option Cause) : (x.endPoll r e).lastEnd = e := rfl
@[simp] theorem State.endPoll_draws (x : State) (r : Bool) (e : Option Cause) : (x.endPoll r e).draws = x.draws + 1 := rfl

@[simp] theorem State.takeAbort_eq (x : State) (c : Cause) : x.takeAbort c = x.endPoll true (some c) := rfl
@[simp] theorem State.handlerReturn_eq (x : State) : x.handlerReturn = x.endPoll true none := rfl

/-! ## Slots -/

@[simp] theorem Coll.slot_ask (x : Coll) (r : Request) (d : Fin 4) : (x.ask r).slot d = x.slot d := rfl

@[simp] theorem Coll.slot_setSlot_same (x : Coll) (d : Fin 4) (y : Slot) : (x.setSlot d y).slot d = y := by
  simp [Coll.slot, Coll.setSlot, Vector.get_eq_getElem]

theorem Coll.slot_setSlot_other (x : Coll) {d e : Fin 4} (y : Slot) (h : e ≠ d) :
    (x.setSlot d y).slot e = x.slot e := by
  have h' : d.val ≠ e.val := fun h'' => h (Fin.ext h''.symm)
  simp [Coll.slot, Coll.setSlot, Vector.get_eq_getElem, h']

/-- Two slot tables with the same records are the same table. -/
theorem Coll.slots_ext {x y : Coll} (h : ∀ d, x.slot d = y.slot d) : x.slots = y.slots := by
  apply Vector.ext
  intro i hi
  exact h ⟨i, hi⟩

/-! ## Progress -/

@[simp] theorem Progress.bind_done {α β : Type} (a : α) (s : State) (f : α → State → Progress β) :
    (Progress.done a s).bind f = f a s := rfl

@[simp] theorem Progress.bind_abort {α β : Type} (c : Cause) (s : State) (f : α → State → Progress β) :
    (Progress.abort c s).bind f = .abort c s := rfl

theorem Progress.bind_assoc {α β γ : Type} (p : Progress α) (f : α → State → Progress β)
    (g : β → State → Progress γ) : (p.bind f).bind g = p.bind fun a s => (f a s).bind g := by
  cases p <;> rfl

@[simp] theorem Progress.leave_done (s : State) : (Progress.done () s).leave = s.endPoll true none := rfl

@[simp] theorem Progress.leave_abort (c : Cause) (s : State) :
    (Progress.abort c s : Progress Unit).leave = s.endPoll true (some c) := rfl

end Sys2Proof.Machine
end

