-- ==== Sys2Proof/Laws/Memory.lean ====
section
/-! SUPPORT. The laws of images: a byte read after a store, bytes a store leaves alone, and that every memory
operation keeps the canonical form. -/

namespace Sys2Proof.Machine

theorem Memory.read_append (m n : Memory) (a : Nat) (h : ∀ c ∈ m, c.1 ≠ a) : Memory.read (m ++ n) a = Memory.read n a := by
  induction m with
  | nil => rfl
  | cons c m ih =>
    simp only [List.cons_append, Memory.read]
    rw [if_neg (h c (by simp)), ih fun c hc => h c (by simp [hc])]

theorem Memory.read_append_right (m n : Memory) (a : Nat) (h : ∀ c ∈ n, c.1 ≠ a) : Memory.read (m ++ n) a = Memory.read m a := by
  induction m with
  | nil =>
    simp only [List.nil_append]
    induction n with
    | nil => rfl
    | cons c n ih =>
      simp only [Memory.read]
      rw [if_neg (h c (by simp))]
      exact ih fun c hc => h c (by simp [hc])
  | cons c m ih => simp only [List.cons_append, Memory.read, ih]

theorem Memory.read_filter (m : Memory) (p : Host.Cell → Bool) (a : Nat) (h : ∀ c ∈ m, c.1 = a → p c = true) :
    Memory.read (m.filter p) a = Memory.read m a := by
  induction m with
  | nil => rfl
  | cons c m ih =>
    have ih := ih fun c hc => h c (by simp [hc])
    by_cases hp : p c = true
    · simp only [List.filter_cons_of_pos hp, Memory.read, ih]
    · have hc : c.1 ≠ a := fun he => hp (h c (by simp) he)
      simp only [List.filter_cons_of_neg hp, Memory.read, ih, if_neg hc]

theorem Memory.cellsOf_bounds : ∀ (bs : List Byte) (off : Nat), ∀ c ∈ Memory.cellsOf off bs,
    off ≤ c.1 ∧ c.1 < off + bs.length ∧ c.2 ≠ Memory.unlisted
  | [], off, c, h => by simp [Memory.cellsOf] at h
  | b :: bs, off, c, h => by
    simp only [Memory.cellsOf] at h
    split at h
    · have := Memory.cellsOf_bounds bs (off + 1) c h
      simp only [List.length_cons]
      exact ⟨by omega, by omega, this.2.2⟩
    · rename_i hb
      simp only [List.mem_cons] at h
      rcases h with rfl | h
      · exact ⟨Nat.le_refl _, by simp, hb⟩
      · have := Memory.cellsOf_bounds bs (off + 1) c h
        simp only [List.length_cons]
        exact ⟨by omega, by omega, this.2.2⟩

theorem Memory.cellsOf_sorted : ∀ (bs : List Byte) (off : Nat),
    (Memory.cellsOf off bs).Pairwise (fun x y => x.1 < y.1)
  | [], _ => by simp [Memory.cellsOf]
  | b :: bs, off => by
    simp only [Memory.cellsOf]
    split
    · exact Memory.cellsOf_sorted bs (off + 1)
    · refine List.Pairwise.cons (fun c hc => ?_) (Memory.cellsOf_sorted bs (off + 1))
      have := Memory.cellsOf_bounds bs (off + 1) c hc
      exact this.1

theorem Memory.read_cellsOf : ∀ (bs : List Byte) (off i : Nat) (h : i < bs.length),
    Memory.read (Memory.cellsOf off bs) (off + i) = bs[i]
  | b :: bs, off, 0, _ => by
    simp only [Memory.cellsOf]
    split
    · rename_i hb
      have hn : ∀ c ∈ Memory.cellsOf (off + 1) bs, c.1 ≠ off + 0 := fun c hc => by
        have := (Memory.cellsOf_bounds bs (off + 1) c hc).1
        omega
      have := Memory.read_append (Memory.cellsOf (off + 1) bs) [] (off + 0) hn
      rw [List.append_nil] at this
      rw [this]
      simp [Memory.read, hb]
    · simp [Memory.read]
  | b :: bs, off, i + 1, h => by
    have ih := Memory.read_cellsOf bs (off + 1) i (by simpa using h)
    have e : off + (i + 1) = off + 1 + i := by omega
    simp only [Memory.cellsOf]
    split
    · rw [e, ih]; simp
    · rw [Memory.read, if_neg (by simp), e, ih]; simp

/-- The byte read after a store of `bs` at `off`: inside the stored range the byte stored, outside the byte before. -/
theorem Memory.read_writeBytes (m : Memory) (off : Nat) (bs : List Byte) (a : Nat) :
    (m.writeBytes off bs).read a =
      if h : off ≤ a ∧ a < off + bs.length then bs[a - off]'(by omega) else m.read a := by
  unfold Memory.writeBytes
  have h1 : ∀ c ∈ m.filter (fun c => decide (c.1 < off)), c.1 < off := fun c hc => by
    simpa using (List.mem_filter.1 hc).2
  have h3 : ∀ c ∈ m.filter (fun c => decide (off + bs.length ≤ c.1)), off + bs.length ≤ c.1 := fun c hc => by
    simpa using (List.mem_filter.1 hc).2
  have h2 := Memory.cellsOf_bounds bs off
  by_cases ha : a < off
  · rw [dif_neg (by omega)]
    rw [Memory.read_append_right _ _ _ fun c hc => by have := h3 c hc; omega,
      Memory.read_append_right _ _ _ fun c hc => by have := (h2 c hc).1; omega]
    exact Memory.read_filter _ _ _ fun c _ he => by simpa [he] using ha
  · by_cases hb : a < off + bs.length
    · rw [dif_pos ⟨by omega, hb⟩]
      rw [Memory.read_append_right _ _ _ fun c hc => by have := h3 c hc; omega,
        Memory.read_append _ _ _ fun c hc => by have := h1 c hc; omega]
      have := Memory.read_cellsOf bs off (a - off) (by omega)
      rw [← this]
      congr 1
      omega
    · rw [dif_neg (by omega)]
      rw [List.append_assoc, Memory.read_append _ _ _ fun c hc => by have := h1 c hc; omega,
        Memory.read_append _ _ _ fun c hc => by have := (h2 c hc).2.1; omega]
      exact Memory.read_filter _ _ _ fun c _ he => by simp [he]; omega

/-- A store keeps the canonical form as long as it stays in the image. -/
theorem Memory.writeBytes_wf {m : Memory} (hm : m.wf) {off : Nat} {bs : List Byte}
    (h : bs = [] ∨ off + bs.length ≤ IMAGE_BYTES) : (m.writeBytes off bs).wf := by
  unfold Memory.writeBytes
  have h1 : ∀ c ∈ m.filter (fun c => decide (c.1 < off)), c ∈ m ∧ c.1 < off := fun c hc => by
    simpa using List.mem_filter.1 hc
  have h3 : ∀ c ∈ m.filter (fun c => decide (off + bs.length ≤ c.1)), c ∈ m ∧ off + bs.length ≤ c.1 := fun c hc => by
    simpa using List.mem_filter.1 hc
  have h2 := Memory.cellsOf_bounds bs off
  constructor
  · rw [List.pairwise_append, List.pairwise_append]
    refine ⟨⟨hm.1.filter _, Memory.cellsOf_sorted _ _, fun x hx y hy => ?_⟩, hm.1.filter _, fun x hx y hy => ?_⟩
    · have := (h1 x hx).2; have := (h2 y hy).1; omega
    · have hy := (h3 y hy).2
      rcases List.mem_append.1 hx with hx | hx
      · have := (h1 x hx).2; omega
      · have := (h2 x hx).2.1; omega
  · intro c hc
    rcases List.mem_append.1 hc with hc | hc
    · rcases List.mem_append.1 hc with hc | hc
      · exact hm.2 c (h1 c hc).1
      · have hb := h2 c hc
        rcases h with rfl | h
        · simp [Memory.cellsOf] at hc
        · exact ⟨by have := hb.2.1; omega, hb.2.2⟩
    · exact hm.2 c (h3 c hc).1

/-- A store cut at the end of the image keeps the canonical form. -/
theorem Memory.storeBytes_wf {m : Memory} (hm : m.wf) (off : Nat) (bs : List Byte) : (m.storeBytes off bs).wf := by
  apply Memory.writeBytes_wf hm
  by_cases h : off ≤ IMAGE_BYTES
  · right
    rw [List.length_take]
    omega
  · left
    rw [show IMAGE_BYTES - off = 0 by omega, List.take_zero]

/-- Inside the image, a store is the whole store. -/
theorem Memory.storeBytes_inside (m : Memory) {off : Nat} {bs : List Byte} (h : off + bs.length ≤ IMAGE_BYTES) :
    m.storeBytes off bs = m.writeBytes off bs := by
  unfold Memory.storeBytes
  rw [List.take_of_length_le (by omega)]

/-- A byte outside the range of a store is kept, wherever the range ends. -/
theorem Memory.read_storeBytes_outside (m : Memory) {off : Nat} {bs : List Byte} {a : Nat}
    (h : a < off ∨ off + bs.length ≤ a) : (m.storeBytes off bs).read a = m.read a := by
  unfold Memory.storeBytes
  rw [Memory.read_writeBytes, dif_neg]
  rw [List.length_take]
  omega

theorem Memory.nil_wf : Memory.wf [] := ⟨List.Pairwise.nil, fun _ h => by simp at h⟩

theorem Memory.canon_wf : ∀ cs : List Host.Cell, (Memory.canon cs).wf
  | [] => Memory.nil_wf
  | c :: cs => Memory.storeBytes_wf (Memory.canon_wf cs) c.1 [c.2]

/-! ## The collaborators keep canonical images -/

theorem Coll.Ok.setSlot {c : Coll} (h : c.Ok) (d : Fin 4) {x : Slot} (hx : x.image.wf)
    (hp : x.path.length ≤ DEV_PATH_CAP) : (c.setSlot d x).Ok := by
  refine ⟨fun e => ?_, h.2⟩
  by_cases he : e = d
  · subst he; simpa using ⟨hx, hp⟩
  · rw [Coll.slot_setSlot_other _ _ he]; exact h.1 e

theorem filePut_wf {fs : List (Path × Memory)} (h : ∀ f ∈ fs, Memory.wf f.2) (p : Path) {m : Memory} (hm : m.wf) :
    ∀ f ∈ filePut fs p m, Memory.wf f.2 := by
  intro f hf
  rcases List.mem_cons.1 hf with rfl | hf
  · exact hm
  · exact h f (List.mem_filter.1 hf).1

theorem fileLookup_wf : ∀ {fs : List (Path × Memory)}, (∀ f ∈ fs, Memory.wf f.2) → ∀ {p : Path} {m : Memory},
    fileLookup fs p = some m → m.wf
  | [], _, p, m, h => by simp [fileLookup] at h
  | f :: fs, hw, p, m, h => by
    simp only [fileLookup] at h
    split at h
    · simp only [Option.some.injEq] at h
      exact h ▸ hw f (by simp)
    · exact fileLookup_wf (fun g hg => hw g (by simp [hg])) h

/-- A file that got its bytes has them. -/
@[simp] theorem fileLookup_filePut_same (fs : List (Path × Memory)) (p : Path) (m : Memory) :
    fileLookup (filePut fs p m) p = some m := by simp [fileLookup, filePut]

/-- And no other file changed. -/
theorem fileLookup_filePut_other {p q : Path} (h : q ≠ p) (m : Memory) : ∀ fs : List (Path × Memory),
    fileLookup (filePut fs p m) q = fileLookup fs q := by
  have hf : ∀ fs : List (Path × Memory), fileLookup (fs.filter (fun f => f.1 ≠ p)) q = fileLookup fs q := by
    intro fs
    induction fs with
    | nil => rfl
    | cons f fs ih =>
      by_cases hp : f.1 = p
      · rw [List.filter_cons_of_neg (by simpa using hp), ih, fileLookup, if_neg (fun e => h (e.symm.trans hp))]
      · rw [List.filter_cons_of_pos (by simpa using hp), fileLookup, fileLookup, ih]
  intro fs
  rw [filePut, fileLookup, if_neg (fun e => h e.symm), hf]

theorem Coll.Ok.memRead {c : Coll} (h : c.Ok) (d : Fin 4) (off n : Nat) : (c.memRead d off n).2.Ok := h

theorem Coll.Ok.memWrite {c : Coll} (h : c.Ok) (d : Fin 4) (off : Nat) (v : List Byte) : (c.memWrite d off v).2.Ok :=
  Coll.Ok.setSlot (c := c.ask _) h d (Memory.storeBytes_wf (h.1 d).1 _ _) (h.1 d).2

theorem Coll.Ok.memFlush {c : Coll} (h : c.Ok) (d : Fin 4) : (c.memFlush d).Ok := by
  have h1 := Coll.Ok.setSlot (c := c.ask (.memFlush d)) h d (x := { c.slot d with unflushed := false })
    (h.1 d).1 (h.1 d).2
  unfold Coll.memFlush
  dsimp only
  split
  · exact ⟨h1.1, filePut_wf h.2 _ (h.1 d).1⟩
  · exact h1

theorem Coll.Ok.unmount {c : Coll} (h : c.Ok) (d : Fin 4) : (c.unmount d).Ok := by
  unfold Coll.unmount
  dsimp only
  split
  · have h1 := Coll.Ok.setSlot (c := c.ask (.unmount d)) h d (x := { c.slot d with isOpen := false })
      (h.1 d).1 (h.1 d).2
    exact ⟨h1.1, filePut_wf h.2 _ (h.1 d).1⟩
  · exact h

theorem Coll.mountImage_wf {c : Coll} (h : c.Ok) (p : Path) (cells : List Host.Cell) : (c.mountImage p cells).wf := by
  unfold Coll.mountImage
  split
  · rename_i m hm; exact fileLookup_wf h.2 hm
  · exact Memory.canon_wf cells

theorem Coll.Ok.mount {c : Coll} (h : c.Ok) (cfg : Config) (d : Fin 4) {p : Path} (hp : p.length ≤ DEV_PATH_CAP)
    (ro : Bool) : (c.mount cfg d p ro).2.Ok := by
  unfold Coll.mount
  dsimp only
  split
  · exact Coll.Ok.setSlot (c := { c.ask (.mount d p ro) with mounts := c.mounts.tail, draws := c.draws + 1 }) h d
      (Coll.mountImage_wf h p _) hp
  all_goals exact h

theorem Coll.Ok.createImage {c : Coll} (h : c.Ok) (p : Path) : (c.createImage p).2.Ok := by
  unfold Coll.createImage
  dsimp only
  split
  · exact ⟨h.1, filePut_wf h.2 _ Memory.nil_wf⟩
  · exact h

end Sys2Proof.Machine
end

