-- ==== Sys2Proof/Laws/Transport.lean ====
section
/-! SUPPORT. What the byte transport does, said once: waits, `Send`, `Recv` and the transfers built on them. Each
operation has a lemma for the host that keeps up (`…_served`), one for what it never touches (`…_keeps`), and the
outcomes it can have. -/

namespace Sys2Proof.Machine

/-! ## Waits -/

/-- A wait's end with the clock moved on by `t0`. -/
def WaitEnd.later (t0 : Nat) : WaitEnd → WaitEnd
  | .low x n r => .low x (t0 + n) r
  | .late x n r => .late x (t0 + n) r
  | .ended n => .ended (t0 + n)

/-- Only the time since the start of a wait counts. -/
theorem waitScript_later (l : Line) (t0 T : Nat) (h : List Sample) :
    ∀ d, waitScript l t0 T (t0 + d) h = (waitScript l 0 T d h).later t0 := by
  induction h with
  | nil => intro d; rfl
  | cons x xs ih =>
    intro d
    have e : (T ≤ t0 + (d + x.dt) - t0) = (T ≤ d + x.dt - 0) := by congr 1; omega
    simp only [waitScript, Nat.add_assoc, e, ih]
    split
    · rfl
    · split <;> rfl

/-- A wait never moves the clock back, and one that times out has waited its time. -/
theorem waitScript_clock (l : Line) (t0 T : Nat) (h : List Sample) :
    ∀ now, match waitScript l t0 T now h with
      | .low x n _ => Sample.at x l = false ∧ now ≤ n
      | .late x n _ => Sample.at x l = true ∧ now ≤ n ∧ T ≤ n - t0
      | .ended n => now ≤ n := by
  induction h with
  | nil => intro now; simp [waitScript]
  | cons x xs ih =>
    intro now
    simp only [waitScript]
    by_cases h1 : Sample.at x l = false
    · simp [h1]
    · by_cases h2 : T ≤ now + x.dt - t0
      · simp [h1, h2]
      · rw [if_neg h1, if_neg h2]
        have := ih (now + x.dt)
        split <;> rename_i heq <;> rw [heq] at this <;> simp only at this <;>
          refine (by first | exact ⟨this.1, by omega, this.2.2⟩ | exact ⟨this.1, by omega⟩ | omega)

/-- While the line is high and the timeout has not passed, a wait goes on. -/
theorem waitScript_goes_on (l : Line) (t0 T : Nat) (rest : List Sample) : ∀ (pre : List Sample) (d : Nat),
    (∀ y ∈ pre, Sample.at y l = true) → pre = [] ∨ d + (pre.map (·.dt)).sum < T →
    waitScript l t0 T (t0 + d) (pre ++ rest) = waitScript l t0 T (t0 + d + (pre.map (·.dt)).sum) rest
  | [], _, _, _ => rfl
  | y :: ys, d, h1, h2 => by
    have hs : d + (y.dt + (ys.map (·.dt)).sum) < T := by simpa using h2
    rw [List.cons_append, waitScript, if_neg (by rw [h1 y (by simp)]; simp), if_neg (by omega), Nat.add_assoc t0 d y.dt,
      waitScript_goes_on l t0 T rest ys (d + y.dt) (fun z hz => h1 z (by simp [hz])) (.inr (by omega))]
    congr 1
    simp; omega

/-- What a wait leaves alone, and that the clock does not go back. -/
theorem Bus.wait_keeps (l : Line) (T : Nat) (b : Bus) :
    (b.wait l T).2.sDir = b.sDir ∧ (b.wait l T).2.sStb = b.sStb ∧ (b.wait l T).2.sAck = b.sAck ∧
    (b.wait l T).2.dOe = b.dOe ∧ (b.wait l T).2.dOut = b.dOut ∧ (b.wait l T).2.wire = b.wire ∧
    b.clock ≤ (b.wait l T).2.clock := by
  have hc := waitScript_clock l b.clock T b.host b.clock
  unfold Bus.wait
  cases hw : waitScript l b.clock T b.clock b.host with
  | low x n r => rw [hw] at hc; simpa using hc.2
  | late x n r => rw [hw] at hc; simpa using hc.2.1
  | ended n =>
    rw [hw] at hc
    simp only at hc
    dsimp only
    split <;> simp <;> omega

/-- What the record of lines gains in a wait: the level of the deciding sample. -/
theorem Bus.wait_lines (l : Line) (T : Nat) (b : Bus) :
    (b.wait l T).2.lines = .sampled l (!(b.wait l T).1) :: b.lines := by
  unfold Bus.wait
  cases waitScript l b.clock T b.clock b.host with
  | low x n r => rfl
  | late x n r => rfl
  | ended n => dsimp only; split <;> rfl

/-- The input lines after a wait are those of the deciding sample. -/
theorem Bus.wait_sampled (l : Line) (T : Nat) (b : Bus) :
    (match l with | .ibf => (b.wait l T).2.sIbf | .obf => (b.wait l T).2.sObf) = !(b.wait l T).1 := by
  have hc := waitScript_clock l b.clock T b.host b.clock
  unfold Bus.wait
  cases hw : waitScript l b.clock T b.clock b.host with
  | low x n r => rw [hw] at hc; cases l <;> simpa [Sample.at] using hc.1
  | late x n r => rw [hw] at hc; cases l <;> simpa [Sample.at] using hc.1
  | ended n =>
    dsimp only
    by_cases h : Sample.at (Config.freeSample b.draws) l = false
    · rw [if_pos h]; cases l <;> simpa [Sample.at] using h
    · rw [if_neg h]; cases l <;> simpa [Sample.at] using h

/-- A wait that the host answers in time. -/
theorem Bus.wait_answered {l : Line} {T : Nat} {b : Bus} {x : Sample} {rest : List Sample}
    (h : answered l T b.host = some (x, rest)) :
    ∃ now, b.wait l T =
      (true, { b.see x with clock := now, host := rest, lines := .sampled l false :: b.lines }) := by
  unfold answered at h
  have hs := waitScript_later l b.clock T b.host 0
  rw [Nat.add_zero] at hs
  unfold Bus.wait
  rw [hs]
  cases hw : waitScript l 0 T 0 b.host with
  | low y n r =>
    rw [hw] at h
    simp only [Option.some.injEq, Prod.mk.injEq] at h
    obtain ⟨rfl, rfl⟩ := h
    exact ⟨_, rfl⟩
  | late y n r => rw [hw] at h; simp at h
  | ended n => rw [hw] at h; simp at h

/-- A wait on a line the host leaves high until the time is over. -/
theorem Bus.wait_missed {l : Line} {T : Nat} {b : Bus} (h : misses l T b.host) :
    ∃ x now rest, b.wait l T =
      (false, { b.see x with clock := now, host := rest, lines := .sampled l true :: b.lines }) := by
  obtain ⟨x, n, rest, hw⟩ := h
  have hs := waitScript_later l b.clock T b.host 0
  rw [Nat.add_zero, hw] at hs
  refine ⟨x, b.clock + n, rest, ?_⟩
  unfold Bus.wait
  rw [hs]
  rfl

/-! ## Send -/

/-- The lines of one `Send`, newest first (R121): direction out, data, the strobe pulse, the deciding sample, data
released, direction in. -/
def sendLines (c : Config) (v : Byte) (ok : Bool) : List LineEvent :=
  [.dir c.dirIn, .hiZ, .ibf (!ok), .stb true, .pulse c.tPulse, .stb false, .drive v, .dir c.dirOut]

/-- Everything `Send` does to the bus apart from waiting. -/
theorem Bus.send_keeps (c : Config) (v : Byte) (T : Nat) (b : Bus) :
    (b.send c v T).2.sDir = c.dirIn ∧ (b.send c v T).2.sStb = true ∧ (b.send c v T).2.sAck = b.sAck ∧
    (b.send c v T).2.dOe = false ∧ (b.send c v T).2.wire = .tx v (b.send c v T).1 :: b.wire ∧
    (b.send c v T).2.lines = sendLines c v (b.send c v T).1 ++ b.lines ∧
    b.clock ≤ (b.send c v T).2.clock := by
  have hk := Bus.wait_keeps .ibf T ((((b.setDir c.dirOut).drive v).setStb false).pulse c.tPulse |>.setStb true)
  have hl := Bus.wait_lines .ibf T ((((b.setDir c.dirOut).drive v).setStb false).pulse c.tPulse |>.setStb true)
  simp at hk hl
  simp [Bus.send, sendLines, hk, hl, LineEvent.sampled]

/-- `Send` leaves the output lines at their defaults. -/
theorem Bus.send_atDefault {c : Config} {b : Bus} (h : b.AtDefault c) (v : Byte) (T : Nat) :
    (b.send c v T).2.AtDefault c := by
  have hk := Bus.send_keeps c v T b
  exact ⟨hk.1, hk.2.1, hk.2.2.1.trans h.2.2.1, hk.2.2.2.1⟩

/-- A `Send` that the host takes in time. -/
theorem Bus.send_answered {c : Config} {v : Byte} {T : Nat} {b : Bus} {x : Sample} {rest : List Sample}
    (h : answered .ibf T b.host = some (x, rest)) :
    (b.send c v T).1 = true ∧ (b.send c v T).2.host = rest ∧ (b.send c v T).2.draws = b.draws := by
  obtain ⟨now, hw⟩ := Bus.wait_answered
    (b := (((b.setDir c.dirOut).drive v).setStb false).pulse c.tPulse |>.setStb true) h
  simp [Bus.send, hw]

/-- A `Send` that the host does not take. -/
theorem Bus.send_missed {c : Config} {v : Byte} {T : Nat} {b : Bus} (h : misses .ibf T b.host) :
    (b.send c v T).1 = false := by
  obtain ⟨x, now, rest, hw⟩ := Bus.wait_missed
    (b := (((b.setDir c.dirOut).drive v).setStb false).pulse c.tPulse |>.setStb true) h
  simp [Bus.send, hw]

/-! ## Latching a byte -/

/-- Everything the latch does to the bus apart from waiting. -/
theorem Bus.latch_keeps (c : Config) (T : Nat) (b : Bus) :
    (b.latch c T).2.sDir = b.sDir ∧ (b.latch c T).2.sStb = b.sStb ∧
    (b.sAck = c.ackOff → (b.latch c T).2.sAck = c.ackOff) ∧
    (b.latch c T).2.dOe = b.dOe ∧ (b.latch c T).2.dOut = b.dOut ∧
    (b.latch c T).2.wire = (match (b.latch c T).1 with | some v => .rx v | none => .rxTimeout) :: b.wire ∧
    b.clock ≤ (b.latch c T).2.clock := by
  have hk := Bus.wait_keeps .obf T b
  unfold Bus.latch
  by_cases h : (b.wait .obf T).1 = true
  · simp [h, hk]
  · simp [h, hk]

theorem Bus.latch_atDefault {c : Config} {b : Bus} (h : b.AtDefault c) (T : Nat) :
    (b.latch c T).2.AtDefault c := by
  have hk := Bus.latch_keeps c T b
  exact ⟨hk.1.trans h.1, hk.2.1.trans h.2.1, hk.2.2.1 h.2.2.1, hk.2.2.2.1.trans h.2.2.2⟩

/-- A byte that the host offers in time. -/
theorem Bus.latch_answered {c : Config} {T : Nat} {b : Bus} {x : Sample} {rest : List Sample}
    (h : answered .obf T b.host = some (x, rest)) :
    (b.latch c T).1 = some x.din ∧ (b.latch c T).2.host = rest ∧ (b.latch c T).2.draws = b.draws := by
  obtain ⟨now, hw⟩ := Bus.wait_answered h
  simp [Bus.latch, hw]

/-- A byte that the host does not offer. -/
theorem Bus.latch_missed {c : Config} {T : Nat} {b : Bus} (h : misses .obf T b.host) : (b.latch c T).1 = none := by
  obtain ⟨x, now, rest, hw⟩ := Bus.wait_missed h
  simp [Bus.latch, hw]

/-! ## What no transfer touches -/

/-- `t` differs from `s` in the bus, `crc`, `buf` and the latches at most; the output lines stay at their defaults and
the clock does not go back. -/
structure Transferred (s t : State) : Prop where
  cfg : t.cfg = s.cfg
  link : t.link = s.link
  cwd : t.cwd = s.cwd
  dircur : t.dircur = s.dircur
  phase : t.phase = s.phase
  coll : t.coll = s.coll
  between : t.between = s.between
  pollResult : t.pollResult = s.pollResult
  lastEnd : t.lastEnd = s.lastEnd
  draws : t.draws = s.draws
  lines : s.bus.AtDefault s.cfg → t.bus.AtDefault s.cfg
  clock : s.bus.clock ≤ t.bus.clock

theorem Transferred.refl (s : State) : Transferred s s :=
  ⟨rfl, rfl, rfl, rfl, rfl, rfl, rfl, rfl, rfl, rfl, id, Nat.le_refl _⟩

theorem Transferred.trans {s t u : State} (h : Transferred s t) (k : Transferred t u) : Transferred s u where
  cfg := k.cfg.trans h.cfg
  link := k.link.trans h.link
  cwd := k.cwd.trans h.cwd
  dircur := k.dircur.trans h.dircur
  phase := k.phase.trans h.phase
  coll := k.coll.trans h.coll
  between := k.between.trans h.between
  pollResult := k.pollResult.trans h.pollResult
  lastEnd := k.lastEnd.trans h.lastEnd
  draws := k.draws.trans h.draws
  lines := fun hd => h.cfg ▸ k.lines (h.cfg.symm ▸ h.lines hd)
  clock := Nat.le_trans h.clock k.clock

/-- The state of a handler's progress, whether it went on or aborted. -/
def Progress.at {α : Type} : Progress α → State
  | .done _ s => s
  | .abort _ s => s

@[simp] theorem Progress.at_done {α : Type} (a : α) (s : State) : (Progress.done a s).at = s := rfl
@[simp] theorem Progress.at_abort {α : Type} (c : Cause) (s : State) : (Progress.abort c s : Progress α).at = s := rfl

/-- Sequencing keeps what both parts keep. -/
theorem Transferred.bind {α β : Type} {s : State} {p : Progress α} {f : α → State → Progress β}
    (hp : Transferred s p.at) (hf : ∀ a t, Transferred t (f a t).at) : Transferred s (p.bind f).at := by
  cases p with
  | done a t => exact hp.trans (hf a t)
  | abort c t => exact hp

theorem State.send_keeps (s : State) (v : Byte) (T : Nat) : Transferred s (s.send v T).2 := by
  have hk := Bus.send_keeps s.cfg v T s.bus
  exact ⟨rfl, rfl, rfl, rfl, rfl, rfl, rfl, rfl, rfl, rfl, fun h => Bus.send_atDefault h v T, hk.2.2.2.2.2.2⟩

/-- Beside the bus, `Send` changes nothing at all (R122, R123). -/
theorem State.send_eq (s : State) (v : Byte) (T : Nat) :
    (s.send v T).2 = { s with bus := (s.bus.send s.cfg v T).2 } := rfl

theorem State.recv_keeps (s : State) (T : Nat) (chk : Bool) : Transferred s (s.recv T chk).2 := by
  have hk := (Bus.latch_keeps s.cfg T s.bus).2.2.2.2.2.2
  have hd := fun h => Bus.latch_atDefault (c := s.cfg) (b := s.bus) h T
  unfold State.recv
  rcases hl : s.bus.latch s.cfg T with ⟨v, b⟩
  rw [hl] at hk hd
  simp only at hk hd
  have base : ∀ crc, Transferred s { s with bus := b, crc := crc } := fun crc =>
    ⟨rfl, rfl, rfl, rfl, rfl, rfl, rfl, rfl, rfl, rfl, hd, hk⟩
  cases v with
  | none =>
    cases chk
    · exact base s.crc
    · exact (base s.crc).trans (State.send_keeps _ _ _)
  | some v =>
    cases chk
    · exact base _
    · dsimp only
      split
      · split
        · exact (base _).trans (State.send_keeps _ _ _)
        · exact (base _).trans (State.send_keeps _ _ _)
      · exact base _

theorem recvArg_keeps (s : State) : Transferred s (recvArg s).at := by
  have hk := State.recv_keeps s s.cfg.tXfer false
  unfold recvArg
  rcases hr : s.recv s.cfg.tXfer false with ⟨r, t⟩
  rw [hr] at hk
  cases r <;> exact hk

theorem closeOut_keeps (s : State) : Transferred s (closeOut s).at := by
  have hk := State.recv_keeps s s.cfg.tXfer true
  unfold closeOut
  rcases hr : s.recv s.cfg.tXfer true with ⟨r, t⟩
  rw [hr] at hk
  cases r <;> exact hk

theorem sendByte_keeps (v : Byte) (s : State) : Transferred s (sendByte v s).at := by
  have hk := State.send_keeps s v s.cfg.tXfer
  unfold sendByte
  rcases hr : s.send v s.cfg.tXfer with ⟨r, t⟩
  rw [hr] at hk
  cases r <;> exact hk

/-- A change of `crc`, `buf` or the latches alone. -/
theorem Transferred.local (s : State) (crc : Byte) (buf : Vector Byte 512) (latch : Latches) :
    Transferred s { s with crc := crc, buf := buf, latch := latch } :=
  ⟨rfl, rfl, rfl, rfl, rfl, rfl, rfl, rfl, rfl, rfl, id, Nat.le_refl _⟩

theorem recvBuf_keeps : ∀ (n i : Nat) (s : State), Transferred s (recvBuf n i s).at
  | 0, _, s => Transferred.refl s
  | n + 1, i, s => Transferred.bind (recvArg_keeps s) fun b t =>
      (Transferred.local t t.crc (t.buf.setIfInBounds i b) t.latch).trans (recvBuf_keeps n (i + 1) _)

theorem recvSkip_keeps : ∀ (n : Nat) (s : State), Transferred s (recvSkip n s).at
  | 0, s => Transferred.refl s
  | n + 1, s => Transferred.bind (recvArg_keeps s) fun _ t => recvSkip_keeps n t

theorem recvStr_keeps (n : Nat) (s : State) : Transferred s (recvStr n s).at :=
  Transferred.bind (recvBuf_keeps n 0 s) fun _ t => Transferred.refl t

theorem sendResult_keeps (r : Byte) (s : State) : Transferred s (sendResult r s).at :=
  (Transferred.local s s.crc s.buf _).trans (sendByte_keeps r _)

theorem sendZeros_keeps : ∀ (n : Nat) (s : State), Transferred s (sendZeros n s).at
  | 0, s => Transferred.refl s
  | n + 1, s => Transferred.bind (sendByte_keeps 0 s) fun _ t => sendZeros_keeps n t

theorem sendStream_keeps : ∀ (vs : List Byte) (s : State), Transferred s (sendStream vs s).at
  | [], s => Transferred.refl s
  | v :: vs, s => Transferred.bind (sendByte_keeps v s) fun _ t =>
      (Transferred.local t (crcFold t.crc v) t.buf t.latch).trans (sendStream_keeps vs _)

theorem sendPayload_keeps (n : Nat) (s : State) : Transferred s (sendPayload n s).at :=
  (Transferred.local s 0 s.buf s.latch).trans
    (Transferred.bind (sendStream_keeps _ _) fun _ t => sendByte_keeps t.crc t)

theorem sendFramed_keeps (bs : List Byte) (s : State) : Transferred s (sendFramed bs s).at :=
  (Transferred.local s s.crc (bufWrite s.buf 0 bs) s.latch).trans (sendPayload_keeps _ _)

/-! ## Transfers with a host that keeps up -/

theorem recv_served {s : State} {T : Nat} {x : Sample} {rest : List Sample}
    (h : answered .obf T s.bus.host = some (x, rest)) :
    ∃ b', s.recv T false = (.ok x.din, { s with bus := b', crc := crcFold s.crc x.din }) ∧
      b'.host = rest ∧ b'.wire = .rx x.din :: s.bus.wire ∧ b'.draws = s.bus.draws := by
  have ha := Bus.latch_answered (c := s.cfg) h
  have hw := (Bus.latch_keeps s.cfg T s.bus).2.2.2.2.2.1
  unfold State.recv
  rcases hl : s.bus.latch s.cfg T with ⟨v, b⟩
  rw [hl] at ha hw
  obtain ⟨rfl, hh, hd⟩ := ha
  exact ⟨b, rfl, hh, hw, hd⟩

theorem recvArg_served {s : State} {b : Byte} {bs : List Byte} {h : List Sample}
    (ho : offers s.cfg.tXfer (b :: bs) s.bus.host = some h) :
    ∃ b', recvArg s = .done b { s with bus := b', crc := crcFold s.crc b } ∧
      offers s.cfg.tXfer bs b'.host = some h ∧ b'.wire = .rx b :: s.bus.wire ∧ b'.draws = s.bus.draws := by
  unfold offers at ho
  split at ho
  · rename_i x rest ha
    split at ho
    · rename_i hx
      subst hx
      obtain ⟨b', he, hh, hw, hd⟩ := recv_served ha
      exact ⟨b', by unfold recvArg; rw [he], hh ▸ ho, hw, hd⟩
    · simp at ho
  · simp at ho

theorem recvBuf_served : ∀ (bs cs : List Byte) (i : Nat) (s : State) {h : List Sample},
    offers s.cfg.tXfer (bs ++ cs) s.bus.host = some h →
    ∃ b', recvBuf bs.length i s =
        .done () { s with bus := b', crc := crcFoldAll s.crc bs, buf := bufWrite s.buf i bs } ∧
      offers s.cfg.tXfer cs b'.host = some h ∧ b'.wire = (bs.map WireEvent.rx).reverse ++ s.bus.wire ∧
      b'.draws = s.bus.draws
  | [], cs, i, s, h, ho => ⟨s.bus, rfl, ho, rfl, rfl⟩
  | b :: bs, cs, i, s, h, ho => by
    obtain ⟨b1, e1, o1, w1, d1⟩ := recvArg_served (s := s) (b := b) (bs := bs ++ cs) ho
    obtain ⟨b2, e2, o2, w2, d2⟩ := recvBuf_served bs cs (i + 1)
      ({ s with bus := b1, crc := crcFold s.crc b, buf := s.buf.setIfInBounds i b }) o1
    refine ⟨b2, ?_, o2, ?_, d2.trans d1⟩
    · rw [List.length_cons, recvBuf, e1]
      exact e2
    · rw [w2, w1]; simp

theorem recvSkip_served : ∀ (bs cs : List Byte) (s : State) {h : List Sample},
    offers s.cfg.tXfer (bs ++ cs) s.bus.host = some h →
    ∃ b', recvSkip bs.length s = .done () { s with bus := b', crc := crcFoldAll s.crc bs } ∧
      offers s.cfg.tXfer cs b'.host = some h ∧ b'.wire = (bs.map WireEvent.rx).reverse ++ s.bus.wire ∧
      b'.draws = s.bus.draws
  | [], cs, s, h, ho => ⟨s.bus, rfl, ho, rfl, rfl⟩
  | b :: bs, cs, s, h, ho => by
    obtain ⟨b1, e1, o1, w1, d1⟩ := recvArg_served (s := s) (b := b) (bs := bs ++ cs) ho
    obtain ⟨b2, e2, o2, w2, d2⟩ := recvSkip_served bs cs ({ s with bus := b1, crc := crcFold s.crc b }) o1
    refine ⟨b2, ?_, o2, ?_, d2.trans d1⟩
    · rw [List.length_cons, recvSkip, e1]
      exact e2
    · rw [w2, w1]; simp

theorem send_served {s : State} {n T : Nat} {h' : List Sample} (v : Byte)
    (ht : takes T (n + 1) s.bus.host = some h') :
    ∃ b', s.send v T = (true, { s with bus := b' }) ∧ takes T n b'.host = some h' ∧
      b'.wire = .tx v true :: s.bus.wire ∧ b'.draws = s.bus.draws := by
  unfold takes at ht
  split at ht
  · rename_i x rest ha
    have hs := Bus.send_answered (c := s.cfg) (v := v) ha
    have hw := (Bus.send_keeps s.cfg v T s.bus).2.2.2.2.1
    refine ⟨(s.bus.send s.cfg v T).2, ?_, hs.2.1.symm ▸ ht, hs.1 ▸ hw, hs.2.2⟩
    unfold State.send
    rw [← hs.1]
  · simp at ht

theorem sendByte_served {s : State} {n : Nat} {h' : List Sample} (v : Byte)
    (ht : takes s.cfg.tXfer (n + 1) s.bus.host = some h') :
    ∃ b', sendByte v s = .done () { s with bus := b' } ∧ takes s.cfg.tXfer n b'.host = some h' ∧
      b'.wire = .tx v true :: s.bus.wire ∧ b'.draws = s.bus.draws := by
  obtain ⟨b', e, t, w, d⟩ := send_served v ht
  exact ⟨b', by unfold sendByte; rw [e], t, w, d⟩

theorem sendStream_served : ∀ (vs : List Byte) (n : Nat) (s : State) {h' : List Sample},
    takes s.cfg.tXfer (vs.length + n) s.bus.host = some h' →
    ∃ b', sendStream vs s = .done () { s with bus := b', crc := crcFoldAll s.crc vs } ∧
      takes s.cfg.tXfer n b'.host = some h' ∧
      b'.wire = (vs.map (WireEvent.tx · true)).reverse ++ s.bus.wire ∧ b'.draws = s.bus.draws
  | [], n, s, h', ht => ⟨s.bus, rfl, by simpa using ht, rfl, rfl⟩
  | v :: vs, n, s, h', ht => by
    obtain ⟨b1, e1, t1, w1, d1⟩ := sendByte_served (s := s) (n := vs.length + n) v
      (by rw [List.length_cons, Nat.add_right_comm] at ht; exact ht)
    obtain ⟨b2, e2, t2, w2, d2⟩ := sendStream_served vs n ({ s with bus := b1, crc := crcFold s.crc v }) t1
    refine ⟨b2, ?_, t2, ?_, d2.trans d1⟩
    · rw [sendStream, e1]
      exact e2
    · rw [w2, w1]; simp

theorem sendZeros_served : ∀ (k n : Nat) (s : State) {h' : List Sample},
    takes s.cfg.tXfer (k + n) s.bus.host = some h' →
    ∃ b', sendZeros k s = .done () { s with bus := b' } ∧ takes s.cfg.tXfer n b'.host = some h' ∧
      b'.wire = (List.replicate k (WireEvent.tx 0 true)).reverse ++ s.bus.wire ∧ b'.draws = s.bus.draws
  | 0, n, s, h', ht => ⟨s.bus, rfl, by simpa using ht, rfl, rfl⟩
  | k + 1, n, s, h', ht => by
    obtain ⟨b1, e1, t1, w1, d1⟩ := sendByte_served (s := s) (n := k + n) 0
      (by rw [Nat.add_right_comm] at ht; exact ht)
    obtain ⟨b2, e2, t2, w2, d2⟩ := sendZeros_served k n ({ s with bus := b1 }) t1
    refine ⟨b2, ?_, t2, ?_, d2.trans d1⟩
    · rw [sendZeros, e1]
      exact e2
    · rw [w2, w1]; simp [List.replicate_succ]

/-- A close-out whose checksum byte makes `crc` zero (R126): `B_ACK` is sent and the handler goes on. -/
theorem closeOut_served {s : State} {ck : Byte} {m h' : List Sample} {n : Nat}
    (ho : offers s.cfg.tXfer [ck] s.bus.host = some m) (ht : takes s.cfg.tXfer (n + 1) m = some h')
    (hc : crcFold s.crc ck = 0) :
    ∃ b', closeOut s = .done () { s with bus := b', crc := 0 } ∧ takes s.cfg.tXfer n b'.host = some h' ∧
      b'.wire = .tx s.cfg.bAck true :: .rx ck :: s.bus.wire ∧ b'.draws = s.bus.draws := by
  unfold offers at ho
  split at ho
  · rename_i x rest ha
    split at ho
    · rename_i hx
      subst hx
      simp only [offers, Option.some.injEq] at ho
      subst ho
      have hl := Bus.latch_answered (c := s.cfg) ha
      have hw := (Bus.latch_keeps s.cfg s.cfg.tXfer s.bus).2.2.2.2.2.1
      rcases hlt : s.bus.latch s.cfg s.cfg.tXfer with ⟨v, b⟩
      rw [hlt] at hl hw
      obtain ⟨hv, hh, hd⟩ := hl
      simp only at hv hh hd hw
      subst hv
      obtain ⟨b', e, t, w, d⟩ := send_served (s := { s with bus := b, crc := crcFold s.crc x.din }) s.cfg.bAck
        (T := s.cfg.tXfer) (n := n) (h' := h') (by simpa [hh] using ht)
      refine ⟨b', ?_, t, by rw [w]; simp only; rw [hw], by rw [d]; exact hd⟩
      simp only [hc] at e
      have hg : crcGood 0 = true := rfl
      unfold closeOut State.recv
      rw [hlt]
      simp only [hc, hg, if_true, e]
    · simp at ho
  · simp at ho

/-- A close-out whose checksum byte leaves `crc` not zero (R126): `B_NAK` is sent and the handler aborts. -/
theorem closeOut_refused {s : State} {ck : Byte} {h : List Sample}
    (ho : offers s.cfg.tXfer [ck] s.bus.host = some h) (hc : crcFold s.crc ck ≠ 0) :
    ∃ t taken, closeOut s = .abort .crcMismatch t ∧ t.bus.wire = .tx s.cfg.bNak taken :: .rx ck :: s.bus.wire := by
  unfold offers at ho
  split at ho
  · rename_i x rest ha
    split at ho
    · rename_i hx
      subst hx
      have hl := Bus.latch_answered (c := s.cfg) ha
      have hw := (Bus.latch_keeps s.cfg s.cfg.tXfer s.bus).2.2.2.2.2.1
      have hg : crcGood (crcFold s.crc x.din) = false := by simpa [crcGood] using hc
      unfold closeOut State.recv
      rcases hlt : s.bus.latch s.cfg s.cfg.tXfer with ⟨v, b⟩
      rw [hlt] at hl hw
      simp only at hl hw
      obtain ⟨rfl, -, -⟩ := hl
      simp only [hg, if_true, Bool.false_eq_true, if_false]
      exact ⟨_, _, rfl, (Bus.send_keeps s.cfg s.cfg.bNak s.cfg.tXfer b).2.2.2.2.1.trans (congrArg _ hw)⟩
    · simp at ho
  · simp at ho

/-- A close-out that sees no byte (R127): `B_NAK` is sent and the handler aborts. -/
theorem closeOut_missed {s : State} (h : misses .obf s.cfg.tXfer s.bus.host) :
    ∃ t taken, closeOut s = .abort .rxTimeout t ∧ t.bus.wire = .tx s.cfg.bNak taken :: .rxTimeout :: s.bus.wire := by
  have hl := Bus.latch_missed (c := s.cfg) h
  have hw := (Bus.latch_keeps s.cfg s.cfg.tXfer s.bus).2.2.2.2.2.1
  unfold closeOut State.recv
  rcases hlt : s.bus.latch s.cfg s.cfg.tXfer with ⟨v, b⟩
  rw [hlt] at hl hw
  simp only at hl hw
  subst hl
  simp only [if_true]
  exact ⟨_, _, rfl, (Bus.send_keeps s.cfg s.cfg.bNak s.cfg.tXfer b).2.2.2.2.1.trans (congrArg _ hw)⟩

/-- An argument byte that does not come: nothing is sent (R173). -/
theorem recvArg_missed {s : State} (h : misses .obf s.cfg.tXfer s.bus.host) :
    ∃ t, recvArg s = .abort .rxTimeout t ∧ t.bus.wire = .rxTimeout :: s.bus.wire := by
  have hl := Bus.latch_missed (c := s.cfg) h
  have hw := (Bus.latch_keeps s.cfg s.cfg.tXfer s.bus).2.2.2.2.2.1
  unfold recvArg State.recv
  rcases hlt : s.bus.latch s.cfg s.cfg.tXfer with ⟨v, b⟩
  rw [hlt] at hl hw
  simp only at hl hw
  subst hl
  exact ⟨_, rfl, hw⟩

/-- A tested `Send` that the host does not take (R270 `TX_TIMEOUT`). -/
theorem sendByte_missed {s : State} (v : Byte) (h : misses .ibf s.cfg.tXfer s.bus.host) :
    ∃ b', sendByte v s = .abort .txTimeout { s with bus := b' } ∧ b'.wire = .tx v false :: s.bus.wire := by
  have hs := Bus.send_missed (c := s.cfg) (v := v) h
  have hw := (Bus.send_keeps s.cfg v s.cfg.tXfer s.bus).2.2.2.2.1
  unfold sendByte State.send
  dsimp only
  rw [hs] at hw ⊢
  exact ⟨_, rfl, hw⟩

/-! ## The buffer -/

theorem bufWrite_toList : ∀ (bs : List Byte) (buf : Vector Byte 512) (i : Nat), i + bs.length ≤ 512 →
    (bufWrite buf i bs).toList = buf.toList.take i ++ bs ++ buf.toList.drop (i + bs.length)
  | [], buf, i, _ => by simp [bufWrite]
  | b :: bs, buf, i, h => by
    have hl : buf.toList.length = 512 := by simp
    simp only [List.length_cons] at h
    rw [bufWrite, bufWrite_toList bs _ (i + 1) (by omega), Vector.toList_setIfInBounds]
    apply List.ext_getElem?
    intro j
    simp only [List.getElem?_append, List.length_append, List.length_take, List.length_set, List.getElem?_take,
      List.getElem?_drop, List.getElem?_set, List.length_cons, hl]
    have h1 : min (i + 1) 512 = i + 1 := by omega
    have h2 : min i 512 = i := by omega
    rw [h1, h2]
    rcases Nat.lt_trichotomy j i with hj | hj | hj
    · simp [hj, show j < i + 1 by omega, show j < i + 1 + bs.length by omega, show j < i + (bs.length + 1) by omega,
        show i ≠ j by omega]
    · subst hj
      simp [show j < j + (bs.length + 1) by omega, show j < j + 1 + bs.length by omega, show j < 512 by omega]
    · by_cases hk : j < i + 1 + bs.length
      · have e : j - i = j - (i + 1) + 1 := by omega
        simp [hk, show j < i + (bs.length + 1) by omega, show ¬ j < i + 1 by omega, show ¬ j < i by omega, e]
      · simp [hk, show ¬ j < i + (bs.length + 1) by omega,
          show i ≠ i + 1 + bs.length + (j - (i + 1 + bs.length)) by omega]
        congr 1
        omega

/-- What was written to the start of the buffer is what is streamed from it. -/
theorem bufWrite_take {bs : List Byte} (buf : Vector Byte 512) (h : bs.length ≤ 512) :
    (bufWrite buf 0 bs).toList.take bs.length = bs := by
  rw [bufWrite_toList bs buf 0 (by omega)]
  simp

end Sys2Proof.Machine
end

