-- ==== Sys2Proof/Laws/Handlers.lean ====
section
/-! SUPPORT. What each handler can do, said once: `Acted` is what every handler keeps, and each handler is shown to be
made of transfers and one action; then the storage step of the block commands by kind. -/

namespace Sys2Proof.Machine

/-! ## What every handler keeps -/

/-- `t` comes from `s` by transfers and a handler's action: the context that no handler touches is as before, and the
parts of the invariant that a handler can touch are kept. -/
structure Acted (s t : State) : Prop where
  cfg : t.cfg = s.cfg
  link : t.link = s.link
  phase : t.phase = s.phase
  between : t.between = s.between
  draws : t.draws = s.draws
  lines : s.bus.AtDefault s.cfg → t.bus.AtDefault s.cfg
  clock : s.bus.clock ≤ t.bus.clock
  coll : s.coll.Ok → t.coll.Ok
  cwd : s.cfg.Valid → s.CwdOk → t.CwdOk
  cursor : s.CursorOk → t.CursorOk

theorem Acted.refl (s : State) : Acted s s :=
  ⟨rfl, rfl, rfl, rfl, rfl, id, Nat.le_refl _, id, fun _ h => h, id⟩

theorem Acted.trans {s t u : State} (h : Acted s t) (k : Acted t u) : Acted s u where
  cfg := k.cfg.trans h.cfg
  link := k.link.trans h.link
  phase := k.phase.trans h.phase
  between := k.between.trans h.between
  draws := k.draws.trans h.draws
  lines := fun hd => h.cfg ▸ k.lines (h.cfg.symm ▸ h.lines hd)
  clock := Nat.le_trans h.clock k.clock
  coll := fun ho => k.coll (h.coll ho)
  cwd := fun hv ho => k.cwd (h.cfg.symm ▸ hv) (h.cwd hv ho)
  cursor := fun ho => k.cursor (h.cursor ho)

theorem Transferred.acted {s t : State} (h : Transferred s t) : Acted s t where
  cfg := h.cfg
  link := h.link
  phase := h.phase
  between := h.between
  draws := h.draws
  lines := h.lines
  clock := h.clock
  coll := fun ho => h.coll ▸ ho
  cwd := fun _ ho => by
    unfold State.CwdOk
    rw [h.cfg, h.cwd]
    exact ho
  cursor := fun ho => by
    unfold State.CursorOk
    rw [h.coll, h.dircur]
    exact ho

theorem Acted.bind {α β : Type} {s : State} {p : Progress α} {f : α → State → Progress β}
    (hp : Acted s p.at) (hf : ∀ a t, Acted t (f a t).at) : Acted s (p.bind f).at := by
  cases p with
  | done a t => exact hp.trans (hf a t)
  | abort c t => exact hp

/-- An action on the collaborators that leaves the directories alone. -/
theorem Acted.act (s : State) (c : Coll) (buf : Vector Byte 512) (latch : Latches) (ho : s.coll.Ok → c.Ok)
    (hd : c.dirs = s.coll.dirs) (hn : c.nextHandle = s.coll.nextHandle) :
    Acted s { s with coll := c, buf := buf, latch := latch } where
  cfg := rfl
  link := rfl
  phase := rfl
  between := rfl
  draws := rfl
  lines := id
  clock := Nat.le_refl _
  coll := ho
  cwd := fun _ h => h
  cursor := fun h => by
    unfold State.CursorOk
    rw [hd, hn]
    exact h

/-! ## The collaborators' primitives leave directories and files as they should -/

theorem Coll.memWrite_dirs (c : Coll) (d : Fin 4) (off : Nat) (v : List Byte) :
    (c.memWrite d off v).2.dirs = c.dirs ∧ (c.memWrite d off v).2.nextHandle = c.nextHandle ∧
    (c.memWrite d off v).2.files = c.files := ⟨rfl, rfl, rfl⟩

theorem Coll.memFlush_dirs (c : Coll) (d : Fin 4) :
    (c.memFlush d).dirs = c.dirs ∧ (c.memFlush d).nextHandle = c.nextHandle := by
  unfold Coll.memFlush
  dsimp only
  split <;> exact ⟨rfl, rfl⟩

theorem Coll.unmount_dirs (c : Coll) (d : Fin 4) :
    (c.unmount d).dirs = c.dirs ∧ (c.unmount d).nextHandle = c.nextHandle := by
  unfold Coll.unmount
  dsimp only
  split <;> exact ⟨rfl, rfl⟩

theorem Coll.mount_dirs (c : Coll) (cfg : Config) (d : Fin 4) (p : Path) (ro : Bool) :
    (c.mount cfg d p ro).2.dirs = c.dirs ∧ (c.mount cfg d p ro).2.nextHandle = c.nextHandle := by
  unfold Coll.mount
  dsimp only
  split <;> exact ⟨rfl, rfl⟩

theorem Coll.createImage_dirs (c : Coll) (p : Path) :
    (c.createImage p).2.dirs = c.dirs ∧ (c.createImage p).2.nextHandle = c.nextHandle ∧
    (c.createImage p).2.slots = c.slots := by
  unfold Coll.createImage
  dsimp only
  split <;> exact ⟨rfl, rfl, rfl⟩

theorem Coll.readData_length (n : Nat) (m : Memory) (off k : Nat) : (readData n m off k).length = k := by
  simp [readData]

/-- Each byte a read delivers is the image's, as far as the image reaches (R62). -/
theorem Coll.readData_getElem {n : Nat} {m : Memory} {off k i : Nat} (h : i < (readData n m off k).length)
    (hi : off + i < IMAGE_BYTES) : (readData n m off k)[i] = m.read (off + i) := by
  simp [readData, hi]

theorem Coll.memRead_length (c : Coll) (d : Fin 4) (off n : Nat) : (c.memRead d off n).1.length = c.storeCount off n :=
  Coll.readData_length _ _ _ _

theorem Coll.storeCount_le (c : Coll) (off n : Nat) : c.storeCount off n ≤ n := by
  unfold Coll.storeCount
  split
  · exact Nat.min_le_right _ _
  · split <;> omega

/-! ## Block commands -/

/-- The storage step touches the collaborators, the buffer and the latches only. -/
theorem blockStorage_shape (f : KindFlags) (n : Nat) (s : State) :
    ∃ c b l, blockStorage f n s = { s with coll := c, buf := b, latch := l } ∧ (s.coll.Ok → c.Ok) ∧
      c.dirs = s.coll.dirs ∧ c.nextHandle = s.coll.nextHandle := by
  unfold blockStorage
  dsimp only
  split
  · exact ⟨_, _, _, rfl, id, rfl, rfl⟩
  · split
    · unfold blockWrite
      dsimp only
      split
      · exact ⟨_, _, _, rfl, id, rfl, rfl⟩
      · split <;> exact ⟨_, _, _, rfl, fun h => Coll.Ok.memWrite h _ _ _, rfl, rfl⟩
    · split
      · unfold blockRead
        dsimp only
        split <;> exact ⟨_, _, _, rfl, id, rfl, rfl⟩
      · unfold blockFormat
        dsimp only
        split
        · exact ⟨_, _, _, rfl, id, rfl, rfl⟩
        · have hd := Coll.memFlush_dirs (s.coll.memWrite s.latch.drive
            (byteOffset f s.latch.track s.latch.sector) (List.replicate TRACK_BYTES FILL)).2 s.latch.drive
          split <;> exact ⟨_, _, _, rfl, fun h => Coll.Ok.memFlush (Coll.Ok.memWrite h _ _ _) _, hd⟩

theorem blockAddress_keeps (boot : Bool) (n : Nat) (s : State) : Transferred s (blockAddress boot n s).at := by
  unfold blockAddress
  split
  · exact Transferred.local s s.crc s.buf _
  · exact Transferred.bind (recvArg_keeps s) fun sel t =>
      (Transferred.local t t.crc t.buf _).trans
        (Transferred.bind (recvArg_keeps _) fun trk u => Transferred.local u u.crc u.buf _)

theorem blockPayload_keeps (f : KindFlags) (n : Nat) (s : State) : Transferred s (blockPayload f n s).at := by
  unfold blockPayload
  split
  · refine Transferred.bind (recvBuf_keeps _ _ s) fun _ t => ?_
    split
    · exact recvSkip_keeps 1 t
    · exact Transferred.refl t
  · exact Transferred.refl s

theorem blockReply_keeps (f : KindFlags) (n : Nat) (s : State) : Transferred s (blockReply f n s).at := by
  unfold blockReply
  refine Transferred.bind (sendResult_keeps _ s) fun _ t => ?_
  split
  · exact sendPayload_keeps n t
  · exact Transferred.refl t

theorem blockIO_acts (f : KindFlags) (boot : Bool) (n : Nat) (s : State) : Acted s (blockIO f boot n s).at := by
  unfold blockIO
  split
  · exact Acted.refl s
  · refine Acted.bind ((Transferred.local s s.crc s.buf _).trans (blockAddress_keeps boot n _)).acted fun _ t => ?_
    refine Acted.bind (blockPayload_keeps f n t).acted fun _ u => ?_
    refine Acted.bind (closeOut_keeps u).acted fun _ v => ?_
    obtain ⟨c, b, l, he, ho, hd, hn⟩ := blockStorage_shape f n v
    rw [he]
    exact (Acted.act v c b l ho hd hn).trans (blockReply_keeps f n _).acted

/-- A read that delivers all it was asked for. -/
theorem blockRead_full {d : Fin 4} {off n : Nat} {s : State} (h : (s.coll.memRead d off n).1.length = n) :
    blockRead d off n s = { s with
      coll := (s.coll.memRead d off n).2
      buf := bufWrite s.buf 0 (s.coll.memRead d off n).1
      latch := { s.latch with result := RC_OK } } := by
  refine (if_pos h).trans ?_
  dsimp only [State.setResult_coll, State.setResult_buf]
  rw [h, Nat.sub_self, List.range_zero, List.map_nil, List.append_nil]
  rfl

/-- A read that comes up short. -/
theorem blockRead_short {d : Fin 4} {off n : Nat} {s : State} (h : (s.coll.memRead d off n).1.length ≠ n) :
    ∃ b, blockRead d off n s = { s with
      coll := (s.coll.memRead d off n).2
      buf := b
      latch := { s.latch with result := RC_RDERR } } := by
  exact ⟨_, if_neg h⟩

/-- The storage step of a read of at most 512 bytes. -/
theorem blockStorage_read (n : Nat) (s : State) (hn : n ≤ 512) :
    let d := s.latch.drive
    let off := byteOffset .read s.latch.track s.latch.sector
    let r := s.coll.memRead d off n
    ∃ b l, blockStorage .read n s =
        { s with coll := if (s.coll.slot d).isOpen = false then s.coll else r.2, buf := b, latch := l } ∧
      l.result = (if (s.coll.slot d).isOpen = false then RC_INVDRV
        else if r.1.length = n then RC_OK else RC_RDERR) ∧
      ((s.coll.slot d).isOpen = true → r.1.length = n → b.toList.take n = r.1) := by
  dsimp only
  unfold blockStorage
  dsimp only
  by_cases h1 : (s.coll.slot s.latch.drive).isOpen = false
  · simp only [if_pos h1]
    exact ⟨s.buf, { s.latch with result := RC_INVDRV }, rfl, rfl, fun h => by simp [h1] at h⟩
  · rw [if_neg h1, if_neg h1, if_neg h1, if_neg (show ¬KindFlags.read.fWrite = true by decide),
      if_pos (show KindFlags.read.fRead = true from rfl)]
    by_cases h2 : (s.coll.memRead s.latch.drive (byteOffset .read s.latch.track s.latch.sector) n).1.length = n
    · rw [blockRead_full (s := { s with
        latch := { s.latch with off := byteOffset .read s.latch.track s.latch.sector } }) h2, if_pos h2]
      refine ⟨_, _, rfl, rfl, fun _ _ => ?_⟩
      have := bufWrite_take s.buf (by omega :
        (s.coll.memRead s.latch.drive (byteOffset .read s.latch.track s.latch.sector) n).1.length ≤ 512)
      rwa [h2] at this
    · obtain ⟨b, e⟩ := blockRead_short (s := { s with
        latch := { s.latch with off := byteOffset .read s.latch.track s.latch.sector } }) h2
      rw [e, if_neg h2]
      exact ⟨_, _, rfl, rfl, fun _ h => absurd h h2⟩

end Sys2Proof.Machine
end

