-- ==== Sys2Proof/Laws/Served.lean ====
section
/-! SUPPORT. Commands run in full with a host that keeps up: the storage step of each kind, the tail of a block command
from its close-out to its reply, the shared shapes of the short commands (`Completes.quiet`, `Reaches`,
`listing_reaches`), what becomes of them when the host does not take the result byte, and what the actions of the extended
commands come to. -/

namespace Sys2Proof.Machine

theorem Progress.bind_of_done {α β : Type} {p : Progress α} {a : α} {t : State} (h : p = .done a t)
    (f : α → State → Progress β) : p.bind f = f a t := by rw [h]; rfl

/-- The storage step of a write of `n` bytes. -/
theorem blockStorage_write {n : Nat} {s : State} {v : List Byte} (hv : s.bufTake n = v) (hl : v.length = n) :
    let d := s.latch.drive
    let off := byteOffset .write s.latch.track s.latch.sector
    ∃ l, blockStorage .write n s = { s with coll := writeColl s.coll d off v, latch := l } ∧
      l.result = writeReply s.coll d off v := by
  dsimp only
  unfold blockStorage writeColl writeReply
  dsimp only
  by_cases h1 : (s.coll.slot s.latch.drive).isOpen = false
  · rw [if_pos h1, if_pos h1, if_pos (Or.inl h1)]
    exact ⟨_, rfl, rfl⟩
  · rw [if_neg h1, if_neg h1, if_pos (show KindFlags.write.fWrite = true from rfl)]
    by_cases h2 : (s.coll.slot s.latch.drive).writable = false
    · rw [if_pos h2, if_pos (Or.inr h2)]
      exact ⟨_, if_pos h2, rfl⟩
    · rw [if_neg h2, if_neg (show ¬(_ ∨ _) from fun h => h.elim h1 h2)]
      subst hv
      by_cases h3 : (s.coll.memWrite s.latch.drive (byteOffset .write s.latch.track s.latch.sector) (s.bufTake n)).1 = n
      · rw [if_pos (h3.trans hl.symm)]
        exact ⟨_, (if_neg h2).trans (if_pos h3), rfl⟩
      · rw [if_neg (fun h => h3 (h.trans hl))]
        exact ⟨_, (if_neg h2).trans (if_neg h3), rfl⟩

theorem blockStorage_format (s : State) (n : Nat) :
    let d := s.latch.drive
    let off := byteOffset .format s.latch.track s.latch.sector
    ∃ l, blockStorage .format n s = { s with coll := formatColl s.coll d off, latch := l } ∧
      l.result = formatReply s.coll d off := by
  dsimp only
  unfold blockStorage formatColl formatReply
  dsimp only
  by_cases h1 : (s.coll.slot s.latch.drive).isOpen = false
  · rw [if_pos h1, if_pos h1, if_pos (Or.inl h1)]
    exact ⟨_, rfl, rfl⟩
  · rw [if_neg h1, if_neg h1, if_neg (show ¬KindFlags.format.fWrite = true by decide),
      if_neg (show ¬KindFlags.format.fRead = true by decide)]
    by_cases h2 : (s.coll.slot s.latch.drive).writable = false
    · rw [if_pos h2, if_pos (Or.inr h2)]
      exact ⟨_, if_pos h2, rfl⟩
    · rw [if_neg h2, if_neg (show ¬(_ ∨ _) from fun h => h.elim h1 h2)]
      by_cases h3 : (s.coll.memWrite s.latch.drive (byteOffset .format s.latch.track s.latch.sector) fillTrack).1 = 4608
      · rw [if_pos h3]
        exact ⟨_, (if_neg h2).trans (if_pos h3), rfl⟩
      · rw [if_neg h3]
        exact ⟨_, (if_neg h2).trans (if_neg h3), rfl⟩

theorem blockAddress_served {n : Nat} {s : State} {sel trk : Byte} {bs : List Byte} {h : List Sample}
    (ho : offers s.cfg.tXfer (sel :: trk :: bs) s.bus.host = some h) :
    ∃ b', blockAddress false n s = .done () { s with
        bus := b'
        crc := crcFold (crcFold s.crc sel) trk
        latch := { s.latch with
          sel := sel, drive := selDrive sel, sector := selSector s.cfg.secw n sel, track := trk } } ∧
      offers s.cfg.tXfer bs b'.host = some h ∧ b'.wire = .rx trk :: .rx sel :: s.bus.wire ∧
      b'.draws = s.bus.draws := by
  obtain ⟨b1, e1, o1, w1, d1⟩ := recvArg_served ho
  obtain ⟨b2, e2, o2, w2, d2⟩ := recvArg_served (s := { s with
    bus := b1
    crc := crcFold s.crc sel
    latch := { s.latch with sel := sel, drive := selDrive sel, sector := selSector s.cfg.secw n sel } }) o1
  refine ⟨b2, ?_, o2, by rw [w2, w1], d2.trans d1⟩
  exact (if_neg (by decide)).trans ((Progress.bind_of_done e1 _).trans (Progress.bind_of_done e2 _))

/-- A host that serves what is left after some of the inbound bytes serves the close-out. -/
theorem sendResult_served {s : State} {n : Nat} {h' : List Sample} (r : Byte)
    (ht : takes s.cfg.tXfer (n + 1) s.bus.host = some h') :
    ∃ b', sendResult r s = .done () { s with bus := b', latch := { s.latch with result := r } } ∧
      takes s.cfg.tXfer n b'.host = some h' ∧ b'.wire = .tx r true :: s.bus.wire ∧ b'.draws = s.bus.draws :=
  sendByte_served (s := s.setResult r) r ht

theorem sendPayload_served {s : State} {n : Nat} {v : List Byte} {m : Nat} {h' : List Sample} (hv : s.bufTake n = v)
    (ht : takes s.cfg.tXfer (v.length + 1 + m) s.bus.host = some h') :
    ∃ b', sendPayload n s = .done () { s with bus := b', crc := checksum v } ∧
      takes s.cfg.tXfer m b'.host = some h' ∧
      b'.wire = ((framed v).map (WireEvent.tx · true)).reverse ++ s.bus.wire ∧ b'.draws = s.bus.draws := by
  subst hv
  obtain ⟨b1, e1, t1, w1, d1⟩ := sendStream_served (s.bufTake n) (m + 1) { s with crc := 0 } (h' := h')
    (by rw [show (s.bufTake n).length + (m + 1) = (s.bufTake n).length + 1 + m by omega]; exact ht)
  obtain ⟨b2, e2, t2, w2, d2⟩ := sendByte_served (s := { s with bus := b1, crc := checksum (s.bufTake n) })
    (checksum (s.bufTake n)) t1
  refine ⟨b2, ?_, t2, ?_, d2.trans d1⟩
  · unfold sendPayload
    rw [e1]
    exact e2
  · rw [w2, w1]; simp [framed]

/-- A framed string of at most 512 bytes. -/
theorem sendFramed_served {s : State} {v : List Byte} {m : Nat} {h' : List Sample} (hl : v.length ≤ 512)
    (ht : takes s.cfg.tXfer (v.length + 1 + m) s.bus.host = some h') :
    ∃ b' f, sendFramed v s = .done () { s with bus := b', crc := checksum v, buf := f } ∧
      takes s.cfg.tXfer m b'.host = some h' ∧
      b'.wire = ((framed v).map (WireEvent.tx · true)).reverse ++ s.bus.wire ∧ b'.draws = s.bus.draws := by
  obtain ⟨b, e, t, w, d⟩ := sendPayload_served (s := { s with buf := bufWrite s.buf 0 v }) (n := v.length) (v := v)
    (bufWrite_take s.buf hl) ht
  exact ⟨b, _, e, t, w, d⟩

theorem takes_zero {T : Nat} {m h : List Sample} (ht : takes T 0 m = some h) : m = h := by
  simpa [takes] using ht

/-- The reply of a read from its storage step on. -/
theorem blockTail_read {n : Nat} {s : State} {ck : Byte} {m h' : List Sample} (hn : n ≤ 512)
    (ho : offers s.cfg.tXfer [ck] s.bus.host = some m) (hc : crcFold s.crc ck = 0)
    (ht : takes s.cfg.tXfer (1 + (readReply s.coll s.latch.drive
      (byteOffset .read s.latch.track s.latch.sector) n).length) m = some h') :
    ∃ b f c l, ((closeOut s).bind fun _ s => blockReply .read n (blockStorage .read n s)) = .done () { s with
        bus := b
        crc := c
        buf := f
        latch := l
        coll := if (s.coll.slot s.latch.drive).isOpen = false then s.coll
          else (s.coll.memRead s.latch.drive (byteOffset .read s.latch.track s.latch.sector) n).2 } ∧
      b.host = h' ∧
      b.wire = transcript [ck] (s.cfg.bAck :: readReply s.coll s.latch.drive
        (byteOffset .read s.latch.track s.latch.sector) n) ++ s.bus.wire := by
  obtain ⟨b1, e1, t1, w1, -⟩ := closeOut_served ho (Nat.add_comm 1 _ ▸ ht) hc
  obtain ⟨f, l, e2, hr, hf⟩ := blockStorage_read n { s with bus := b1, crc := 0 } hn
  dsimp only at e2 hr hf
  rw [Progress.bind_of_done e1, e2]
  unfold blockReply
  dsimp only
  unfold readReply at t1 ⊢
  by_cases h1 : (s.coll.slot s.latch.drive).isOpen = false
  · rw [if_pos h1] at hr t1 ⊢
    simp only [if_pos h1]
    obtain ⟨b2, e3, t3, w3, -⟩ := sendResult_served (s := { s with bus := b1, crc := 0, buf := f, latch := l }) (n :=
        0) l.result t1
    refine ⟨b2, f, 0, _, (Progress.bind_of_done e3 _).trans (if_neg ?_), takes_zero t3, ?_⟩
    · rw [hr]; decide
    · rw [w3, hr]; simp only; rw [w1]; rfl
  · have h1' : (s.coll.slot s.latch.drive).isOpen = true := by simpa using h1
    rw [if_neg h1] at hr t1 ⊢
    simp only [if_neg h1]
    by_cases h2 : (s.coll.memRead s.latch.drive (byteOffset .read s.latch.track s.latch.sector) n).1.length = n
    · rw [if_pos h2] at hr t1 ⊢
      obtain ⟨b2, e3, t3, w3, -⟩ := sendResult_served (s :=
          { s with bus := b1, crc := 0, buf := f, latch := l, coll := (s.coll.memRead s.latch.drive (byteOffset .read s.latch.track s.latch.sector) n).2 }) l.result
        (n := (framed (s.coll.memRead s.latch.drive (byteOffset .read s.latch.track s.latch.sector) n).1).length) (by simpa using t1)
      obtain ⟨b4, e4, t4, w4, -⟩ := sendPayload_served (s :=
          { s with bus := b2, crc := 0, buf := f, latch := { l with result := l.result }, coll := (s.coll.memRead s.latch.drive (byteOffset .read s.latch.track s.latch.sector) n).2 }) (m := 0) (h' := h') (hf h1' h2) (by simpa [framed] using t3)
      refine ⟨b4, f, _, _, (Progress.bind_of_done e3 _).trans ((if_pos ⟨hr, rfl⟩).trans e4), takes_zero t4, ?_⟩
      rw [w4]; simp only; rw [w3, hr]; simp only; rw [w1]; simp [transcript]
    · rw [if_neg h2] at hr t1 ⊢
      obtain ⟨b2, e3, t3, w3, -⟩ := sendResult_served (s :=
          { s with bus := b1, crc := 0, buf := f, latch := l, coll := (s.coll.memRead s.latch.drive (byteOffset .read s.latch.track s.latch.sector) n).2 }) (n := 0) l.result t1
      refine ⟨b2, f, 0, _, (Progress.bind_of_done e3 _).trans (if_neg ?_), takes_zero t3, ?_⟩
      · rw [hr]; decide
      · rw [w3, hr]; simp only; rw [w1]; rfl

theorem offers_append {T : Nat} : ∀ (a b : List Byte) {h m : List Sample}, offers T (a ++ b) h = some m →
    ∃ k, offers T a h = some k ∧ offers T b k = some m
  | [], b, h, m, ho => ⟨h, rfl, ho⟩
  | x :: a, b, h, m, ho => by
    simp only [List.cons_append, offers] at ho ⊢
    split at ho
    · rename_i y rest _
      split at ho
      · rename_i hx
        rw [if_pos hx]
        exact offers_append a b ho
      · simp at ho
    · simp at ho

/-- A write or a format ends with its result byte. -/
theorem blockReply_plain {f : KindFlags} (hf : f.fRead = false) (n : Nat) (s : State) :
    blockReply f n s = sendResult s.latch.result s := by
  unfold blockReply
  cases sendResult s.latch.result s with
  | done a u => exact if_neg (fun h => by rw [hf] at h; exact absurd h.2 (by decide))
  | abort c u => rfl

theorem blockTail_write {n k : Nat} {s : State} {v : List Byte} {ck : Byte} {m h' : List Sample}
    (hv : s.bufTake n = v) (hl : v.length = n)
    (ho : offers s.cfg.tXfer [ck] s.bus.host = some m) (hc : crcFold s.crc ck = 0)
    (ht : takes s.cfg.tXfer (k + 1) m = some h') :
    ∃ b l, ((closeOut s).bind fun _ s => blockReply .write n (blockStorage .write n s)) =
        sendResult (writeReply s.coll s.latch.drive (byteOffset .write s.latch.track s.latch.sector) v) { s with
          bus := b
          crc := 0
          latch := l
          coll := writeColl s.coll s.latch.drive (byteOffset .write s.latch.track s.latch.sector) v } ∧
      takes s.cfg.tXfer k b.host = some h' ∧ b.wire = transcript [ck] [s.cfg.bAck] ++ s.bus.wire := by
  obtain ⟨b1, e1, t1, w1, -⟩ := closeOut_served ho ht hc
  obtain ⟨l, e2, hr⟩ := blockStorage_write (s := { s with bus := b1, crc := 0 }) hv hl
  dsimp only at e2 hr
  rw [Progress.bind_of_done e1, e2, blockReply_plain rfl, ← hr]
  exact ⟨b1, l, rfl, t1, w1⟩

theorem blockTail_format {n k : Nat} {s : State} {ck : Byte} {m h' : List Sample}
    (ho : offers s.cfg.tXfer [ck] s.bus.host = some m) (hc : crcFold s.crc ck = 0)
    (ht : takes s.cfg.tXfer (k + 1) m = some h') :
    ∃ b l, ((closeOut s).bind fun _ s => blockReply .format n (blockStorage .format n s)) =
        sendResult (formatReply s.coll s.latch.drive (byteOffset .format s.latch.track s.latch.sector)) { s with
          bus := b
          crc := 0
          latch := l
          coll := formatColl s.coll s.latch.drive (byteOffset .format s.latch.track s.latch.sector) } ∧
      takes s.cfg.tXfer k b.host = some h' ∧ b.wire = transcript [ck] [s.cfg.bAck] ++ s.bus.wire := by
  obtain ⟨b1, e1, t1, w1, -⟩ := closeOut_served ho ht hc
  obtain ⟨l, e2, hr⟩ := blockStorage_format { s with bus := b1, crc := 0 } n
  dsimp only at e2 hr
  rw [Progress.bind_of_done e1, e2, blockReply_plain rfl, ← hr]
  exact ⟨b1, l, rfl, t1, w1⟩

/-- A handler that runs to its end from the dispatched state, as a completion. -/
theorem Completes.of_done {i : Instr} {s : State} {h : State → Progress Unit} {ins outs : List Byte} {h' : List Sample}
    {P : State → Prop} {t : State} (hx : exec i s = runHandler i h s) (ht : h (s.dispatch i) = .done () t)
    (hw : t.bus.wire = transcript ins outs ++ s.bus.wire) (hh : t.bus.host = h') (hl : t.link = s.link)
    (hcfg : t.cfg = s.cfg) (hb : t.between = s.between) (hP : P t.handlerReturn) : Completes i s ins outs h' P := by
  refine ⟨t.handlerReturn, ?_, hw, hh, rfl, rfl, hl, hcfg, hb, hP⟩
  rw [hx]
  unfold runHandler
  rw [ht]
  rfl

/-- A handler that aborts on a byte the host did not take, from the dispatched state. -/
theorem StopsAt.of_abort {i : Instr} {s : State} {h : State → Progress Unit} {ins outs : List Byte} {v : Byte}
    {P : State → Prop} {t : State} (hx : exec i s = runHandler i h s) (ht : h (s.dispatch i) = .abort .txTimeout t)
    (hw : t.bus.wire = .tx v false :: (transcript ins outs ++ s.bus.wire)) (hl : t.link = s.link)
    (hcfg : t.cfg = s.cfg) (hb : t.between = s.between) (hP : P (t.takeAbort .txTimeout)) : StopsAt i s ins outs v P := by
  refine ⟨t.takeAbort .txTimeout, ?_, hw, rfl, rfl, hl, hcfg, hb, hP⟩
  rw [hx]
  unfold runHandler
  rw [ht]
  rfl

/-- A command that received `ins`, sent `B_ACK` and did its action: it has the result byte `r` left to send, the host
takes `n` bytes more, and `P` holds of every state with the working directory, the cursor and the collaborators reached. -/
def Reaches (i : Instr) (s : State) (ins : List Byte) (r : Byte) (n : Nat) (h' : List Sample) (P : State → Prop) :
    Prop :=
  ∃ (h : State → Progress Unit) (u : State), exec i s = runHandler i h s ∧ h (s.dispatch i) = sendResult r u ∧
    takes u.cfg.tXfer n u.bus.host = some h' ∧ u.bus.wire = transcript ins [s.cfg.bAck] ++ s.bus.wire ∧
    u.link = s.link ∧ u.cfg = s.cfg ∧ u.between = s.between ∧
    ∀ v : State, v.cwd = u.cwd → v.dircur = u.dircur → v.coll = u.coll → P v

/-- The host takes the result byte. -/
theorem Reaches.completes {i : Instr} {s : State} {ins : List Byte} {r : Byte} {h' : List Sample} {P : State → Prop}
    (k : Reaches i s ins r 1 h' P) : Completes i s ins [s.cfg.bAck, r] h' P := by
  obtain ⟨h, u, hx, ht, htk, hw, hl, hc, hb, hP⟩ := k
  obtain ⟨b, e, t, w, -⟩ := sendResult_served r htk
  refine Completes.of_done hx (ht.trans e) ?_ (takes_zero t) hl hc hb (hP _ rfl rfl rfl)
  rw [w, hw]; simp [transcript]

/-- The host does not take the result byte: what the command did stays done (R280, R325). -/
theorem Reaches.stops {i : Instr} {s : State} {ins : List Byte} {r : Byte} {h' : List Sample} {P : State → Prop}
    (k : Reaches i s ins r 0 h' P) (hm : misses .ibf s.cfg.tXfer h') : StopsAt i s ins [s.cfg.bAck] r P := by
  obtain ⟨h, u, hx, ht, htk, hw, hl, hc, hb, hP⟩ := k
  obtain ⟨b, e, w⟩ := sendByte_missed (s := u.setResult r) r (by
    show misses .ibf u.cfg.tXfer u.bus.host
    rw [hc, takes_zero htk]; exact hm)
  refine StopsAt.of_abort hx (ht.trans e) ?_ hl hc hb (hP _ rfl rfl rfl)
  exact w.trans (congrArg _ hw)

theorem xor_close (a b c : Byte) : crcFold (crcFold (crcFold a b) c) (a ^^^ b ^^^ c) = 0 := by
  unfold crcFold; simp

theorem crcFoldAll_cons (a b : Byte) (l : List Byte) : crcFoldAll a (b :: l) = crcFoldAll (crcFold a b) l := rfl
theorem crcFoldAll_nil (a : Byte) : crcFoldAll a [] = a := rfl
theorem crcFoldAll_append (a : Byte) (l k : List Byte) : crcFoldAll a (l ++ k) = crcFoldAll (crcFoldAll a l) k := by
  simp [crcFoldAll]
theorem crcFoldAll_zero (l : List Byte) : ∀ a, crcFoldAll a l = a ^^^ crcFoldAll 0 l := by
  induction l with
  | nil => intro a; simp [crcFoldAll]
  | cons b l ih =>
    intro a
    rw [crcFoldAll_cons, crcFoldAll_cons, ih, ih (crcFold 0 b)]
    simp [crcFold, BitVec.xor_assoc]
/-- The checksum byte closes what it covers. -/
theorem close_checksum (op : Byte) (l : List Byte) : crcFold (crcFoldAll op l) (checksum (op :: l)) = 0 := by
  unfold checksum
  rw [crcFoldAll_cons, crcFoldAll_zero l (crcFold 0 op), crcFoldAll_zero l op]
  simp [crcFold]

theorem byteOffset_read (trk : Byte) (x : BitVec 6) : byteOffset .read trk x = sectorOffset trk x.toNat := rfl
theorem byteOffset_write (trk : Byte) (x : BitVec 6) : byteOffset .write trk x = sectorOffset trk x.toNat := rfl
theorem selSector_128 (w : Nat) (sel : Byte) : (selSector w 128 sel).toNat = sel.toNat % 64 := by
  simp [selSector]
theorem selSector_other {w n : Nat} (hw : w < 6) (hn : n ≠ 128) (sel : Byte) : (selSector w n sel).toNat = sel.toNat % 2 ^ w := by
  rw [selSector, if_neg hn, BitVec.toNat_setWidth, BitVec.extractLsb'_toNat, Nat.shiftRight_zero]
  refine Nat.mod_eq_of_lt (Nat.lt_of_lt_of_le (Nat.mod_lt _ (Nat.two_pow_pos _)) (Nat.pow_le_pow_right (by omega) (by omega)))


/-- What a read command leaves of the collaborators. -/
theorem readColl_keeps (c : Coll) (d : Fin 4) (off n : Nat) :
    let c' := if (c.slot d).isOpen = false then c else (c.memRead d off n).2
    keepsDisks c c' ∧ c'.requests = readRequests c d off n ++ c.requests := by
  dsimp only
  unfold readRequests
  by_cases h : (c.slot d).isOpen = false
  · rw [if_pos h, if_pos h]
    exact ⟨⟨⟨rfl, rfl, rfl, rfl, rfl, rfl, rfl⟩, rfl⟩, rfl⟩
  · rw [if_neg h, if_neg h]
    exact ⟨⟨⟨rfl, rfl, rfl, rfl, rfl, rfl, rfl⟩, rfl⟩, rfl⟩

theorem Completes.read {i : Instr} {s : State} {n off : Nat} {sel trk ck : Byte} {h' : List Sample}
    (hx : exec i s = runHandler i (blockIO .read false n) s) (hn : n ≤ 512) (ha : argCheckFails .read n = false)
    (hoff : byteOffset .read trk (selSector s.cfg.secw n sel) = off)
    (hck : crcFold (crcFold (crcFold (opcodeOf s.cfg i) sel) trk) ck = 0)
    (hs : serves s.cfg.tXfer [sel, trk, ck] (1 + (readReply s.coll (selDrive sel) off n).length) s.bus.host h') :
    Completes i s [sel, trk, ck] (s.cfg.bAck :: readReply s.coll (selDrive sel) off n) h' fun t =>
      keepsPlace s t ∧ keepsDisks s.coll t.coll ∧
      t.coll.requests = readRequests s.coll (selDrive sel) off n ++ s.coll.requests := by
  obtain ⟨m, ho, ht⟩ := hs
  subst hoff
  obtain ⟨b1, e1, o1, w1, -⟩ := blockAddress_served (n := n) (s := (s.dispatch i).setKind .read false n) ho
  obtain ⟨b, f, c, l, e2, hh, w2⟩ := blockTail_read (n := n) (s := { (s.dispatch i).setKind .read false n with
        bus := b1
        crc := crcFold (crcFold (opcodeOf s.cfg i) sel) trk
        latch := { ((s.dispatch i).setKind .read false n).latch with
          sel := sel, drive := selDrive sel, sector := selSector s.cfg.secw n sel, track := trk } })
       hn o1 hck ht
  refine Completes.of_done hx
    ((if_neg (by rw [ha]; decide)).trans ((Progress.bind_of_done e1 _).trans e2)) ?_ hh rfl rfl rfl
    ⟨⟨rfl, rfl⟩, readColl_keeps s.coll (selDrive sel) (byteOffset .read trk (selSector s.cfg.secw n sel)) n⟩
  refine w2.trans ?_
  refine (congrArg (_ ++ ·) w1).trans ?_
  simp [transcript]

/-- The byte read after a store, inside the stored range and the image. -/
theorem Memory.read_storeBytes (m : Memory) (off : Nat) (bs : List Byte) {i : Nat} (h : i < bs.length)
    (hi : off + i < IMAGE_BYTES) : (m.storeBytes off bs).read (off + i) = bs[i] := by
  unfold Memory.storeBytes
  rw [Memory.read_writeBytes, dif_pos]
  · simp
  · rw [List.length_take]; omega

theorem memWrite_outside (c : Coll) (d : Fin 4) (off : Nat) (v : List Byte) :
    keepsOutside c (c.memWrite d off v).2 d off (c.memWrite d off v).1 := by
  have hs : ∀ e, (c.memWrite d off v).2.slot e =
      if e = d then { c.slot d with
        image := (c.slot d).image.storeBytes off (v.take (c.storeCount off v.length))
        unflushed := (c.slot d).unflushed || decide (0 < c.storeCount off v.length) } else c.slot e := by
    intro e
    by_cases h : e = d
    · subst h; rw [if_pos rfl]; exact Coll.slot_setSlot_same _ _ _
    · rw [if_neg h]; exact Coll.slot_setSlot_other _ _ h
  refine ⟨⟨rfl, rfl, rfl, rfl, rfl, rfl, rfl⟩, fun e he => by rw [hs, if_neg he], ?_, ?_, ?_, ?_⟩
  all_goals rw [hs, if_pos rfl]
  intro a ha
  refine Memory.read_storeBytes_outside _ ?_
  have h1 : (c.memWrite d off v).1 = c.storeCount off v.length := rfl
  have h2 := Coll.storeCount_le c off v.length
  rw [List.length_take]
  omega

theorem memWrite_prefix (c : Coll) (d : Fin 4) (off : Nat) (v : List Byte) (i : Nat) (h : i < v.length)
    (hk : i < (c.memWrite d off v).1) (hi : off + i < 368640) :
    ((c.memWrite d off v).2.slot d).image.read (off + i) = v[i] := by
  have hs : (c.memWrite d off v).2.slot d = { c.slot d with
        image := (c.slot d).image.storeBytes off (v.take (c.storeCount off v.length))
        unflushed := (c.slot d).unflushed || decide (0 < c.storeCount off v.length) } := Coll.slot_setSlot_same _ _ _
  rw [hs]
  have hl : i < (v.take (c.storeCount off v.length)).length := by
    have : (c.memWrite d off v).1 = c.storeCount off v.length := rfl
    rw [List.length_take]; omega
  rw [Memory.read_storeBytes _ _ _ hl hi]
  simp

theorem keepsOutside_mono {c c' : Coll} {d : Fin 4} {off k n : Nat} (h : keepsOutside c c' d off k) (hk : k ≤ n) :
    keepsOutside c c' d off n :=
  ⟨h.1, h.2.1, h.2.2.1, h.2.2.2.1, h.2.2.2.2.1, fun a ha => h.2.2.2.2.2 a (by omega)⟩

theorem keepsOutside_refl (c : Coll) (d : Fin 4) (off n : Nat) : keepsOutside c c d off n :=
  ⟨⟨rfl, rfl, rfl, rfl, rfl, rfl, rfl⟩, fun _ _ => rfl, rfl, rfl, rfl, fun _ _ => rfl⟩

theorem writeColl_outside (c : Coll) (d : Fin 4) (off : Nat) (v : List Byte) :
    keepsOutside c (writeColl c d off v) d off v.length ∧
      (writeColl c d off v).requests = writeRequests c d off v.length ++ c.requests := by
  unfold writeColl writeRequests
  split
  · exact ⟨keepsOutside_refl _ _ _ _, rfl⟩
  · exact ⟨keepsOutside_mono (memWrite_outside c d off v) (Coll.storeCount_le _ _ _), rfl⟩

/-- The slots after a flush. -/
theorem memFlush_slot (c : Coll) (d e : Fin 4) :
    (c.memFlush d).slot e = if e = d then { c.slot d with unflushed := false } else c.slot e := by
  have : (c.memFlush d).slot e = ((c.ask (.memFlush d)).setSlot d { c.slot d with unflushed := false }).slot e := by
    unfold Coll.memFlush
    dsimp only
    split <;> rfl
  rw [this]
  by_cases h : e = d
  · subst h; rw [if_pos rfl]; exact Coll.slot_setSlot_same _ _ _
  · rw [if_neg h]; exact Coll.slot_setSlot_other _ _ h

/-- The files after a flush: that of the slot holds its bytes if any were unflushed, the others are as before (R64). -/
theorem memFlush_files (c : Coll) (d : Fin 4) :
    (c.memFlush d).files =
      if (c.slot d).unflushed then filePut c.files (c.slot d).path (c.slot d).image else c.files := by
  unfold Coll.memFlush
  dsimp only
  split <;> rfl

/-- A flush makes no call and answers none. -/
theorem memFlush_calls (c : Coll) (d : Fin 4) : keepsCalls c (c.memFlush d) := by
  unfold Coll.memFlush
  dsimp only
  split <;> exact ⟨rfl, rfl, rfl, rfl, rfl, rfl⟩

theorem keepsOutsideFlushed_refl (c : Coll) (d : Fin 4) (off n : Nat) : keepsOutsideFlushed c c d off n :=
  ⟨⟨rfl, rfl, rfl, rfl, rfl, rfl⟩, (keepsOutside_refl c d off n).2, fun _ _ => rfl, .inl rfl⟩

/-- A write followed by a flush. -/
theorem keepsOutside.flush {c c' : Coll} {d : Fin 4} {off n : Nat} (h : keepsOutside c c' d off n) :
    keepsOutsideFlushed c (c'.memFlush d) d off n := by
  obtain ⟨⟨hf, h1⟩, h2, h3, h4, h5, h6⟩ := h
  have hp := memFlush_files c' d
  rw [h5, hf] at hp
  refine ⟨?_, ⟨fun e he => ?_, ?_, ?_, ?_, fun a ha => ?_⟩, fun p hne => ?_, ?_⟩
  · obtain ⟨k1, k2, k3, k4, k5, k6⟩ := memFlush_calls c' d
    obtain ⟨l1, l2, l3, l4, l5, l6⟩ := h1
    exact ⟨k1.trans l1, k2.trans l2, k3.trans l3, k4.trans l4, k5.trans l5, k6.trans l6⟩
  · rw [memFlush_slot, if_neg he]; exact h2 e he
  · rw [memFlush_slot, if_pos rfl]; exact h3
  · rw [memFlush_slot, if_pos rfl]; exact h4
  · rw [memFlush_slot, if_pos rfl]; exact h5
  · rw [memFlush_slot, if_pos rfl]; exact h6 a ha
  · rw [hp]
    split
    · exact fileLookup_filePut_other hne _ _
    · rfl
  · rw [hp, memFlush_slot, if_pos rfl]
    split
    · exact .inr (fileLookup_filePut_same _ _ _)
    · exact .inl rfl

theorem formatColl_outside (c : Coll) (d : Fin 4) (off : Nat) :
    keepsOutsideFlushed c (formatColl c d off) d off 4608 := by
  unfold formatColl
  split
  · exact keepsOutsideFlushed_refl _ _ _ _
  · exact (keepsOutside_mono (memWrite_outside c d off fillTrack) (n := 4608)
      (Nat.le_trans (Coll.storeCount_le c off fillTrack.length) (Nat.le_of_eq List.length_replicate))).flush

/-- A format that went well leaves the slot flushed and its file holding its bytes (R185, R186, R64). -/
theorem formatColl_ok {c : Coll} {d : Fin 4} {off : Nat} (h : formatReply c d off = RC_OK) :
    ((formatColl c d off).slot d).unflushed = false ∧
      fileLookup (formatColl c d off).files (c.slot d).path = some ((formatColl c d off).slot d).image := by
  unfold formatReply at h
  split at h
  · exact absurd h (by decide)
  split at h
  · exact absurd h (by decide)
  split at h
  · rename_i h1 h2 h3
    have hs : ((c.memWrite d off fillTrack).2.slot d).unflushed = true ∧
        ((c.memWrite d off fillTrack).2.slot d).path = (c.slot d).path := by
      have : (c.memWrite d off fillTrack).2.slot d = { c.slot d with
          image := (c.slot d).image.storeBytes off (fillTrack.take (c.storeCount off fillTrack.length))
          unflushed := (c.slot d).unflushed || decide (0 < c.storeCount off fillTrack.length) } :=
        Coll.slot_setSlot_same _ _ _
      have hk : c.storeCount off fillTrack.length = 4608 := h3
      rw [this, hk]
      simp
    unfold formatColl
    rw [if_neg (fun h => h.elim h1 h2), memFlush_slot, if_pos rfl, memFlush_files, if_pos hs.1, hs.2]
    exact ⟨rfl, fileLookup_filePut_same _ _ _⟩
  · exact absurd h (by decide)

/-- `crc` after the selector, track and payload bytes. -/
theorem Reaches.write {i : Instr} {s : State} {n off k : Nat} {sel trk ck : Byte} {data more : List Byte} {h' : List Sample}
    (hx : exec i s = runHandler i (blockIO .write false n) s) (ha : argCheckFails .write n = false) (hn : n ≤ 512)
    (hd : data.length = n) (hm : more.length = if n = 512 then 1 else 0)
    (hoff : byteOffset .write trk (selSector s.cfg.secw n sel) = off)
    (hck : ck = checksum (opcodeOf s.cfg i :: sel :: trk :: (data ++ more)))
    (hs : serves s.cfg.tXfer (sel :: trk :: (data ++ (more ++ [ck]))) (k + 1) s.bus.host h') :
    Reaches i s (sel :: trk :: (data ++ (more ++ [ck]))) (writeReply s.coll (selDrive sel) off data) k h' fun t =>
      keepsPlace s t ∧ t.coll = writeColl s.coll (selDrive sel) off data ∧
      keepsOutside s.coll t.coll (selDrive sel) off n ∧
      t.coll.requests = writeRequests s.coll (selDrive sel) off n ++ s.coll.requests := by
  obtain ⟨m, ho, ht⟩ := hs
  subst hoff hd
  obtain ⟨b1, e1, o1, w1, -⟩ := blockAddress_served (n := data.length) (s :=
      (s.dispatch i).setKind .write false data.length) ho
  obtain ⟨b2, e2, o2, w2, -⟩ :=
      recvBuf_served data (more ++ [ck]) 0 { (s.dispatch i).setKind .write false data.length with
        bus := b1
        crc := crcFold (crcFold (opcodeOf s.cfg i) sel) trk
        latch := { ((s.dispatch i).setKind .write false data.length).latch with
          sel := sel, drive := selDrive sel, sector := selSector s.cfg.secw data.length sel, track := trk } } o1
  have key : ∃ b3, (blockPayload .write data.length { (s.dispatch i).setKind .write false data.length with
        bus := b1
        crc := crcFold (crcFold (opcodeOf s.cfg i) sel) trk
        latch := { ((s.dispatch i).setKind .write false data.length).latch with
          sel := sel, drive := selDrive sel, sector := selSector s.cfg.secw data.length sel, track := trk } }) =
      .done () { (s.dispatch i).setKind .write false data.length with
        bus := b3
        crc := crcFoldAll (opcodeOf s.cfg i) (sel :: trk :: (data ++ more))
        buf := bufWrite s.buf 0 data
        latch := { ((s.dispatch i).setKind .write false data.length).latch with
          sel := sel, drive := selDrive sel, sector := selSector s.cfg.secw data.length sel, track := trk } } ∧
      offers s.cfg.tXfer [ck] b3.host = some m ∧
      b3.wire = ((sel :: trk :: (data ++ more)).map WireEvent.rx).reverse ++ s.bus.wire := by
    by_cases hp : data.length = 512
    · rw [if_pos hp] at hm
      obtain ⟨x, rfl⟩ := List.length_eq_one_iff.1 hm
      obtain ⟨b3, e3, o3, w3, -⟩ := recvSkip_served [x] [ck] { (s.dispatch i).setKind .write false data.length with
        bus := b2
        crc := crcFoldAll (crcFold (crcFold (opcodeOf s.cfg i) sel) trk) data
        buf := bufWrite s.buf 0 data
        latch := { ((s.dispatch i).setKind .write false data.length).latch with
          sel := sel, drive := selDrive sel, sector := selSector s.cfg.secw data.length sel, track := trk } } o2
      refine ⟨b3, ?_, o3, ?_⟩
      · refine (if_pos rfl).trans ((Progress.bind_of_done e2 _).trans ((if_pos hp).trans (e3.trans ?_)))
        simp only [crcFoldAll_cons, crcFoldAll_append]
      · rw [w3]; simp only; rw [w2]; simp only; rw [w1]; simp
    · rw [if_neg hp] at hm
      obtain rfl := List.length_eq_zero_iff.1 hm
      refine ⟨b2, ?_, o2, ?_⟩
      · refine (if_pos rfl).trans ((Progress.bind_of_done e2 _).trans ((if_neg hp).trans ?_))
        simp only [crcFoldAll_cons, List.append_nil]
        rfl
      · rw [w2]; simp only; rw [w1]; simp
  obtain ⟨b3, e3, o3, w3⟩ := key
  obtain ⟨b, l, e4, t4, w4⟩ := blockTail_write (n := data.length) (v := data) (ck := ck) (h' := h') (m := m) (s :=
      { (s.dispatch i).setKind .write false data.length with
        bus := b3
        crc := crcFoldAll (opcodeOf s.cfg i) (sel :: trk :: (data ++ more))
        buf := bufWrite s.buf 0 data
        latch := { ((s.dispatch i).setKind .write false data.length).latch with
          sel := sel, drive := selDrive sel, sector := selSector s.cfg.secw data.length sel, track := trk } })
     (bufWrite_take _ hn) rfl o3 (by subst hck; exact close_checksum _ _) ht
  have hw := writeColl_outside s.coll (selDrive sel) (byteOffset .write trk (selSector s.cfg.secw data.length sel)) data
  refine ⟨_, _, hx, (if_neg (by rw [ha]; decide)).trans ((Progress.bind_of_done e1 _).trans
     ((Progress.bind_of_done e3 _).trans e4)), t4, ?_, rfl, rfl, rfl, fun v h1 h2 h3 =>
       ⟨⟨h1, h2⟩, h3, h3 ▸ hw.1, h3 ▸ hw.2⟩⟩
  refine w4.trans ?_
  refine (congrArg (_ ++ ·) w3).trans ?_
  simp [transcript]

theorem Reaches.fill {i : Instr} {s : State} {k : Nat} {sel trk ck : Byte} {h' : List Sample}
    (hx : exec i s = runHandler i (blockIO .format false 0) s)
    (hck : crcFold (crcFold (crcFold (opcodeOf s.cfg i) sel) trk) ck = 0)
    (hs : serves s.cfg.tXfer [sel, trk, ck] (k + 1) s.bus.host h') :
    Reaches i s [sel, trk, ck] (formatReply s.coll (selDrive sel) (trk.toNat * 4608)) k h' fun t =>
      keepsPlace s t ∧ t.coll = formatColl s.coll (selDrive sel) (trk.toNat * 4608) := by
  obtain ⟨m, ho, ht⟩ := hs
  obtain ⟨b1, e1, o1, w1, -⟩ := blockAddress_served (n := 0) (s := (s.dispatch i).setKind .format false 0) ho
  obtain ⟨b, l, e2, t2, w2⟩ := blockTail_format (n := 0) (s := { (s.dispatch i).setKind .format false 0 with
        bus := b1
        crc := crcFold (crcFold (opcodeOf s.cfg i) sel) trk
        latch := { ((s.dispatch i).setKind .format false 0).latch with
          sel := sel, drive := selDrive sel, sector := selSector s.cfg.secw 0 sel, track := trk } })
       o1 hck ht
  refine ⟨_, _, hx, (if_neg (by decide)).trans ((Progress.bind_of_done e1 _).trans e2), t2, ?_, rfl, rfl, rfl,
    fun v h1 h2 h3 => ⟨⟨h1, h2⟩, h3⟩⟩
  refine w2.trans ?_
  refine (congrArg (_ ++ ·) w1).trans ?_
  simp [transcript]

/-- One operand byte and the close-out. -/
theorem arg_close_served {s : State} {a ck : Byte} {m h' : List Sample} {n : Nat}
    (ho : offers s.cfg.tXfer [a, ck] s.bus.host = some m) (hck : crcFold (crcFold s.crc a) ck = 0)
    (ht : takes s.cfg.tXfer (n + 1) m = some h') :
    ∃ b1 b2, recvArg s = .done a { s with bus := b1, crc := crcFold s.crc a } ∧
      closeOut { s with bus := b1, crc := crcFold s.crc a } = .done () { s with bus := b2, crc := 0 } ∧
      takes s.cfg.tXfer n b2.host = some h' ∧
      b2.wire = .tx s.cfg.bAck true :: .rx ck :: .rx a :: s.bus.wire := by
  obtain ⟨b1, e1, o1, w1, -⟩ := recvArg_served ho
  obtain ⟨b2, e2, t2, w2, -⟩ := closeOut_served (s := { s with bus := b1, crc := crcFold s.crc a }) o1 ht hck
  exact ⟨b1, b2, e1, e2, t2, by rw [w2, w1]⟩

theorem xor_close1 (a b : Byte) : crcFold (crcFold a b) (a ^^^ b) = 0 := by
  unfold crcFold; simp

theorem chdrvHandler_keeps (s : State) : Transferred s (chdrvHandler s).at :=
  Transferred.bind (recvArg_keeps s) fun drv t => Transferred.bind (closeOut_keeps t) fun _ u =>
    (Transferred.local u u.crc u.buf _).trans (State.send_keeps (u.setResult (chdrvResult u.coll drv)) _ _)

theorem legacyHandler_keeps (row : LegRow) (s : State) : Transferred s (legacyHandler row s).at :=
  Transferred.bind (recvSkip_keeps row.args s) fun _ t => Transferred.bind (closeOut_keeps t) fun _ u =>
    sendZeros_keeps row.zeros u

theorem getpathHandler_keeps (s : State) : Transferred s (getpathHandler s).at :=
  Transferred.bind (recvArg_keeps s) fun drv t => Transferred.bind (closeOut_keeps t) fun _ u => by
    split
    · exact sendResult_keeps _ u
    · exact Transferred.bind (sendResult_keeps _ u) fun _ v => sendFramed_keeps _ v

theorem getcwdHandler_keeps (s : State) : Transferred s (getcwdHandler s).at :=
  Transferred.bind (closeOut_keeps s) fun _ u => sendFramed_keeps _ u

theorem infoHandler_keeps (s : State) : Transferred s (infoHandler s).at :=
  Transferred.bind (recvArg_keeps s) fun _ t => Transferred.bind (closeOut_keeps t) fun _ u => sendFramed_keeps _ u

/-- A completed handler made of transfers only. -/
theorem Completes.quiet {i : Instr} {s : State} {h : State → Progress Unit} {ins outs : List Byte} {h' : List Sample}
    {t : State} (hx : exec i s = runHandler i h s) (ht : h (s.dispatch i) = .done () t)
    (hk : Transferred (s.dispatch i) (h (s.dispatch i)).at)
    (hw : t.bus.wire = transcript ins outs ++ s.bus.wire) (hh : t.bus.host = h') :
    Completes i s ins outs h' fun t => keepsPlace s t ∧ t.coll = s.coll := by
  rw [ht] at hk
  exact Completes.of_done hx ht hw hh hk.link hk.cfg hk.between ⟨⟨hk.cwd, hk.dircur⟩, hk.coll⟩

theorem getpathPayload_length (root : Path) (x : Slot) : (getpathPayload root x).length ≤ 65 := by
  unfold getpathPayload trunc63 lenPrefixed
  split
  · simp [WIRE_STR_MAX]; omega
  · simp

theorem recvStr_served {bs cs : List Byte} {s : State} {h : List Sample} (hl : bs.length ≤ 512)
    (ho : offers s.cfg.tXfer (bs ++ cs) s.bus.host = some h) :
    ∃ b', recvStr bs.length s =
        .done bs { s with bus := b', crc := crcFoldAll s.crc bs, buf := bufWrite s.buf 0 bs } ∧
      offers s.cfg.tXfer cs b'.host = some h ∧ b'.wire = (bs.map WireEvent.rx).reverse ++ s.bus.wire := by
  obtain ⟨b, e, o, w, -⟩ := recvBuf_served bs cs 0 s ho
  refine ⟨b, (Progress.bind_of_done e _).trans ?_, o, w⟩
  have := bufWrite_take (bs := bs) s.buf hl
  exact congrArg (Progress.done · _) this

/-- A length byte, a string and the close-out. -/
theorem str_close_served {s : State} {p : List Byte} {L ck : Byte} {m h' : List Sample} {n : Nat} (hl : L.toNat = p.length)
    (ho : offers s.cfg.tXfer (L :: (p ++ [ck])) s.bus.host = some m) (hck : crcFold (crcFoldAll s.crc (L :: p)) ck = 0)
    (ht : takes s.cfg.tXfer (n + 1) m = some h') :
    ∃ b1 b2 b3, recvArg s = .done L { s with bus := b1, crc := crcFold s.crc L } ∧
      recvStr L.toNat { s with bus := b1, crc := crcFold s.crc L } =
        .done p { s with bus := b2, crc := crcFoldAll s.crc (L :: p), buf := bufWrite s.buf 0 p } ∧
      closeOut { s with bus := b2, crc := crcFoldAll s.crc (L :: p), buf := bufWrite s.buf 0 p } =
        .done () { s with bus := b3, crc := 0, buf := bufWrite s.buf 0 p } ∧
      takes s.cfg.tXfer n b3.host = some h' ∧
      b3.wire = .tx s.cfg.bAck true :: (((L :: (p ++ [ck])).map WireEvent.rx).reverse ++ s.bus.wire) := by
  obtain ⟨b1, e1, o1, w1, -⟩ := recvArg_served ho
  have hp : p.length ≤ 512 := by rw [← hl]; have := L.isLt; omega
  obtain ⟨b2, e2, o2, w2⟩ := recvStr_served (s := { s with bus := b1, crc := crcFold s.crc L }) hp o1
  obtain ⟨b3, e3, t3, w3, -⟩ := closeOut_served (s :=
      { s with bus := b2, crc := crcFoldAll s.crc (L :: p), buf := bufWrite s.buf 0 p }) o2 ht hck
  exact ⟨b1, b2, b3, e1, hl ▸ e2, e3, t3, by rw [w3]; dsimp only; rw [w2]; dsimp only; rw [w1]; simp⟩

theorem chdirHandler_done {s t1 t2 t3 u : State} {L r : Byte} {p : Path} (e1 : recvArg s = .done L t1)
    (e2 : recvStr L.toNat t1 = .done p t2) (e3 : closeOut t2 = .done () t3) (e4 : chdirAct L p t3 = (r, u)) :
    chdirHandler s = sendResult r u :=
  (Progress.bind_of_done e1 _).trans ((Progress.bind_of_done e2 _).trans ((Progress.bind_of_done e3 _).trans
    (by rw [e4])))

theorem createHandler_done {s t1 t2 t3 : State} {L r : Byte} {p : Path} {c : Coll} (e1 : recvArg s = .done L t1)
    (e2 : recvStr L.toNat t1 = .done p t2) (e3 : closeOut t2 = .done () t3) (e4 : createAct L p t3 = (r, c)) :
    createHandler s = sendResult r { t3 with coll := c } :=
  (Progress.bind_of_done e1 _).trans ((Progress.bind_of_done e2 _).trans ((Progress.bind_of_done e3 _).trans
    (by rw [e4])))

theorem lengthByte_toNat {p : Path} (h : p.length < 256) : (BitVec.ofNat 8 p.length).toNat = p.length := by
  rw [BitVec.toNat_ofNat]; exact Nat.mod_eq_of_lt h

theorem chdirAct_cases (u : State) (p : Path) (hp : p.length < 256) :
    let new := joinPath u.cfg.root u.cfg.sep u.cwd p
    let act : Byte × Path :=
      if 63 < p.length then (RC_LONGPATH, u.cwd)
      else if p = [] ∨ p = [0x2E] then (RC_OK, u.cwd)
      else if p = [0x2E, 0x2E] then (RC_OK, parentPath u.cfg.root u.cfg.sep u.cwd)
      else if 64 < new.length then (RC_LONGPATH, u.cwd)
      else if (u.coll.chdirProbe new).1 then (RC_OK, new)
      else (RC_NOPATH, u.cwd)
    ∃ c, chdirAct (BitVec.ofNat 8 p.length) p u = (act.1, { u with cwd := act.2, coll := c }) ∧
      c.slots = u.coll.slots ∧ c.files = u.coll.files ∧ c.dirs = u.coll.dirs := by
  have hL : (BitVec.ofNat 8 p.length).toNat = p.length := lengthByte_toNat hp
  have h0 : (BitVec.ofNat 8 p.length = 0) ↔ p = [] := by
    constructor
    · intro h; have := congrArg BitVec.toNat h; rw [hL] at this; exact List.length_eq_zero_iff.1 this
    · rintro rfl; rfl
  dsimp only
  unfold chdirAct
  by_cases c1 : 63 < p.length
  · rw [if_pos (show WIRE_STR_MAX < (BitVec.ofNat 8 p.length).toNat by rw [hL]; exact c1), if_pos c1]; exact ⟨u.coll,
        rfl, rfl, rfl, rfl⟩
  rw [if_neg (show ¬WIRE_STR_MAX < (BitVec.ofNat 8 p.length).toNat by rw [hL]; exact c1), if_neg c1]
  by_cases c2 : p = [] ∨ p = [0x2E]
  · rw [if_pos c2, if_pos (show BitVec.ofNat 8 p.length = 0 ∨ p = dotName from c2.imp h0.2 id)]; exact ⟨u.coll, rfl,
        rfl, rfl, rfl⟩
  rw [if_neg c2, if_neg (show ¬(BitVec.ofNat 8 p.length = 0 ∨ p = dotName) from fun h => c2 (h.imp h0.1 id))]
  by_cases c3 : p = [0x2E, 0x2E]
  · rw [if_pos c3, if_pos (show p = dotDotName from c3)]; exact ⟨u.coll, rfl, rfl, rfl, rfl⟩
  rw [if_neg c3, if_neg (show ¬(p = dotDotName) from c3)]
  by_cases c4 : 64 < (joinPath u.cfg.root u.cfg.sep u.cwd p).length
  · rw [if_pos (show CWD_CAP < _ from c4), if_pos c4]; exact ⟨u.coll, rfl, rfl, rfl, rfl⟩
  rw [if_neg (show ¬CWD_CAP < _ from c4), if_neg c4]
  by_cases c5 : (u.coll.chdirProbe (joinPath u.cfg.root u.cfg.sep u.cwd p)).1 = true
  · rw [if_pos c5, if_pos c5]; exact ⟨_, rfl, rfl, rfl, rfl⟩
  · rw [if_neg c5, if_neg c5]; exact ⟨_, rfl, rfl, rfl, rfl⟩

theorem createAct_cases (u : State) (p full : Path) (r : Byte) (hp : p.length < 256)
    (hfull : full = joinPath u.cfg.root u.cfg.sep u.cwd (if endsExt p then p else p ++ IMG_EXT))
    (hr : r = if p.length ≤ 63 ∧ full.length ≤ 255 then (if u.coll.createAnswer then RC_OK else RC_CREATERR)
      else RC_LONGPATH) :
    ∃ c, createAct (BitVec.ofNat 8 p.length) p u = (r, c) ∧
      c.slots = u.coll.slots ∧ c.dirs = u.coll.dirs ∧
      (r = RC_OK → (∃ m, fileLookup c.files full = some m ∧ ∀ a, Memory.read m a = 0xE5) ∧
        ∀ q, q ≠ full → fileLookup c.files q = fileLookup u.coll.files q) ∧
      (r ≠ RC_OK → c.files = u.coll.files) := by
  have hL : (BitVec.ofNat 8 p.length).toNat = p.length := lengthByte_toNat hp
  unfold createAct createName
  rw [← hfull]
  by_cases c1 : 63 < p.length
  · rw [if_pos (show WIRE_STR_MAX < (BitVec.ofNat 8 p.length).toNat by rw [hL]; exact c1)]
    have hr : r = RC_LONGPATH := hr.trans (if_neg (fun h => by have := h.1; omega))
    rw [hr]; exact ⟨u.coll, rfl, rfl, rfl, fun h => absurd h (by decide), fun _ => rfl⟩
  rw [if_neg (show ¬WIRE_STR_MAX < (BitVec.ofNat 8 p.length).toNat by rw [hL]; exact c1)]
  by_cases c2 : 255 < full.length
  · have hr : r = RC_LONGPATH := hr.trans (if_neg (fun h => by have := h.2; omega))
    rw [hr]; exact ⟨u.coll, if_pos c2, rfl, rfl, fun h => absurd h (by decide), fun _ => rfl⟩
  have hr : r = if u.coll.createAnswer then RC_OK else RC_CREATERR := hr.trans (if_pos ⟨by omega, by omega⟩)
  have hd := Coll.createImage_dirs u.coll full
  rw [hr]
  refine ⟨(u.coll.createImage full).2, if_neg c2, hd.2.2, hd.1, ?_, ?_⟩
  · intro hr
    have hc : u.coll.createAnswer = true := by
      by_contra h; rw [if_neg h] at hr; exact absurd hr (by decide)
    have : (u.coll.createImage full).2.files = filePut u.coll.files full [] := by
      unfold Coll.createImage; dsimp only; rw [if_pos hc]
    rw [this]
    exact ⟨⟨[], fileLookup_filePut_same _ _ _, fun _ => rfl⟩, fun q hq => fileLookup_filePut_other hq _ _⟩
  · intro hr
    have hc : ¬ u.coll.createAnswer = true := fun h => by rw [if_pos h] at hr; exact absurd rfl hr
    unfold Coll.createImage; dsimp only; rw [if_neg hc]; rfl

theorem dirHandler_done {s t1 t2 u : State} {flag : Byte} {n : Path} (e1 : recvArg s = .done flag t1)
    (e2 : closeOut t1 = .done () t2) (e3 : (if flag = 0 then dirReset t2 else dirAdvance t2) = (n, u)) :
    dirHandler s = sendFramed (lenPrefixed (trunc63 n)) u :=
  (Progress.bind_of_done e1 _).trans ((Progress.bind_of_done e2 _).trans (by rw [e3]))

theorem trunc63_length (p : Path) : (trunc63 p).length ≤ 63 := by
  unfold trunc63; rw [List.length_take]; exact Nat.min_le_left _ _

/-- A framed string whose first byte the host does not take. -/
theorem sendFramed_missed {s : State} {v : Byte} {vs : List Byte} (hl : (v :: vs).length ≤ 512)
    (hm : misses .ibf s.cfg.tXfer s.bus.host) :
    ∃ b' f, sendFramed (v :: vs) s = .abort .txTimeout { s with bus := b', crc := 0, buf := f } ∧
      b'.wire = .tx v false :: s.bus.wire := by
  obtain ⟨b, e, w⟩ := sendByte_missed (s := { s with buf := bufWrite s.buf 0 (v :: vs), crc := 0 }) v hm
  refine ⟨b, bufWrite s.buf 0 (v :: vs), ?_, w⟩
  have hb : ({ s with buf := bufWrite s.buf 0 (v :: vs) } : State).bufTake (v :: vs).length = v :: vs :=
    bufWrite_take s.buf hl
  unfold sendFramed sendPayload
  rw [hb, sendStream, e]
  rfl

/-- `DIR` up to its reply, with `n` bytes that the host takes from there on. -/
theorem listing_reaches {s : State} {flag : Byte} {n : Path} {k : Nat} {h' : List Sample} {P : State → Prop}
    (hs : serves s.cfg.tXfer [flag, s.cfg.opDir ^^^ flag] (k + 1) s.bus.host h')
    (hu : ∀ b, ∃ u,
        (if flag = 0 then dirReset { s.dispatch .dir with bus := b, crc := 0 }
          else dirAdvance { s.dispatch .dir with bus := b, crc := 0 }) = (n, u) ∧
      u.bus = b ∧ u.link = s.link ∧ u.cfg = s.cfg ∧ u.between = s.between ∧
      ∀ v : State, v.cwd = u.cwd → v.dircur = u.dircur → v.coll = u.coll → P v) :
    ∃ u, dirHandler (s.dispatch .dir) = sendFramed (lenPrefixed (trunc63 n)) u ∧
      takes u.cfg.tXfer k u.bus.host = some h' ∧
      u.bus.wire = transcript [flag, s.cfg.opDir ^^^ flag] [s.cfg.bAck] ++ s.bus.wire ∧
      u.link = s.link ∧ u.cfg = s.cfg ∧ u.between = s.between ∧
      ∀ v : State, v.cwd = u.cwd → v.dircur = u.dircur → v.coll = u.coll → P v := by
  obtain ⟨m, ho, ht⟩ := hs
  obtain ⟨b1, b2, e1, e2, k2, w2⟩ := arg_close_served (s := s.dispatch .dir) (n := k) ho (xor_close1 _ _) ht
  obtain ⟨u, eu, hb, hl, hc, hbt, hP⟩ := hu b2
  subst hb
  exact ⟨u, dirHandler_done e1 e2 eu, by rw [hc]; exact k2, by rw [w2]; simp [transcript], hl, hc, hbt, hP⟩

/-- `DIR` with a host that takes its whole reply. -/
theorem Completes.listing {s : State} {flag : Byte} {name n : Path} {h' : List Sample} {P : State → Prop}
    (hs : serves s.cfg.tXfer [flag, s.cfg.opDir ^^^ flag] (3 + name.length) s.bus.host h')
    (hn : name = trunc63 n)
    (hu : ∀ b, ∃ u,
        (if flag = 0 then dirReset { s.dispatch .dir with bus := b, crc := 0 }
          else dirAdvance { s.dispatch .dir with bus := b, crc := 0 }) = (n, u) ∧
      u.bus = b ∧ u.link = s.link ∧ u.cfg = s.cfg ∧ u.between = s.between ∧
      ∀ v : State, v.cwd = u.cwd → v.dircur = u.dircur → v.coll = u.coll → P v) :
    Completes .dir s [flag, s.cfg.opDir ^^^ flag] (s.cfg.bAck :: framed (BitVec.ofNat 8 name.length :: name)) h' P := by
  obtain ⟨u, key, k2, w2, hl, hc, hbt, hP⟩ := listing_reaches (k := name.length + 2)
    (by rw [show name.length + 2 + 1 = 3 + name.length by omega]; exact hs) hu
  have hlen : name.length ≤ 63 := hn ▸ trunc63_length n
  rw [← hn] at key
  obtain ⟨b3, f, e3, k3, w3, -⟩ := sendFramed_served (s := u) (v := lenPrefixed name) (m := 0) (h' := h')
    (by simp [lenPrefixed]; omega) k2
  refine Completes.of_done (h := dirHandler) rfl (key.trans e3) ?_ (takes_zero k3) hl hc hbt (hP _ rfl rfl rfl)
  rw [w3, w2]; simp [transcript, lenPrefixed]

/-- `DIR` with a host that does not take the length byte: the cursor has moved (R243, R325). -/
theorem StopsAt.listing {s : State} {flag : Byte} {name n : Path} {P : State → Prop}
    (hs : servesOnly s.cfg.tXfer [flag, s.cfg.opDir ^^^ flag] 1 s.bus.host) (hn : name = trunc63 n)
    (hu : ∀ b, ∃ u,
        (if flag = 0 then dirReset { s.dispatch .dir with bus := b, crc := 0 }
          else dirAdvance { s.dispatch .dir with bus := b, crc := 0 }) = (n, u) ∧
      u.bus = b ∧ u.link = s.link ∧ u.cfg = s.cfg ∧ u.between = s.between ∧
      ∀ v : State, v.cwd = u.cwd → v.dircur = u.dircur → v.coll = u.coll → P v) :
    StopsAt .dir s [flag, s.cfg.opDir ^^^ flag] [s.cfg.bAck] (BitVec.ofNat 8 name.length) P := by
  obtain ⟨h', hs, hm⟩ := hs
  obtain ⟨u, key, k2, w2, hl, hc, hbt, hP⟩ := listing_reaches (k := 0) hs hu
  have hlen : name.length ≤ 63 := hn ▸ trunc63_length n
  rw [← hn] at key
  obtain ⟨b3, f, e3, w3⟩ := sendFramed_missed (s := u) (v := BitVec.ofNat 8 name.length) (vs := name)
    (by simp; omega) (by rw [hc, takes_zero k2]; exact hm)
  exact StopsAt.of_abort (h := dirHandler) rfl (key.trans e3) (w3.trans (congrArg _ w2)) hl hc hbt (hP _ rfl rfl rfl)

/-- The entries of the handle just opened. -/
theorem Coll.dirEntries_head {c : Coll} {h : Nat} {es : List Entry} {rest : List OpenDir} (hd : c.dirs = ⟨h, es⟩ :: rest) :
    c.dirEntries h = es := by
  simp [Coll.dirEntries, hd]

/-- What opening a directory does: a new handle with the entries the collaborator lists, or none (R44). -/
theorem Coll.dirOpen_cases (c : Coll) (p : Path) :
    (c.dirOpen p).2.slots = c.slots ∧ (c.dirOpen p).2.files = c.files ∧
    ((∃ es, c.openAnswer = some es ∧ (c.dirOpen p).1 = some c.nextHandle ∧
        (c.dirOpen p).2.dirs = ⟨c.nextHandle, es⟩ :: c.dirs) ∨
      (c.openAnswer = none ∧ (c.dirOpen p).1 = none ∧ (c.dirOpen p).2.dirs = c.dirs)) := by
  unfold Coll.dirOpen
  rcases h : c.openAnswer with _ | es
  · exact ⟨rfl, rfl, .inr ⟨rfl, rfl, rfl⟩⟩
  · exact ⟨rfl, rfl, .inl ⟨es, rfl, rfl, rfl⟩⟩

/-- `DirReset()`: the collaborators after the cursor that was open is closed. -/
theorem dirReset_eq (u : State) :
    let c := match u.dircur with | some h => u.coll.dirClose h | none => u.coll
    dirReset u = (if u.cwd = u.cfg.root then bracketed dotName else bracketed dotDotName,
      { u with coll := (c.dirOpen u.cwd).2, dircur := (c.dirOpen u.cwd).1 }) := by
  unfold dirReset dirDiscard
  cases u.dircur <;> rfl

theorem dirAdvance_cases (u : State) :
    let found := u.dircur.bind fun h => (dirScan (u.coll.dirEntries h)).1
    ∃ c, dirAdvance u = (found.elim [] fun r => r.1,
        { u with coll := c, dircur := if found.isSome then u.dircur else none }) ∧
      c.slots = u.coll.slots ∧ c.files = u.coll.files ∧
      (∀ h n rest, u.dircur = some h → found = some (n, rest) →
        c.dirs = u.coll.dirs.map fun o => if o.handle = h then { o with entries := rest } else o) ∧
      (∀ h, u.dircur = some h → found = none → c.dirs = u.coll.dirs.filter fun o => o.handle ≠ h) := by
  unfold dirAdvance
  rcases hcur : u.dircur with _ | h
  · refine ⟨u.coll, ?_, rfl, rfl, by simp, by simp⟩
    have : u = { u with dircur := none } := by rw [← hcur]
    exact congrArg (Prod.mk _) this
  · rcases hsc : dirScan (u.coll.dirEntries h) with ⟨_ | ⟨n, es⟩, k⟩
    · refine ⟨({ u.coll.askNext h k with draws := u.coll.draws + 1 } : Coll).dirClose h, ?_, rfl, rfl, ?_, ?_⟩
      · simp only [Option.bind_some, hsc]
        rfl
      · intro h' n rest _ hx; simp [hsc] at hx
      · intro h' hx _; simp only [Option.some.injEq] at hx; subst hx; rfl
    · refine ⟨({ u.coll.askNext h k with draws := u.coll.draws + 1 } : Coll).setDirEntries h es, ?_, rfl, rfl, ?_, ?_⟩
      · simp only [Option.bind_some, hsc, Option.isSome_some, if_true]
        rfl
      · intro h' n rest hx hy
        simp only [Option.some.injEq] at hx; subst hx
        simp only [Option.bind_some, hsc, Option.some.injEq, Prod.mk.injEq] at hy
        obtain ⟨rfl, rfl⟩ := hy
        rfl
      · intro h' hx hy
        simp only [Option.some.injEq] at hx; subst hx
        simp [hsc] at hy

end Sys2Proof.Machine
end

