-- ==== Sys2Proof/Laws/CutShort.lean ====
section
/-! SUPPORT. What a command does with a host that does not see its inbound part through: `Gathers` says of a receiving
part that it takes the bytes it is offered, and sends nothing when one does not come; `Inbound` says of a handler that it
receives a command's body and closes it out, with `B_NAK` for a wrong checksum byte and for none; `exec_inbound` says it of
every command. -/

namespace Sys2Proof.Machine

/-- A receiving part whose bytes are `bs`: offered these it goes on, with an answer that `R` holds of; offered fewer and
then none it aborts, and nothing is sent. -/
def Gathers {α : Type} (R : α → Prop) (bs : List Byte) (s : State) (p : Progress α) : Prop :=
  (∀ cs h, offers s.cfg.tXfer (bs ++ cs) s.bus.host = some h →
    ∃ a t, p = .done a t ∧ R a ∧ Transferred s t ∧ offers s.cfg.tXfer cs t.bus.host = some h ∧
      t.crc = crcFoldAll s.crc bs ∧ t.bus.wire = (bs.map WireEvent.rx).reverse ++ s.bus.wire) ∧
  (∀ q h, q <+: bs → q ≠ bs → offers s.cfg.tXfer q s.bus.host = some h → misses .obf s.cfg.tXfer h →
    ∃ t, p = .abort .rxTimeout t ∧ Transferred s t ∧
      t.bus.wire = .rxTimeout :: ((q.map WireEvent.rx).reverse ++ s.bus.wire))

/-- A handler that receives the body `bs` and closes it out. -/
def Inbound (bs : List Byte) (s : State) (p : Progress Unit) : Prop :=
  (∀ ck h, offers s.cfg.tXfer (bs ++ [ck]) s.bus.host = some h → crcFold (crcFoldAll s.crc bs) ck ≠ 0 →
    ∃ t taken, p = .abort .crcMismatch t ∧ Transferred s t ∧
      t.bus.wire = .tx s.cfg.bNak taken :: (((bs ++ [ck]).map WireEvent.rx).reverse ++ s.bus.wire)) ∧
  (∀ q h, q <+: bs → offers s.cfg.tXfer q s.bus.host = some h → misses .obf s.cfg.tXfer h →
    ∃ t, p = .abort .rxTimeout t ∧ Transferred s t ∧
      (q ≠ bs → t.bus.wire = .rxTimeout :: ((q.map WireEvent.rx).reverse ++ s.bus.wire)) ∧
      (q = bs → ∃ taken,
        t.bus.wire = .tx s.cfg.bNak taken :: .rxTimeout :: ((q.map WireEvent.rx).reverse ++ s.bus.wire)))

/-- A beginning of `a ++ b` is a proper one of `a`, or `a` and a beginning of `b`. -/
theorem prefix_append_cases {a b q : List Byte} (h : q <+: a ++ b) :
    (q <+: a ∧ q ≠ a) ∨ ∃ r, q = a ++ r ∧ r <+: b := by
  rcases List.prefix_or_prefix_of_prefix h (List.prefix_append a b) with h1 | ⟨r, rfl⟩
  · by_cases e : q = a
    · exact .inr ⟨[], by simp [e], List.nil_prefix⟩
    · exact .inl ⟨h1, e⟩
  · exact .inr ⟨r, rfl, (List.prefix_append_right_inj a).1 h⟩

/-! ## Receiving parts -/

theorem Gathers.bind {α β : Type} {R : α → Prop} {R' : β → Prop} {bs cs : List Byte} {s : State} {p : Progress α}
    {f : α → State → Progress β} (hp : Gathers R bs s p)
    (hf : ∀ a t, R a → Transferred s t → Gathers R' cs t (f a t)) : Gathers R' (bs ++ cs) s (p.bind f) := by
  have go : ∀ ds h, offers s.cfg.tXfer (bs ++ ds) s.bus.host = some h → ∃ a t, p.bind f = f a t ∧ Gathers R' cs t (f a t) ∧
      Transferred s t ∧ offers t.cfg.tXfer ds t.bus.host = some h ∧ t.crc = crcFoldAll s.crc bs ∧
      t.bus.wire = (bs.map WireEvent.rx).reverse ++ s.bus.wire := by
    intro ds h ho
    obtain ⟨a, t, e, hr, k, o, c, w⟩ := hp.1 ds h ho
    exact ⟨a, t, Progress.bind_of_done e f, hf a t hr k, k, k.cfg ▸ o, c, w⟩
  constructor
  · intro ds h ho
    rw [List.append_assoc] at ho
    obtain ⟨a, t, e, g, k, o, c, w⟩ := go _ h ho
    obtain ⟨a', u, e', hr', k', o', c', w'⟩ := g.1 ds h o
    refine ⟨a', u, e.trans e', hr', k.trans k', k.cfg ▸ o', ?_, ?_⟩
    · rw [c', c, crcFoldAll_append]
    · rw [w', w]; simp
  · intro q h hq hne ho hm
    rcases prefix_append_cases hq with ⟨h1, h2⟩ | ⟨r, rfl, h2⟩
    · obtain ⟨t, e, k, w⟩ := hp.2 q h h1 h2 ho hm
      exact ⟨t, by rw [e]; rfl, k, w⟩
    · obtain ⟨a, t, e, g, k, o, c, w⟩ := go r h ho
      obtain ⟨u, e', k', w'⟩ := g.2 r h h2 (fun x => hne (by rw [x])) o (k.cfg.symm ▸ hm)
      exact ⟨u, e.trans e', k.trans k', by rw [w', w]; simp⟩

/-- A part that receives nothing. -/
theorem Gathers.done {α : Type} {R : α → Prop} {s t : State} (a : α) (hr : R a) (k : Transferred s t)
    (hb : t.bus = s.bus) (hc : t.crc = s.crc) : Gathers R [] s (.done a t) := by
  refine ⟨fun cs h ho => ⟨a, t, rfl, hr, k, hb ▸ ho, hc, by rw [hb]; rfl⟩, fun q h hq hne => ?_⟩
  exact absurd (List.prefix_nil.1 hq) hne

/-- Latches and the buffer do not count. -/
theorem Gathers.pre {α : Type} {R : α → Prop} {bs : List Byte} {s u : State} {p : Progress α} (k : Transferred s u)
    (hb : u.bus = s.bus) (hc : u.crc = s.crc) (g : Gathers R bs u p) : Gathers R bs s p := by
  unfold Gathers at g
  rw [k.cfg, hb, hc] at g
  refine ⟨fun cs h ho => ?_, fun q h hq hne ho hm => ?_⟩
  · obtain ⟨a, t, e, hr, k', x⟩ := g.1 cs h ho
    exact ⟨a, t, e, hr, k.trans k', x⟩
  · obtain ⟨t, e, k', w⟩ := g.2 q h hq hne ho hm
    exact ⟨t, e, k.trans k', w⟩

/-- One operand byte. -/
theorem recvArg_gathers (b : Byte) (s : State) : Gathers (· = b) [b] s (recvArg s) := by
  have hk := recvArg_keeps s
  constructor
  · intro cs h ho
    obtain ⟨b', e, o, w, -⟩ := recvArg_served ho
    rw [e] at hk ⊢
    exact ⟨b, _, rfl, rfl, hk, o, rfl, w⟩
  · intro q h hq hne ho hm
    obtain rfl : q = [] := by
      rcases List.prefix_cons_iff.1 hq with h1 | ⟨r, rfl, h2⟩
      · exact h1
      · exact absurd (by rw [List.prefix_nil.1 h2]) hne
    simp only [offers, Option.some.injEq] at ho
    subst ho
    obtain ⟨t, e, w⟩ := recvArg_missed hm
    rw [e] at hk ⊢
    exact ⟨t, rfl, hk, w⟩

/-- Bytes that are discarded. -/
theorem recvSkip_gathers : ∀ (bs : List Byte) (s : State), Gathers (fun _ => True) bs s (recvSkip bs.length s)
  | [], s => Gathers.done () trivial (Transferred.refl s) rfl rfl
  | b :: bs, s => Gathers.bind (recvArg_gathers b s) fun _ t _ _ => recvSkip_gathers bs t

/-- Bytes that go to the buffer. -/
theorem recvBuf_gathers : ∀ (bs : List Byte) (i : Nat) (s : State),
    Gathers (fun _ => True) bs s (recvBuf bs.length i s)
  | [], _, s => Gathers.done () trivial (Transferred.refl s) rfl rfl
  | b :: bs, i, s => Gathers.bind (recvArg_gathers b s) fun a t _ _ =>
      Gathers.pre (Transferred.local t t.crc (t.buf.setIfInBounds i a) t.latch) rfl rfl (recvBuf_gathers bs (i + 1) _)

/-- A string. -/
theorem recvStr_gathers {n : Nat} {bs : List Byte} (h : bs.length = n) (s : State) :
    Gathers (fun _ => True) bs s (recvStr n s) := by
  subst h
  have := Gathers.bind (R' := fun _ : Path => True) (cs := []) (recvBuf_gathers bs 0 s)
    (f := fun _ s => .done (s.bufTake bs.length) s)
    fun _ t _ _ => Gathers.done _ trivial (Transferred.refl t) rfl rfl
  rw [List.append_nil] at this
  exact this

/-! ## Whole inbound parts -/

/-- The close-out ends the inbound part. -/
theorem Inbound.close {f : Unit → State → Progress Unit} (s : State) : Inbound [] s ((closeOut s).bind f) := by
  have hk := closeOut_keeps s
  constructor
  · intro ck h ho hc
    obtain ⟨t, taken, e, w⟩ := closeOut_refused ho hc
    rw [e] at hk ⊢
    exact ⟨t, taken, rfl, hk, w⟩
  · intro q h hq ho hm
    obtain rfl := List.prefix_nil.1 hq
    simp only [offers, Option.some.injEq] at ho
    subst ho
    obtain ⟨t, taken, e, w⟩ := closeOut_missed hm
    rw [e] at hk ⊢
    exact ⟨t, rfl, hk, fun h => absurd rfl h, fun _ => ⟨taken, w⟩⟩

/-- A receiving part before the rest of the inbound part. -/
theorem Inbound.bind {α : Type} {R : α → Prop} {bs cs : List Byte} {s : State} {p : Progress α}
    {f : α → State → Progress Unit} (hp : Gathers R bs s p)
    (hf : ∀ a t, R a → Transferred s t → Inbound cs t (f a t)) : Inbound (bs ++ cs) s (p.bind f) := by
  constructor
  · intro ck h ho hc
    rw [List.append_assoc] at ho
    obtain ⟨a, t, e, hr, k, o, c, w⟩ := hp.1 _ h ho
    obtain ⟨u, taken, e', k', w'⟩ := (hf a t hr k).1 ck h (k.cfg.symm ▸ o) (by rw [c, ← crcFoldAll_append]; exact hc)
    refine ⟨u, taken, (Progress.bind_of_done e f).trans e', k.trans k', ?_⟩
    rw [w', w, k.cfg]; simp
  · intro q h hq ho hm
    rcases prefix_append_cases hq with ⟨h1, h2⟩ | ⟨r, rfl, h2⟩
    · obtain ⟨t, e, k, w⟩ := hp.2 q h h1 h2 ho hm
      refine ⟨t, by rw [e]; rfl, k, fun _ => w, fun x => ?_⟩
      have l1 := h1.length_le
      rw [x, List.length_append] at l1
      have : cs = [] := List.length_eq_zero_iff.1 (by omega)
      exact absurd (by rw [x, this, List.append_nil]) h2
    · obtain ⟨a, t, e, hr, k, o, c, w⟩ := hp.1 r h ho
      obtain ⟨u, e', k', w1, w2⟩ := (hf a t hr k).2 r h h2 (k.cfg.symm ▸ o) (k.cfg.symm ▸ hm)
      refine ⟨u, (Progress.bind_of_done e f).trans e', k.trans k', fun x => ?_, fun x => ?_⟩
      · rw [w1 fun y => x (by rw [y]), w]; simp
      · obtain ⟨taken, w'⟩ := w2 (List.append_cancel_left x)
        exact ⟨taken, by rw [w', w, k.cfg]; simp⟩

theorem Inbound.pre {bs : List Byte} {s u : State} {p : Progress Unit} (k : Transferred s u) (hb : u.bus = s.bus)
    (hc : u.crc = s.crc) (g : Inbound bs u p) : Inbound bs s p := by
  unfold Inbound at g
  rw [k.cfg, hb, hc] at g
  refine ⟨fun ck h ho hx => ?_, fun q h hq ho hm => ?_⟩
  · obtain ⟨t, taken, e, k', w⟩ := g.1 ck h ho hx
    exact ⟨t, taken, e, k.trans k', w⟩
  · obtain ⟨t, e, k', w⟩ := g.2 q h hq ho hm
    exact ⟨t, e, k.trans k', w⟩

/-- One operand byte and the close-out. -/
theorem Inbound.arg (b : Byte) (s : State) (f : Byte → Unit → State → Progress Unit) :
    Inbound [b] s ((recvArg s).bind fun a t => (closeOut t).bind (f a)) :=
  Inbound.bind (recvArg_gathers b s) fun _ t _ _ => Inbound.close t

/-! ## Every command -/

/-- A block command: the address bytes, the payload of a write, the byte after a physical write. -/
theorem blockIO_inbound {f : KindFlags} {boot : Bool} {n : Nat} {addr data more : List Byte} (s : State)
    (ha : argCheckFails f n = false)
    (h1 : if boot then addr = [] else ∃ sel trk, addr = [sel, trk])
    (h2 : if f.fWrite then data.length = n ∧ more.length = (if n = PSEC then 1 else 0) else data = [] ∧ more = []) :
    Inbound (addr ++ (data ++ more)) s (blockIO f boot n s) := by
  have hx : blockIO f boot n s = (blockAddress boot n (s.setKind f boot n)).bind fun _ s =>
      (blockPayload f n s).bind fun _ s =>
        (closeOut s).bind fun _ s => blockReply f n (blockStorage f n s) := if_neg (by rw [ha]; decide)
  rw [hx]
  refine Inbound.pre (u := s.setKind f boot n) (Transferred.local s s.crc s.buf _) rfl rfl
    (Inbound.bind (R := fun _ => True) (bs := addr) (cs := data ++ more) ?_ fun _ t _ _ => ?_)
  · unfold blockAddress
    cases boot
    · obtain ⟨sel, trk, rfl⟩ := h1
      refine Gathers.bind (recvArg_gathers sel _) fun a t _ _ => ?_
      refine Gathers.pre (u := { t with latch :=
        { t.latch with sel := a, drive := selDrive a, sector := selSector t.cfg.secw n a } })
        (Transferred.local t t.crc t.buf _) rfl rfl ?_
      refine Gathers.bind (bs := [trk]) (cs := []) (recvArg_gathers trk _) fun b u _ _ => ?_
      exact Gathers.done () trivial (Transferred.local u u.crc u.buf _) rfl rfl
    · have : addr = [] := h1
      subst this
      exact Gathers.done () trivial (Transferred.local _ _ _ _) rfl rfl
  · have := Inbound.bind (R := fun _ => True) (bs := data ++ more) (cs := []) (s := t) (p := blockPayload f n t)
      (f := fun _ s => (closeOut s).bind fun _ s => blockReply f n (blockStorage f n s)) ?_ fun _ u _ _ => Inbound.close u
    · rw [List.append_nil] at this
      exact this
    · unfold blockPayload
      by_cases hw : f.fWrite = true
      · rw [if_pos hw] at h2 ⊢
        obtain ⟨hd, hm⟩ := h2
        subst hd
        refine Gathers.bind (recvBuf_gathers data 0 t) fun _ u _ _ => ?_
        by_cases hp : data.length = PSEC
        · rw [if_pos hp] at hm ⊢
          rw [← hm]
          exact recvSkip_gathers more u
        · rw [if_neg hp] at hm ⊢
          rw [List.length_eq_zero_iff.1 hm]
          exact Gathers.done () trivial (Transferred.refl u) rfl rfl
      · rw [if_neg hw] at h2 ⊢
        obtain ⟨rfl, rfl⟩ := h2
        exact Gathers.done () trivial (Transferred.refl t) rfl rfl

theorem legacyHandler_inbound {row : LegRow} {args : List Byte} (h : args.length = row.args) (s : State) :
    Inbound args s (legacyHandler row s) := by
  unfold legacyHandler
  rw [← h]
  have := Inbound.bind (cs := []) (recvSkip_gathers args s)
    (f := fun _ s => (closeOut s).bind fun _ s => sendZeros row.zeros s) fun _ t _ _ => Inbound.close t
  rw [List.append_nil] at this
  exact this

/-- A length byte, the string and the close-out. -/
theorem Inbound.str {p : Path} (hp : p.length < 256) (s : State) (f : Byte → Path → Unit → State → Progress Unit) :
    Inbound (BitVec.ofNat 8 p.length :: p) s ((recvArg s).bind fun L t => (recvStr L.toNat t).bind fun q t =>
      (closeOut t).bind (f L q)) := by
  refine Inbound.bind (bs := [_]) (recvArg_gathers _ s) fun L t hL _ => ?_
  subst hL
  have := Inbound.bind (cs := []) (recvStr_gathers (lengthByte_toNat hp).symm t)
    (f := fun q t => (closeOut t).bind (f (BitVec.ofNat 8 p.length) q)) fun _ u _ _ => Inbound.close u
  rw [List.append_nil] at this
  exact this

theorem mountHandler_inbound {drv ro len : Byte} {p : Path} (hp : p.length = mountPathLen len) (s : State) :
    Inbound (drv :: ro :: len :: p) s (mountHandler s) := by
  refine Inbound.bind (bs := [drv]) (recvArg_gathers _ s) fun drv t _ _ => ?_
  refine Inbound.bind (bs := [ro]) (recvArg_gathers _ t) fun ro t _ _ => ?_
  refine Inbound.bind (bs := [len]) (recvArg_gathers _ t) fun L t hL _ => ?_
  subst hL
  have hg : Gathers (fun _ => True) p t (mountString L t) := by
    unfold mountString
    unfold mountPathLen at hp
    split at hp
    · rename_i h
      rw [if_pos h, List.length_eq_zero_iff.1 hp]
      exact Gathers.done _ trivial (Transferred.refl t) rfl rfl
    · rename_i h
      rw [if_neg h]
      exact recvStr_gathers hp t
  have := Inbound.bind (cs := []) hg (f := fun p s => (closeOut s).bind fun _ s =>
    (fun r => sendResult r.1 { s with coll := r.2 }) (mountAct s drv ro L p)) fun _ u _ _ => Inbound.close u
  rw [List.append_nil] at this
  exact this

/-- Every command runs a handler that receives the body of its frame and closes it out (R91, R95). -/
theorem exec_inbound (m : Command) (s : State) (hv : s.cfg.Valid) (hw : m.wellFormed s.cfg = true)
    (hc : Instr.isCommand m.instr = true) :
    ∃ p, exec m.instr s = .next p.leave ∧ Inbound m.body (s.dispatch m.instr) p := by
  cases m
  case idle => cases hc
  case unrecognised => cases hc
  case boot =>
    refine ⟨_, rfl, blockIO_inbound (boot := true) (addr := []) (data := []) (more := []) _ ?_ rfl ⟨rfl, rfl⟩⟩
    have := hv.2.2.2.2.1
    simp [argCheckFails, KindFlags.population, KindFlags.read]; omega
  case lread sel trk =>
    exact ⟨_, rfl, blockIO_inbound (boot := false) (addr := [sel, trk]) (data := []) (more := []) _ (by decide) ⟨_, _, rfl⟩ ⟨rfl, rfl⟩⟩
  case pread sel trk =>
    exact ⟨_, rfl, blockIO_inbound (boot := false) (addr := [sel, trk]) (data := []) (more := []) _ (by decide) ⟨_, _, rfl⟩ ⟨rfl, rfl⟩⟩
  case format sel trk =>
    exact ⟨_, rfl, blockIO_inbound (boot := false) (addr := [sel, trk]) (data := []) (more := []) _ (by decide) ⟨_, _, rfl⟩ ⟨rfl, rfl⟩⟩
  case lwrite sel trk data =>
    have hd : data.length = 128 := by simpa [Command.wellFormed, Command.instr, Instr.wellFormed] using hw
    refine ⟨_, rfl, ?_⟩
    have := blockIO_inbound (f := .write) (boot := false) (n := LSEC) (addr := [sel, trk]) (data := data) (more := [])
      (s.dispatch .lwrite) (by decide) ⟨_, _, rfl⟩ ⟨hd, rfl⟩
    rw [List.append_nil] at this
    exact this
  case pwrite sel trk data extra =>
    have hd : data.length = 512 := by simpa [Command.wellFormed, Command.instr, Instr.wellFormed] using hw
    exact ⟨_, rfl, blockIO_inbound (f := .write) (boot := false) (n := PSEC) (addr := [sel, trk]) (data := data)
      (more := [extra]) (s.dispatch .pwrite) (by decide) ⟨_, _, rfl⟩ ⟨hd, rfl⟩⟩
  case chdrv drv => exact ⟨_, rfl, Inbound.arg drv _ _⟩
  case getpath drv => exact ⟨_, rfl, Inbound.arg drv _ _⟩
  case info drv => exact ⟨_, rfl, Inbound.arg drv _ _⟩
  case dir flag => exact ⟨_, rfl, Inbound.arg flag _ _⟩
  case getcwd => exact ⟨_, rfl, Inbound.close _⟩
  case chdir p =>
    have hp : p.length < 256 := by simpa [Command.wellFormed, Command.instr, Instr.wellFormed] using hw
    exact ⟨_, rfl, Inbound.str hp _ _⟩
  case create p =>
    have hp : p.length < 256 := by simpa [Command.wellFormed, Command.instr, Instr.wellFormed] using hw
    exact ⟨_, rfl, Inbound.str hp _ _⟩
  case mount drv ro len p =>
    have hp : p.length = mountPathLen len := by simpa [Command.wellFormed, Command.instr, Instr.wellFormed] using hw
    exact ⟨_, rfl, mountHandler_inbound hp _⟩
  case spd1 k args =>
    have hp : args.length = spdArgs s.cfg k := by
      simp [Command.wellFormed, Command.instr, Instr.wellFormed] at hw; exact hw.2
    refine ⟨_, rfl, legacyHandler_inbound (hp.trans ?_) _⟩
    cases k <;> rfl
  all_goals
    refine ⟨_, rfl, legacyHandler_inbound ?_ _⟩
    simpa [Command.wellFormed, Command.instr, Instr.wellFormed, Command.body] using hw

end Sys2Proof.Machine
end

