-- ==== Sys2Proof/Laws/Ends.lean ====
section
/-! SUPPORT. How a handler can end, said once for all commands. `Handled` splits every handler into receiving, one
action, and sending; `exec_ends` is its form for `exec`; `Wired` says which byte-level events a transfer adds and that
the lines follow them; and each action is shown to keep what `Acted` says. -/

namespace Sys2Proof.Machine

/-! ## One transfer, case by case -/

/-- A `Send` records one event, with its outcome. -/
theorem State.send_wire (s : State) (v : Byte) (T : Nat) : (s.send v T).2.bus.wire = .tx v (s.send v T).1 :: s.bus.wire := (Bus.send_keeps s.cfg v T s.bus).2.2.2.2.1

/-- The three ways a closing `Recv` goes (R126, R127). -/
theorem State.recv_closing (s : State) (T : Nat) :
    (∃ v b, b.wire = .rx v :: s.bus.wire ∧ crcGood (crcFold s.crc v) = true ∧ s.recv T true = (.ok v,
        (({ s with bus := b, crc := crcFold s.crc v } : State).send s.cfg.bAck s.cfg.tXfer).2)) ∨
    (∃ v b, b.wire = .rx v :: s.bus.wire ∧ crcGood (crcFold s.crc v) = false ∧ s.recv T true = (.bad v,
        (({ s with bus := b, crc := crcFold s.crc v } : State).send s.cfg.bNak s.cfg.tXfer).2)) ∨
    (∃ b, b.wire = .rxTimeout :: s.bus.wire ∧ s.recv T true = (.timeout,
        (({ s with bus := b } : State).send s.cfg.bNak s.cfg.tXfer).2)) := by
  have hw := (Bus.latch_keeps s.cfg T s.bus).2.2.2.2.2.1
  unfold State.recv
  rcases hl : s.bus.latch s.cfg T with ⟨_ | v, b⟩
  · rw [hl] at hw; exact .inr (.inr ⟨b, hw, rfl⟩)
  · rw [hl] at hw
    dsimp only
    by_cases h : crcGood (crcFold s.crc v) = true
    · exact .inl ⟨v, b, hw, h, by rw [if_pos rfl, if_pos h]⟩
    · exact .inr (.inl ⟨v, b, hw, by simpa using h, by rw [if_pos rfl, if_neg h]⟩)

/-- The two ways a `Recv` without checking goes (R125, R128). -/
theorem State.recv_open (s : State) (T : Nat) :
    (∃ v b, s.bus.latch s.cfg T = (some v, b) ∧ b.wire = .rx v :: s.bus.wire ∧ s.recv T false = (.ok v,
        { s with bus := b, crc := crcFold s.crc v })) ∨
    (∃ b, s.bus.latch s.cfg T = (none, b) ∧ b.wire = .rxTimeout :: s.bus.wire ∧ s.recv T false = (.timeout,
        { s with bus := b })) := by
  have hw := (Bus.latch_keeps s.cfg T s.bus).2.2.2.2.2.1
  unfold State.recv
  rcases hl : s.bus.latch s.cfg T with ⟨_ | v, b⟩
  · rw [hl] at hw; exact .inr ⟨b, rfl, hw, rfl⟩
  · rw [hl] at hw; exact .inl ⟨v, b, rfl, hw, rfl⟩

/-! ## Receiving, acting, sending -/

/-- How a receiving part may abort: on a byte that did not come, or at a close-out that refused (R270). -/
def ReceiveAborts {α : Type} (p : Progress α) : Prop := ∀ c t, p = .abort c t →
  (c = .rxTimeout ∧ ∃ w taken, t.bus.wire = .rxTimeout :: w ∨ t.bus.wire = .tx t.cfg.bNak taken :: .rxTimeout :: w) ∨
  (c = .crcMismatch ∧ ∃ w v taken, t.bus.wire = .tx t.cfg.bNak taken :: .rx v :: w)

/-- How a sending part may abort: on a byte that was not taken (R270). -/
def SendAborts {α : Type} (p : Progress α) : Prop := ∀ c t, p = .abort c t →
  c = .txTimeout ∧ ∃ w v, t.bus.wire = .tx v false :: w

/-- A receiving part: transfers only, and the aborts of receiving. -/
def Receives {α : Type} (s : State) (p : Progress α) : Prop := Transferred s p.at ∧ ReceiveAborts p

/-- A sending part: transfers only, and the aborts of sending. -/
def Sends {α : Type} (s : State) (p : Progress α) : Prop := Transferred s p.at ∧ SendAborts p

theorem Receives.bind {α β : Type} {s : State} {p : Progress α} {f : α → State → Progress β}
    (hp : Receives s p) (hf : ∀ a t, Receives t (f a t)) : Receives s (p.bind f) := by
  refine ⟨Transferred.bind hp.1 fun a t => (hf a t).1, ?_⟩
  intro c t h
  cases p with
  | done a u => exact (hf a u).2 c t h
  | abort c' u => cases h; exact hp.2 _ _ rfl

theorem Sends.bind {α β : Type} {s : State} {p : Progress α} {f : α → State → Progress β}
    (hp : Sends s p) (hf : ∀ a t, Sends t (f a t)) : Sends s (p.bind f) := by
  refine ⟨Transferred.bind hp.1 fun a t => (hf a t).1, ?_⟩
  intro c t h
  cases p with
  | done a u => exact (hf a u).2 c t h
  | abort c' u => cases h; exact hp.2 _ _ rfl

theorem Receives.done {α : Type} {s t : State} (a : α) (h : Transferred s t) : Receives s (.done a t) := ⟨h,
    fun _ _ h => by cases h⟩

theorem Sends.done {α : Type} {s t : State} (a : α) (h : Transferred s t) : Sends s (.done a t) := ⟨h, fun _ _ h =>
    by cases h⟩

theorem Receives.pre {α : Type} {s u : State} {p : Progress α} (h : Transferred s u) (k : Receives u p) : Receives s p := ⟨h.trans k.1, k.2⟩

theorem Sends.pre {α : Type} {s u : State} {p : Progress α} (h : Transferred s u) (k : Sends u p) : Sends s p :=
    ⟨h.trans k.1, k.2⟩

theorem recvArg_receives (s : State) : Receives s (recvArg s) := by
  refine ⟨recvArg_keeps s, ?_⟩
  intro c t h
  unfold recvArg at h
  rcases State.recv_open s s.cfg.tXfer with ⟨v, b, -, hb, e⟩ | ⟨b, -, hb, e⟩
  · rw [e] at h; cases h
  · rw [e] at h; cases h; exact .inl ⟨rfl, _, true, .inl hb⟩

theorem closeOut_receives (s : State) : Receives s (closeOut s) := by
  refine ⟨closeOut_keeps s, ?_⟩
  intro c t h
  unfold closeOut at h
  rcases State.recv_closing s s.cfg.tXfer with ⟨v, b, hw, hg, e⟩ | ⟨v, b, hw, hg, e⟩ | ⟨b, hw, e⟩ <;> rw [e] at h
      <;> cases h
  · exact .inr ⟨rfl, _, v, _, by rw [State.send_wire]; exact congrArg (_ :: ·) hw⟩
  · exact .inl ⟨rfl, _, _, .inr (by rw [State.send_wire]; exact congrArg (_ :: ·) hw)⟩

theorem sendByte_sends (v : Byte) (s : State) : Sends s (sendByte v s) := by
  refine ⟨sendByte_keeps v s, ?_⟩
  intro c t h
  have hw := State.send_wire s v s.cfg.tXfer
  unfold sendByte at h
  rcases hr : s.send v s.cfg.tXfer with ⟨_ | _, u⟩
  · rw [hr] at h hw; cases h; exact ⟨rfl, _, v, hw⟩
  · rw [hr] at h; cases h

theorem recvBuf_receives : ∀ (n i : Nat) (s : State), Receives s (recvBuf n i s)
  | 0, _, s => Receives.done _ (Transferred.refl s)
  | n + 1, i, s => Receives.bind (recvArg_receives s) fun b t =>
        Receives.pre (Transferred.local t t.crc (t.buf.setIfInBounds i b) t.latch) (recvBuf_receives n (i + 1) _)

theorem recvSkip_receives : ∀ (n : Nat) (s : State), Receives s (recvSkip n s)
  | 0, s => Receives.done _ (Transferred.refl s)
  | n + 1, s => Receives.bind (recvArg_receives s) fun _ t => recvSkip_receives n t

theorem recvStr_receives (n : Nat) (s : State) : Receives s (recvStr n s) :=
    Receives.bind (recvBuf_receives n 0 s) fun _ t => Receives.done _ (Transferred.refl t)

theorem sendResult_sends (r : Byte) (s : State) : Sends s (sendResult r s) :=
    Sends.pre (Transferred.local s s.crc s.buf _) (sendByte_sends r _)

theorem sendZeros_sends : ∀ (n : Nat) (s : State), Sends s (sendZeros n s)
  | 0, s => Sends.done _ (Transferred.refl s)
  | n + 1, s => Sends.bind (sendByte_sends 0 s) fun _ t => sendZeros_sends n t

theorem sendStream_sends : ∀ (vs : List Byte) (s : State), Sends s (sendStream vs s)
  | [], s => Sends.done _ (Transferred.refl s)
  | v :: vs, s => Sends.bind (sendByte_sends v s) fun _ t =>
        Sends.pre (Transferred.local t (crcFold t.crc v) t.buf t.latch) (sendStream_sends vs _)

theorem sendPayload_sends (n : Nat) (s : State) : Sends s (sendPayload n s) :=
  Sends.pre (Transferred.local s 0 s.buf s.latch) (Sends.bind (sendStream_sends _ _) fun _ t => sendByte_sends t.crc t)

theorem sendFramed_sends (bs : List Byte) (s : State) : Sends s (sendFramed bs s) :=
  Sends.pre (Transferred.local s s.crc (bufWrite s.buf 0 bs) s.latch) (sendPayload_sends _ _)

/-- How a handler went: it aborted while receiving, or it received, did its action and sent. -/
def Handled (act : State → State → Prop) (s : State) (p : Progress Unit) : Prop :=
  (∃ c t, p = .abort c t ∧ Transferred s t ∧ ReceiveAborts p) ∨
  (∃ t u, Transferred s t ∧ act t u ∧ Sends u p)

/-- A handler from its last receiving part on. -/
theorem Handled.of {α : Type} {act : State → State → Prop} {s : State} {p : Progress α} {f : α → State → Progress Unit}
    (hp : Receives s p) (hf : ∀ a t, Transferred s t → ∃ u, act t u ∧ Sends u (f a t)) : Handled act s (p.bind f) := by
  cases p with
  | done a t => obtain ⟨u, h1, h2⟩ := hf a t hp.1; exact .inr ⟨t, u, hp.1, h1, h2⟩
  | abort c t => exact .inl ⟨c, t, rfl, hp.1, fun c' t' h => by cases h; exact hp.2 c t rfl⟩

/-- A handler after one more receiving part. -/
theorem Handled.one {α : Type} {act : State → State → Prop} {s : State} {p : Progress α} {f : α → State → Progress Unit}
    (hp : Receives s p) (hf : ∀ a t, Transferred s t → Handled act t (f a t)) : Handled act s (p.bind f) := by
  cases p with
  | done a t =>
    rcases hf a t hp.1 with ⟨c, u, h1, h2, h3⟩ | ⟨u, v, h1, h2, h3⟩
    · exact .inl ⟨c, u, h1, hp.1.trans h2, h3⟩
    · exact .inr ⟨u, v, hp.1.trans h1, h2, h3⟩
  | abort c t => exact .inl ⟨c, t, rfl, hp.1, fun c' t' h => by cases h; exact hp.2 c t rfl⟩

theorem blockAddress_receives (boot : Bool) (n : Nat) (s : State) : Receives s (blockAddress boot n s) := by
  unfold blockAddress
  split
  · exact Receives.done _ (Transferred.local s s.crc s.buf _)
  · exact Receives.bind (recvArg_receives s) fun sel t =>
        Receives.pre (Transferred.local t t.crc t.buf _) (Receives.bind (recvArg_receives _) fun trk u =>
        Receives.done _ (Transferred.local u u.crc u.buf _))

theorem blockPayload_receives (f : KindFlags) (n : Nat) (s : State) : Receives s (blockPayload f n s) := by
  unfold blockPayload
  split
  · refine Receives.bind (recvBuf_receives _ _ s) fun _ t => ?_
    split
    · exact recvSkip_receives 1 t
    · exact Receives.done _ (Transferred.refl t)
  · exact Receives.done _ (Transferred.refl s)

theorem blockReply_sends (f : KindFlags) (n : Nat) (s : State) : Sends s (blockReply f n s) := by
  unfold blockReply
  refine Sends.bind (sendResult_sends _ s) fun _ t => ?_
  split
  · exact sendPayload_sends n t
  · exact Sends.done _ (Transferred.refl t)

/-- The block procedure receives, does its storage step and replies; or its argument check fails. -/
theorem blockIO_handled (f : KindFlags) (boot : Bool) (n : Nat) (s : State) :
    blockIO f boot n s = .abort .argCheck s ∨ Handled (fun t u => u = blockStorage f n t) s (blockIO f boot n s) := by
  unfold blockIO
  split
  · exact .inl rfl
  · right
    rw [← Progress.bind_assoc, ← Progress.bind_assoc]
    refine Handled.of (Receives.bind (Receives.bind ?_ fun _ t => blockPayload_receives f n t) fun _ u =>
        closeOut_receives u) fun _ t _ => ⟨_, rfl, blockReply_sends f n _⟩
    exact Receives.pre (Transferred.local s s.crc s.buf _) (blockAddress_receives boot n _)

theorem chdrvHandler_handled (s : State) : Handled Transferred s (chdrvHandler s) :=
  Handled.one (recvArg_receives s) fun _ t _ => Handled.of (closeOut_receives t) fun _ t _ =>
    ⟨_, (Transferred.local t t.crc t.buf _).trans (State.send_keeps _ _ _), Sends.done _ (Transferred.refl _)⟩

theorem legacyHandler_handled (row : LegRow) (s : State) : Handled Transferred s (legacyHandler row s) := by
  unfold legacyHandler
  rw [← Progress.bind_assoc]
  exact Handled.of (Receives.bind (recvSkip_receives _ s) fun _ t => closeOut_receives t) fun _ t _ => ⟨t,
      Transferred.refl t, sendZeros_sends _ t⟩

theorem getpathHandler_handled (s : State) : Handled Transferred s (getpathHandler s) :=
  Handled.one (recvArg_receives s) fun drv t _ => Handled.of (closeOut_receives t) fun _ t _ => by
    refine ⟨t, Transferred.refl t, ?_⟩
    split
    · exact sendResult_sends _ t
    · exact Sends.bind (sendResult_sends _ t) fun _ u => sendFramed_sends _ u

theorem getcwdHandler_handled (s : State) : Handled Transferred s (getcwdHandler s) :=
  Handled.of (closeOut_receives s) fun _ t _ => ⟨t, Transferred.refl t, sendFramed_sends _ t⟩

theorem infoHandler_handled (s : State) : Handled Transferred s (infoHandler s) :=
  Handled.one (recvArg_receives s) fun _ t _ => Handled.of (closeOut_receives t) fun _ u _ => ⟨u, Transferred.refl u,
      sendFramed_sends _ u⟩

theorem mountHandler_handled (s : State) : Handled (fun t u => ∃ drv ro L p,
    u = { t with coll := (mountAct t drv ro L p).2 }) s (mountHandler s) :=
  Handled.one (recvArg_receives s) fun drv t _ => Handled.one (recvArg_receives t) fun ro t _ =>
      Handled.one (recvArg_receives t) fun L t _ =>
    Handled.one (by unfold mountString; split; exact Receives.done _ (Transferred.refl t); exact recvStr_receives _ t) fun p t _ =>
    Handled.of (closeOut_receives t) fun _ u _ => ⟨_, ⟨drv, ro, L, p, rfl⟩, sendResult_sends _ _⟩

theorem dirHandler_handled (s : State) : Handled (fun t u => u = (dirReset t).2 ∨
    u = (dirAdvance t).2) s (dirHandler s) :=
  Handled.one (recvArg_receives s) fun a t _ => Handled.of (closeOut_receives t) fun _ u _ => by
    by_cases h : a = 0
    · simp only [h, if_true]; exact ⟨_, .inl rfl, sendFramed_sends _ _⟩
    · simp only [h, if_false]; exact ⟨_, .inr rfl, sendFramed_sends _ _⟩

theorem createHandler_handled (s : State) : Handled (fun t u => ∃ L p,
    u = { t with coll := (createAct L p t).2 }) s (createHandler s) :=
  Handled.one (recvArg_receives s) fun L t _ => Handled.one (recvStr_receives _ t) fun p t _ =>
      Handled.of (closeOut_receives t) fun _ _ _ => ⟨_, ⟨L, p, rfl⟩, sendResult_sends _ _⟩

theorem chdirHandler_handled (s : State) : Handled (fun t u => ∃ L p, u = (chdirAct L p t).2) s (chdirHandler s) :=
  Handled.one (recvArg_receives s) fun L t _ => Handled.one (recvStr_receives _ t) fun p t _ =>
      Handled.of (closeOut_receives t) fun _ _ _ => ⟨_, ⟨L, p, rfl⟩, sendResult_sends _ _⟩

/-- The action of each command between receiving and sending; transfers only where it has none. -/
def actOf : Instr → State → State → Prop
  | .boot | .lread | .pread => fun t u => ∃ n, u = blockStorage .read n t
  | .lwrite => fun t u => u = blockStorage .write 128 t
  | .pwrite => fun t u => u = blockStorage .write 512 t
  | .format => fun t u => u = blockStorage .format 0 t
  | .mount => fun t u => ∃ drv ro L p, u = { t with coll := (mountAct t drv ro L p).2 }
  | .dir => fun t u => u = (dirReset t).2 ∨ u = (dirAdvance t).2
  | .create => fun t u => ∃ L p, u = { t with coll := (createAct L p t).2 }
  | .chdir => fun t u => ∃ L p, u = (chdirAct L p t).2
  | _ => Transferred

theorem Handled.imp {act act' : State → State → Prop} {s : State} {p : Progress Unit} (h : Handled act s p)
    (k : ∀ t u, act t u → act' t u) : Handled act' s p := by
  rcases h with h | ⟨t, u, h1, h2, h3⟩
  · exact .inl h
  · exact .inr ⟨t, u, h1, k _ _ h2, h3⟩

/-- Every command is run as a handler that receives, acts and sends. -/
theorem exec_handled (i : Instr) (s : State) (hc : Instr.isCommand i = true) :
    ∃ p, exec i s = .next p.leave ∧ (p = .abort .argCheck (s.dispatch i) ∨ Handled (actOf i) (s.dispatch i) p) := by
  cases i
  case idle => cases hc
  case unrecognised => cases hc
  case boot => exact ⟨_, rfl, (blockIO_handled _ _ _ _).imp id fun h => h.imp fun t u e => ⟨_, e⟩⟩
  case lread => exact ⟨_, rfl, (blockIO_handled _ _ _ _).imp id fun h => h.imp fun t u e => ⟨_, e⟩⟩
  case pread => exact ⟨_, rfl, (blockIO_handled _ _ _ _).imp id fun h => h.imp fun t u e => ⟨_, e⟩⟩
  case lwrite => exact ⟨_, rfl, blockIO_handled _ _ _ _⟩
  case pwrite => exact ⟨_, rfl, blockIO_handled _ _ _ _⟩
  case format => exact ⟨_, rfl, blockIO_handled _ _ _ _⟩
  case chdrv => exact ⟨_, rfl, .inr (chdrvHandler_handled _)⟩
  case ramrd => exact ⟨_, rfl, .inr (legacyHandler_handled _ _)⟩
  case ramwr => exact ⟨_, rfl, .inr (legacyHandler_handled _ _)⟩
  case ramex => exact ⟨_, rfl, .inr (legacyHandler_handled _ _)⟩
  case spd0 => exact ⟨_, rfl, .inr (legacyHandler_handled _ _)⟩
  case spd1 => exact ⟨_, rfl, .inr (legacyHandler_handled _ _)⟩
  case getpath => exact ⟨_, rfl, .inr (getpathHandler_handled _)⟩
  case mount => exact ⟨_, rfl, .inr (mountHandler_handled _)⟩
  case getcwd => exact ⟨_, rfl, .inr (getcwdHandler_handled _)⟩
  case dir => exact ⟨_, rfl, .inr (dirHandler_handled _)⟩
  case chdir => exact ⟨_, rfl, .inr (chdirHandler_handled _)⟩
  case create => exact ⟨_, rfl, .inr (createHandler_handled _)⟩
  case info => exact ⟨_, rfl, .inr (infoHandler_handled _)⟩

/-- The three ways `exec` ends: a command without a handler, an abort before the action, and an end after it. -/
theorem exec_ends (i : Instr) (s t : State) (h : exec i s = .next t) :
    (Instr.isCommand i = false ∧ t.cfg = s.cfg ∧ t.link = s.link ∧ t.cwd = s.cwd ∧ t.dircur = s.dircur ∧
        t.coll = s.coll ∧
      (t.lastEnd = none ∨ t.lastEnd = some .unknownOpcode)) ∨
    (∃ c v, Transferred (s.dispatch i) v ∧ t = v.takeAbort c ∧ (c = .argCheck ∨
        ReceiveAborts (.abort c v : Progress Unit))) ∨
    (∃ v u w how, Transferred (s.dispatch i) v ∧ actOf i v u ∧ Transferred u w ∧ t = w.endPoll true how ∧
      (how = none ∨ (how = some .txTimeout ∧ ∃ l x, w.bus.wire = .tx x false :: l))) := by
  cases hc : Instr.isCommand i
  · left
    cases i
    case idle => cases h; exact ⟨rfl, rfl, rfl, rfl, rfl, rfl, .inl rfl⟩
    case unrecognised => cases h; exact ⟨rfl, rfl, rfl, rfl, rfl, rfl, .inr rfl⟩
    all_goals exact absurd hc (by simp [Instr.isCommand])
  · right
    obtain ⟨p, h1, h2⟩ := exec_handled i s hc
    rw [h1] at h; cases h
    rcases h2 with rfl | ⟨c, v, rfl, h3, h4⟩ | ⟨v, u, h3, h4, h5⟩
    · exact .inl ⟨_, _, Transferred.refl _, rfl, .inl rfl⟩
    · exact .inl ⟨_, _, h3, rfl, .inr h4⟩
    · right
      cases p with
      | done a w => exact ⟨v, u, w, none, h3, h4, h5.1, rfl, .inl rfl⟩
      | abort c w => 
        have := h5.2 c w rfl
        exact ⟨v, u, w, some c, h3, h4, h5.1, rfl, .inr ⟨by rw [this.1], this.2⟩⟩

/-- No action touches the configuration, the link, the environment or `phase`. -/
theorem act_keeps (i : Instr) (v u : State) (h : actOf i v u) : u.cfg = v.cfg ∧ u.link = v.link ∧
    u.between = v.between ∧ u.phase = v.phase := by
  have hb : ∀ f n, (blockStorage f n v).cfg = v.cfg ∧ (blockStorage f n v).link = v.link ∧
      (blockStorage f n v).between = v.between ∧ (blockStorage f n v).phase = v.phase := by
    intro f n
    obtain ⟨c, b, l, e, -⟩ := blockStorage_shape f n v
    rw [e]; exact ⟨rfl, rfl, rfl, rfl⟩
  have ht : Transferred v u → u.cfg = v.cfg ∧ u.link = v.link ∧ u.between = v.between ∧ u.phase = v.phase := fun h =>
      ⟨h.cfg, h.link, h.between, h.phase⟩
  cases i <;> first | exact ht h | skip
  case boot => obtain ⟨n, rfl⟩ := h; exact hb _ _
  case lread => obtain ⟨n, rfl⟩ := h; exact hb _ _
  case pread => obtain ⟨n, rfl⟩ := h; exact hb _ _
  case lwrite => cases h; exact hb _ _
  case pwrite => cases h; exact hb _ _
  case format => cases h; exact hb _ _
  case mount => obtain ⟨_, _, _, _, rfl⟩ := h; exact ⟨rfl, rfl, rfl, rfl⟩
  case create => obtain ⟨_, _, rfl⟩ := h; exact ⟨rfl, rfl, rfl, rfl⟩
  case dir =>
    rcases h with rfl | rfl
    · unfold dirReset dirDiscard; dsimp only; cases v.dircur <;> exact ⟨rfl, rfl, rfl, rfl⟩
    · unfold dirAdvance; dsimp only
      split
      · exact ⟨rfl, rfl, rfl, rfl⟩
      · split <;> exact ⟨rfl, rfl, rfl, rfl⟩
  case chdir =>
    obtain ⟨L, p, rfl⟩ := h
    unfold chdirAct
    split
    · exact ⟨rfl, rfl, rfl, rfl⟩
    · split
      · exact ⟨rfl, rfl, rfl, rfl⟩
      · split
        · exact ⟨rfl, rfl, rfl, rfl⟩
        · dsimp only
          split
          · exact ⟨rfl, rfl, rfl, rfl⟩
          · split <;> exact ⟨rfl, rfl, rfl, rfl⟩

/-! ## The actions keep what `Acted` says -/
theorem joinPath_prefix {root sep c p : Path} (h : root <+: c) : root <+: joinPath root sep c p := by
  unfold joinPath
  split
  · exact h.trans (List.prefix_append _ _)
  · rw [List.append_assoc]; exact h.trans (List.prefix_append _ _)

theorem parentPath_ok {root sep c : Path} (h : root <+: c) : root <+: parentPath root sep c ∧
    (parentPath root sep c).length ≤ max root.length c.length := by
  unfold parentPath
  split
  · exact ⟨List.prefix_refl _, by omega⟩
  · split
    · rename_i j _
      split
      · exact ⟨List.prefix_refl _, by omega⟩
      · rename_i hj
        refine ⟨?_, by rw [List.length_take]; omega⟩
        obtain ⟨x, rfl⟩ := h
        rw [List.take_append]
        rw [List.take_of_length_le (by omega)]
        exact List.prefix_append _ _
    · exact ⟨List.prefix_refl _, by omega⟩

theorem mountAct_shape (t : State) (drv ro L : Byte) (p : Path) : (t.coll.Ok → (mountAct t drv ro L p).2.Ok) ∧
    (mountAct t drv ro L p).2.dirs = t.coll.dirs ∧ (mountAct t drv ro L p).2.nextHandle = t.coll.nextHandle := by
  unfold mountAct
  split
  · exact ⟨id, rfl, rfl⟩
  · rename_i d _
    have hu := Coll.unmount_dirs t.coll d
    dsimp only
    split
    · exact ⟨fun h => h.unmount d, hu⟩
    · split
      · have hm := Coll.mount_dirs (t.coll.unmount d) t.cfg d (t.coll.slot d).path (roFlag ro)
        exact ⟨fun h => (h.unmount d).mount _ _ (h.1 d).2 _, hm.1.trans hu.1, hm.2.trans hu.2⟩
      · split
        · exact ⟨fun h => h.unmount d, hu⟩
        · rename_i hl
          have hm := Coll.mount_dirs (t.coll.unmount d) t.cfg d (joinPath t.cfg.root t.cfg.sep t.cwd p) (roFlag ro)
          exact ⟨fun h => (h.unmount d).mount _ _ (by omega) _, hm.1.trans hu.1, hm.2.trans hu.2⟩

theorem createAct_shape (t : State) (L : Byte) (p : Path) : (t.coll.Ok → (createAct L p t).2.Ok) ∧
    (createAct L p t).2.dirs = t.coll.dirs ∧ (createAct L p t).2.nextHandle = t.coll.nextHandle := by
  unfold createAct
  split
  · exact ⟨id, rfl, rfl⟩
  · dsimp only
    split
    · exact ⟨id, rfl, rfl⟩
    · have := Coll.createImage_dirs t.coll (joinPath t.cfg.root t.cfg.sep t.cwd (createName p))
      exact ⟨fun h => h.createImage _, this.1, this.2.1⟩

theorem chdirAct_acts (t : State) (L : Byte) (p : Path) : Acted t (chdirAct L p t).2 := by
  have hcwd : ∀ (c : Coll) (w : Path), (t.coll.Ok → c.Ok) → c.dirs = t.coll.dirs → c.nextHandle = t.coll.nextHandle →
      (t.cfg.Valid → t.CwdOk → t.cfg.root <+: w ∧ w.length ≤ CWD_CAP) → Acted t { t with coll := c, cwd := w } := by
    intro c w h1 h2 h3 h4
    exact ⟨rfl, rfl, rfl, rfl, rfl, id, Nat.le_refl _, h1, h4, fun h => by unfold State.CursorOk; rw [h2, h3]; exact h⟩
  unfold chdirAct
  split
  · exact Acted.refl t
  · split
    · exact Acted.refl t
    · split
      · refine hcwd t.coll _ id rfl rfl fun hv h => ⟨(parentPath_ok h.1).1, ?_⟩
        have := (parentPath_ok (sep := t.cfg.sep) h.1).2
        have := h.2
        have := hv.2.2.2.2.2.2.2.2.2.2
        omega
      · dsimp only
        split
        · exact Acted.refl t
        · rename_i hl
          split
          · exact hcwd _ _ id rfl rfl fun _ h => ⟨joinPath_prefix h.1, by omega⟩
          · exact hcwd _ _ id rfl rfl fun _ h => h

theorem dirDiscard_acts (t : State) : Acted t (dirDiscard t) ∧ (t.CursorOk → (dirDiscard t).coll.dirs = [] ∧
    (dirDiscard t).dircur = none) := by
  unfold dirDiscard
  cases hd : t.dircur with
  | none =>
    refine ⟨Acted.refl t, fun h => ⟨?_, hd⟩⟩
    have := h.1; rw [hd] at this; simpa using this
  | some h =>
    have key : t.CursorOk → (t.coll.dirClose h).dirs = [] := by
      intro hc
      have h1 := hc.1
      rw [hd] at h1
      show t.coll.dirs.filter _ = []
      rw [List.filter_eq_nil_iff]
      intro o ho
      have : o.handle ∈ t.coll.dirs.map (·.handle) := List.mem_map_of_mem ho
      rw [h1] at this
      simpa using this
    refine ⟨⟨rfl, rfl, rfl, rfl, rfl, id, Nat.le_refl _, id, fun _ h => h, fun hc => ?_⟩, fun hc => ⟨key hc, rfl⟩⟩
    refine ⟨?_, fun h hh => by cases hh⟩
    show (t.coll.dirClose h).dirs.map _ = _
    rw [key hc]; rfl

theorem dirReset_acts (t : State) : Acted t (dirReset t).2 := by
  unfold dirReset
  dsimp only
  obtain ⟨h1, h2⟩ := dirDiscard_acts t
  have h3 : ∀ u : State, Acted u { u with coll := (u.coll.dirOpen u.cwd).2, dircur := (u.coll.dirOpen u.cwd).1 } ∨
      u.coll.dirs ≠ [] := by
    intro u
    by_cases hu : u.coll.dirs = []
    · left
      unfold Coll.dirOpen
      dsimp only
      split
      · refine ⟨rfl, rfl, rfl, rfl, rfl, id, Nat.le_refl _, id, fun _ h => h, fun _ => ⟨?_, ?_⟩⟩
        · simp [hu]
        · intro h hh; simp only [Option.some.injEq] at hh; subst hh; exact Nat.lt_succ_self _
      · refine ⟨rfl, rfl, rfl, rfl, rfl, id, Nat.le_refl _, id, fun _ h => h, fun _ => ⟨?_, fun h hh => by cases hh⟩⟩
        simp [Coll.ask, hu]
    · exact .inr hu
  have h4 : ∀ u : State, u.coll.Ok → (u.coll.dirOpen u.cwd).2.Ok := by
    intro u h; unfold Coll.dirOpen; dsimp only; split <;> exact h
  refine ⟨h1.cfg, h1.link, h1.phase, h1.between, h1.draws, h1.lines, h1.clock, fun h => h4 _ (h1.coll h), h1.cwd,
      fun hc => ?_⟩
  rcases h3 (dirDiscard t) with h | h
  · exact h.cursor (h1.cursor hc)
  · exact absurd (h2 hc).1 h

theorem dirAdvance_acts (t : State) : Acted t (dirAdvance t).2 := by
  unfold dirAdvance
  split
  · exact Acted.refl t
  · rename_i h hd
    dsimp only
    split
    · rename_i n es _
      refine ⟨rfl, rfl, rfl, rfl, rfl, id, Nat.le_refl _, id, fun _ h => h, fun hc => ⟨?_, hc.2⟩⟩
      show (List.map _ (List.map _ t.coll.dirs)) = _
      rw [List.map_map]
      rw [← hc.1]
      apply List.map_congr_left
      intro o _
      show (if o.handle = h then { o with entries := es } else o).handle = o.handle
      split <;> rfl
    · refine ⟨rfl, rfl, rfl, rfl, rfl, id, Nat.le_refl _, id, fun _ h => h, fun hc => ⟨?_, fun h hh => by cases hh⟩⟩
      have h1 := hc.1
      rw [hd] at h1
      show (List.map _ (t.coll.dirs.filter _)) = []
      rw [List.map_eq_nil_iff, List.filter_eq_nil_iff]
      intro o ho
      have : o.handle ∈ t.coll.dirs.map (·.handle) := List.mem_map_of_mem ho
      rw [h1] at this
      simpa using this

/-- Every action keeps what `Acted` says. -/
theorem act_acts (i : Instr) (v u : State) (h : actOf i v u) : Acted v u := by
  have hb : ∀ f n, Acted v (blockStorage f n v) := by
    intro f n
    obtain ⟨c, b, l, e, h1, h2, h3⟩ := blockStorage_shape f n v
    rw [e]; exact Acted.act v c b l h1 h2 h3
  cases i <;> first | exact Transferred.acted h | skip
  case boot => obtain ⟨n, rfl⟩ := h; exact hb _ _
  case lread => obtain ⟨n, rfl⟩ := h; exact hb _ _
  case pread => obtain ⟨n, rfl⟩ := h; exact hb _ _
  case lwrite => cases h; exact hb _ _
  case pwrite => cases h; exact hb _ _
  case format => cases h; exact hb _ _
  case mount =>
    obtain ⟨a, b, c, d, rfl⟩ := h
    have := mountAct_shape v a b c d
    exact Acted.act v _ v.buf v.latch this.1 this.2.1 this.2.2
  case create =>
    obtain ⟨a, b, rfl⟩ := h
    have := createAct_shape v a b
    exact Acted.act v _ v.buf v.latch this.1 this.2.1 this.2.2
  case chdir => obtain ⟨a, b, rfl⟩ := h; exact chdirAct_acts v a b
  case dir =>
    rcases h with rfl | rfl
    · exact dirReset_acts v
    · exact dirAdvance_acts v

/-! ## Events and lines -/

/-- The events a run of transfers adds are all of kind `Q`, and the lines are exactly those of the events. -/
def Wired (Q : WireEvent → Prop) (s t : State) : Prop := t.cfg = s.cfg ∧ ∃ es, t.bus.wire = es ++ s.bus.wire ∧
  t.bus.lines = es.flatMap (eventLines s.cfg) ++ s.bus.lines ∧ ∀ e ∈ es, Q e

variable {Q : WireEvent → Prop}

theorem Wired.refl (s : State) : Wired Q s s := ⟨rfl, [], rfl, rfl, by simp⟩

theorem Wired.same {s t : State} (h1 : t.cfg = s.cfg) (h2 : t.bus.wire = s.bus.wire) (h3 : t.bus.lines = s.bus.lines) : Wired Q s t := ⟨h1, [], h2, h3, by simp⟩

theorem Wired.trans {s t u : State} (h : Wired Q s t) (k : Wired Q t u) : Wired Q s u := by
  obtain ⟨a, es, h1, h2, h3⟩ := h
  obtain ⟨b, fs, k1, k2, k3⟩ := k
  refine ⟨b.trans a, fs ++ es, by rw [k1, h1, List.append_assoc], ?_, ?_⟩
  · rw [k2, h2, a, List.flatMap_append, List.append_assoc]
  · intro e he; rcases List.mem_append.1 he with h | h
    · exact k3 e h
    · exact h3 e h

theorem Wired.bind {α β : Type} {s : State} {p : Progress α} {f : α → State → Progress β}
    (hp : Wired Q s p.at) (hf : ∀ a t, Wired Q t (f a t).at) : Wired Q s (p.bind f).at := by
  cases p with
  | done a t => exact hp.trans (hf a t)
  | abort c t => exact hp

theorem Wired.imp {Q' : WireEvent → Prop} {s t : State} (h : Wired Q s t) (k : ∀ e, Q e → Q' e) : Wired Q' s t := by
  obtain ⟨a, es, h1, h2, h3⟩ := h; exact ⟨a, es, h1, h2, fun e he => k e (h3 e he)⟩

theorem State.send_wired (s : State) (v : Byte) (T : Nat) (hq : ∀ b, Q (.tx v b)) : Wired Q s (s.send v T).2 := by
  have hk := Bus.send_keeps s.cfg v T s.bus
  refine ⟨rfl, [.tx v (s.send v T).1], hk.2.2.2.2.1, ?_, by simpa using hq _⟩
  rw [show (s.send v T).2.bus.lines = _ from hk.2.2.2.2.2.1]
  simp [eventLines, sendLines]; rfl

theorem Bus.latch_lines (c : Config) (T : Nat) (b : Bus) : (b.latch c T).2.lines = (match (b.latch c T).1 with | some v => eventLines c (.rx v) | none => eventLines c .rxTimeout) ++ b.lines := by
  have hl := Bus.wait_lines .obf T b
  unfold Bus.latch
  by_cases h : (b.wait .obf T).1 = true
  · rw [h] at hl
    simp [h, Bus.note, Bus.setAck, Bus.pulse, eventLines, hl, LineEvent.sampled]
  · simp [Bool.not_eq_true] at h
    rw [h] at hl
    simp [h, Bus.note, eventLines, hl, LineEvent.sampled]

theorem State.recv_wired (s : State) (T : Nat) (h1 : ∀ v,
    Q (.rx v)) (h2 : Q .rxTimeout) : Wired Q s (s.recv T false).2 := by
  have hl := Bus.latch_lines s.cfg T s.bus
  rcases State.recv_open s T with ⟨v, b, h, hb, e⟩ | ⟨b, h, hb, e⟩ <;> rw [e] <;> rw [h] at hl
  · exact ⟨rfl, [.rx v], hb, by simpa using hl, by simpa using h1 v⟩
  · exact ⟨rfl, [.rxTimeout], hb, by simpa using hl, by simpa using h2⟩

theorem recvArg_wired (s : State) (h1 : ∀ v, Q (.rx v)) (h2 : Q .rxTimeout) : Wired Q s (recvArg s).at := by
  have hk := State.recv_wired s s.cfg.tXfer h1 h2
  unfold recvArg
  rcases hr : s.recv s.cfg.tXfer false with ⟨r, t⟩
  rw [hr] at hk
  cases r <;> exact hk

/-- The three ways a closing `Recv` goes, by what was latched. -/
theorem State.recv_latched (s : State) (T : Nat) :
    (∃ v b, s.bus.latch s.cfg T = (some v, b) ∧ s.recv T true = (.ok v,
        (({ s with bus := b, crc := crcFold s.crc v } : State).send s.cfg.bAck s.cfg.tXfer).2)) ∨
    (∃ v b, s.bus.latch s.cfg T = (some v, b) ∧ s.recv T true = (.bad v,
        (({ s with bus := b, crc := crcFold s.crc v } : State).send s.cfg.bNak s.cfg.tXfer).2)) ∨
    (∃ b, s.bus.latch s.cfg T = (none, b) ∧ s.recv T true = (.timeout,
        (({ s with bus := b } : State).send s.cfg.bNak s.cfg.tXfer).2)) := by
  unfold State.recv
  rcases hl : s.bus.latch s.cfg T with ⟨_ | v, b⟩
  · exact .inr (.inr ⟨b, rfl, rfl⟩)
  · dsimp only
    by_cases h : crcGood (crcFold s.crc v) = true
    · exact .inl ⟨v, b, rfl, by rw [if_pos rfl, if_pos h]⟩
    · exact .inr (.inl ⟨v, b, rfl, by rw [if_pos rfl, if_neg h]⟩)

theorem Bus.latch_wired {s : State} {T : Nat} {v : Option Byte} {b : Bus} (crc : Byte) (h : s.bus.latch s.cfg T = (v,
    b)) (h1 : ∀ v, Q (.rx v)) (h2 : v = none → Q .rxTimeout) :
    Wired Q s { s with bus := b, crc := crc } := by
  have hl := Bus.latch_lines s.cfg T s.bus
  have hw := (Bus.latch_keeps s.cfg T s.bus).2.2.2.2.2.1
  rw [h] at hl hw
  cases v with
  | some v => exact ⟨rfl, [.rx v], hw, by simpa using hl, by simpa using h1 v⟩
  | none => exact ⟨rfl, [.rxTimeout], hw, by simpa using hl, by simpa using h2 rfl⟩

/-- A close-out that accepts sends `B_ACK` only. -/
theorem closeOut_wired_cases (s : State) (h1 : ∀ v, Q (.rx v)) (ha : ∀ b, Q (.tx s.cfg.bAck b)) :
    (∃ t, closeOut s = .done () t ∧ Wired Q s t) ∨ (∃ c t, closeOut s = .abort c t ∧ (c = .rxTimeout ∨
        c = .crcMismatch) ∧ Wired (fun _ => True) s t) := by
  unfold closeOut
  rcases State.recv_latched s s.cfg.tXfer with ⟨v, b, h, e⟩ | ⟨v, b, h, e⟩ | ⟨b, h, e⟩ <;> rw [e]
  · exact .inl ⟨_, rfl, (Bus.latch_wired _ h h1 (by simp)).trans (State.send_wired _ _ _ ha)⟩
  · exact .inr ⟨_, _, rfl, .inr rfl, (Bus.latch_wired _ h (by simp) (by simp)).trans (State.send_wired _ _ _ (by simp))⟩
  · exact .inr ⟨_, _, rfl, .inl rfl,
        (Bus.latch_wired s.crc h (by simp) (by simp)).trans (State.send_wired _ _ _ (by simp))⟩

theorem closeOut_wired (s : State) : Wired (fun _ => True) s (closeOut s).at := by
  rcases closeOut_wired_cases (Q := fun _ => True) s (by simp) (by simp) with ⟨t, e, h⟩ | ⟨c, t, e, -, h⟩
      <;> rw [e] <;> exact h

theorem sendByte_wired (v : Byte) (s : State) (hq : ∀ b, Q (.tx v b)) : Wired Q s (sendByte v s).at := by
  have hk := State.send_wired s v s.cfg.tXfer hq
  unfold sendByte
  rcases hr : s.send v s.cfg.tXfer with ⟨r, t⟩
  rw [hr] at hk
  cases r <;> exact hk

theorem recvSkip_wired (h1 : ∀ v, Q (.rx v)) (h2 : Q .rxTimeout) : ∀ (n : Nat) (s : State), Wired Q s (recvSkip n s).at
  | 0, s => Wired.refl s
  | n + 1, s => Wired.bind (recvArg_wired s h1 h2) fun _ t => recvSkip_wired h1 h2 n t

theorem recvBuf_wired (h1 : ∀ v, Q (.rx v)) (h2 : Q .rxTimeout) : ∀ (n i : Nat) (s : State),
    Wired Q s (recvBuf n i s).at
  | 0, _, s => Wired.refl s
  | n + 1, i, s => Wired.bind (recvArg_wired s h1 h2) fun b t => Wired.trans (t :=
        t.setBuf i b) (Wired.same rfl rfl rfl) (recvBuf_wired h1 h2 n (i+1) _)

theorem sendZeros_wired (h0 : ∀ b, Q (.tx 0 b)) : ∀ (n : Nat) (s : State), Wired Q s (sendZeros n s).at
  | 0, s => Wired.refl s
  | n + 1, s => Wired.bind (sendByte_wired 0 s h0) fun _ t => sendZeros_wired h0 n t

theorem recvStr_wired (h1 : ∀ v, Q (.rx v)) (h2 : Q .rxTimeout) (n : Nat) (s : State) : Wired Q s (recvStr n s).at :=
    Wired.bind (recvBuf_wired h1 h2 n 0 s) fun _ t => Wired.refl t

/-- No condition on the events. -/
abbrev AnyEvent : WireEvent → Prop := fun _ => True

theorem sendResult_wired (r : Byte) (s : State) : Wired AnyEvent s (sendResult r s).at := Wired.trans (t :=
    s.setResult r) (Wired.same rfl rfl rfl) (sendByte_wired _ _ (by simp))

theorem sendStream_wired : ∀ (vs : List Byte) (s : State), Wired AnyEvent s (sendStream vs s).at
  | [], s => Wired.refl s
  | v :: vs, s => Wired.bind (sendByte_wired v s (by simp)) fun _ t => Wired.trans (t :=
        { t with crc := crcFold t.crc v }) (Wired.same rfl rfl rfl) (sendStream_wired vs _)

theorem sendPayload_wired (n : Nat) (s : State) : Wired AnyEvent s (sendPayload n s).at :=
  Wired.trans (t := { s with crc := 0 }) (Wired.same rfl rfl rfl) (Wired.bind (sendStream_wired _ _) fun _ t =>
      sendByte_wired t.crc t (by simp))

theorem sendFramed_wired (bs : List Byte) (s : State) : Wired AnyEvent s (sendFramed bs s).at :=
  Wired.trans (t := { s with buf := bufWrite s.buf 0 bs }) (Wired.same rfl rfl rfl) (sendPayload_wired _ _)

theorem recvArg_wired_any (s : State) : Wired AnyEvent s (recvArg s).at := recvArg_wired s (by simp) trivial

theorem leave_wired {s : State} {i : Instr} {p : Progress Unit} (h : Wired Q (s.dispatch i) p.at) : Wired Q s p.leave := by
  cases p <;> exact h

theorem blockIO_wired (f : KindFlags) (boot : Bool) (n : Nat) (s : State) : Wired AnyEvent s (blockIO f boot n s).at := by
  unfold blockIO
  split
  · exact Wired.refl s
  · refine Wired.bind ?_ fun _ t => Wired.bind ?_ fun _ u => Wired.bind (closeOut_wired u) fun _ v => ?_
    · refine Wired.trans (t := s.setKind f boot n) (Wired.same rfl rfl rfl) ?_
      unfold blockAddress
      split
      · exact Wired.same rfl rfl rfl
      · refine Wired.bind (recvArg_wired_any _) fun sel t => ?_
        refine Wired.trans (t :=
            { t with latch := { t.latch with sel := sel, drive := selDrive sel, sector := selSector t.cfg.secw n sel } }) (Wired.same rfl rfl rfl) (Wired.bind (recvArg_wired_any _) fun trk u => Wired.same rfl rfl rfl)
    · unfold blockPayload
      split
      · refine Wired.bind (recvBuf_wired (by simp) trivial _ _ _) fun _ u => ?_
        split
        · exact recvSkip_wired (by simp) trivial _ _
        · exact Wired.refl _
      · exact Wired.refl _
    · obtain ⟨c, b, l, e, -⟩ := blockStorage_shape f n v
      rw [e]
      refine Wired.trans (t := { v with coll := c, buf := b, latch := l }) (Wired.same rfl rfl rfl) ?_
      unfold blockReply
      refine Wired.bind (sendResult_wired _ _) fun _ w => ?_
      split
      · exact sendPayload_wired _ _
      · exact Wired.refl _

theorem legacyHandler_wired (row : LegRow) (s : State) : Wired AnyEvent s (legacyHandler row s).at :=
  Wired.bind (recvSkip_wired (by simp) trivial _ s) fun _ t => Wired.bind (closeOut_wired t) fun _ u =>
      sendZeros_wired (by simp) _ u

theorem Wired.after_action {s t : State} {p : Progress Unit} (h1 : t.cfg = s.cfg) (h2 : t.bus = s.bus) (h : Wired AnyEvent t p.at) : Wired AnyEvent s p.at :=
  Wired.trans (Wired.same h1 (by rw [h2]) (by rw [h2])) h

end Sys2Proof.Machine
end

