-- ==== Sys2Proof/Laws/PerInstr.lean ====
section
/-! SUPPORT. The per-command family `OpcodeDecodes`: under every valid configuration the opcode byte of a well-formed
command decodes to that command (spec/30_encoding.md R100, R102), one lemma a constructor. -/

namespace Sys2Proof.Laws.OpcodeDecodes

/-- The opcode byte of `i` decodes to `i`. -/
def Statement (i : Instr) : Prop :=
  ∀ c : Config, c.Valid → i.wellFormed c = true → decodeByte c (opcodeOf c i) = i

/-- The pairwise distinctness of the map's bytes (R10 c), a later byte against an earlier one as the decoder tests. -/
theorem distinct {c : Config} (h : c.Valid) :
    (c.bIdle :: c.opcodes).Pairwise (fun x y => ¬ y = x) :=
  h.2.1.imp fun hne he => hne he.symm

/-- A byte that is none of the twenty fixed rows is looked up among the further toggles. -/
theorem decodeByte_beyond {c : Config} {b : Byte}
    (h : b ∉ [c.bIdle, c.opBoot, OP_LREAD, c.opPread, c.opLwrite, c.opPwrite, c.opFormat, c.opChdrv, c.ramrd.op,
      c.ramwr.op, c.ramex.op, c.spd0.op, c.spd1.op, c.opGetpath, c.opMount, c.opGetcwd, c.opDir, c.opChdir, c.opCreate,
      c.opInfo]) :
    decodeByte c b = match c.moreSpd.findIdx? (fun r => r.op == b) with
      | some k => .spd1 (k + 1)
      | none => .unrecognised b := by
  simp only [List.mem_cons, List.not_mem_nil, or_false, not_or] at h
  unfold decodeByte
  simp only [h, if_false] <;> rfl

theorem idle : Statement .idle := fun c _ _ => by simp only [decodeByte, opcodeOf, if_true]

theorem boot : Statement .boot := fun c h _ => by
  have := distinct h
  simp only [List.cons_append, List.nil_append, List.pairwise_cons, List.mem_cons, forall_eq_or_imp] at this
  simp only [decodeByte, opcodeOf, this, if_false, if_true]

theorem lread : Statement .lread := fun c h _ => by
  have := distinct h
  simp only [List.cons_append, List.nil_append, List.pairwise_cons, List.mem_cons, forall_eq_or_imp] at this
  simp only [decodeByte, opcodeOf, this, if_false, if_true]

theorem pread : Statement .pread := fun c h _ => by
  have := distinct h
  simp only [List.cons_append, List.nil_append, List.pairwise_cons, List.mem_cons, forall_eq_or_imp] at this
  simp only [decodeByte, opcodeOf, this, if_false, if_true]

theorem lwrite : Statement .lwrite := fun c h _ => by
  have := distinct h
  simp only [List.cons_append, List.nil_append, List.pairwise_cons, List.mem_cons, forall_eq_or_imp] at this
  simp only [decodeByte, opcodeOf, this, if_false, if_true]

theorem pwrite : Statement .pwrite := fun c h _ => by
  have := distinct h
  simp only [List.cons_append, List.nil_append, List.pairwise_cons, List.mem_cons, forall_eq_or_imp] at this
  simp only [decodeByte, opcodeOf, this, if_false, if_true]

theorem format : Statement .format := fun c h _ => by
  have := distinct h
  simp only [List.cons_append, List.nil_append, List.pairwise_cons, List.mem_cons, forall_eq_or_imp] at this
  simp only [decodeByte, opcodeOf, this, if_false, if_true]

theorem chdrv : Statement .chdrv := fun c h _ => by
  have := distinct h
  simp only [List.cons_append, List.nil_append, List.pairwise_cons, List.mem_cons, forall_eq_or_imp] at this
  simp only [decodeByte, opcodeOf, this, if_false, if_true]

theorem ramrd : Statement .ramrd := fun c h _ => by
  have := distinct h
  simp only [List.cons_append, List.nil_append, List.pairwise_cons, List.mem_cons, forall_eq_or_imp] at this
  simp only [decodeByte, opcodeOf, this, if_false, if_true]

theorem ramwr : Statement .ramwr := fun c h _ => by
  have := distinct h
  simp only [List.cons_append, List.nil_append, List.pairwise_cons, List.mem_cons, forall_eq_or_imp] at this
  simp only [decodeByte, opcodeOf, this, if_false, if_true]

theorem ramex : Statement .ramex := fun c h _ => by
  have := distinct h
  simp only [List.cons_append, List.nil_append, List.pairwise_cons, List.mem_cons, forall_eq_or_imp] at this
  simp only [decodeByte, opcodeOf, this, if_false, if_true]

theorem spd0 : Statement .spd0 := fun c h _ => by
  have := distinct h
  simp only [List.cons_append, List.nil_append, List.pairwise_cons, List.mem_cons, forall_eq_or_imp] at this
  simp only [decodeByte, opcodeOf, this, if_false, if_true]

theorem getpath : Statement .getpath := fun c h _ => by
  have := distinct h
  simp only [List.cons_append, List.nil_append, List.pairwise_cons, List.mem_cons, forall_eq_or_imp] at this
  simp only [decodeByte, opcodeOf, this, if_false, if_true]

theorem mount : Statement .mount := fun c h _ => by
  have := distinct h
  simp only [List.cons_append, List.nil_append, List.pairwise_cons, List.mem_cons, forall_eq_or_imp] at this
  simp only [decodeByte, opcodeOf, this, if_false, if_true]

theorem getcwd : Statement .getcwd := fun c h _ => by
  have := distinct h
  simp only [List.cons_append, List.nil_append, List.pairwise_cons, List.mem_cons, forall_eq_or_imp] at this
  simp only [decodeByte, opcodeOf, this, if_false, if_true]

theorem dir : Statement .dir := fun c h _ => by
  have := distinct h
  simp only [List.cons_append, List.nil_append, List.pairwise_cons, List.mem_cons, forall_eq_or_imp] at this
  simp only [decodeByte, opcodeOf, this, if_false, if_true]

theorem chdir : Statement .chdir := fun c h _ => by
  have := distinct h
  simp only [List.cons_append, List.nil_append, List.pairwise_cons, List.mem_cons, forall_eq_or_imp] at this
  simp only [decodeByte, opcodeOf, this, if_false, if_true]

theorem create : Statement .create := fun c h _ => by
  have := distinct h
  simp only [List.cons_append, List.nil_append, List.pairwise_cons, List.mem_cons, forall_eq_or_imp] at this
  simp only [decodeByte, opcodeOf, this, if_false, if_true]

theorem info : Statement .info := fun c h _ => by
  have := distinct h
  simp only [List.cons_append, List.nil_append, List.pairwise_cons, List.mem_cons, forall_eq_or_imp] at this
  simp only [decodeByte, opcodeOf, this, if_false, if_true]

theorem spd1 (k : Nat) : Statement (.spd1 k) := fun c h hw => by
  have hd := distinct h
  cases k with
  | zero =>
    simp only [List.cons_append, List.nil_append, List.pairwise_cons, List.mem_cons, forall_eq_or_imp] at hd
    simp only [decodeByte, opcodeOf, hd, if_false, if_true]
  | succ k =>
    have hk : k < c.moreSpd.length := by simpa [Instr.wellFormed] using hw
    have hb : opcodeOf c (.spd1 (k + 1)) = (c.moreSpd[k]).op := by simp [opcodeOf, moreSpdOp, hk]
    have hm : (c.moreSpd[k]).op ∈ c.moreSpd.map (·.op) := List.mem_map.2 ⟨_, List.getElem_mem hk, rfl⟩
    rw [← List.cons_append, List.pairwise_append] at hd
    rw [hb, decodeByte_beyond fun hmem => hd.2.2 _ hmem _ hm rfl]
    have hf : c.moreSpd.findIdx? (fun r => r.op == (c.moreSpd[k]).op) = some k := by
      rw [List.findIdx?_eq_some_iff_getElem]
      refine ⟨hk, by simp, fun j hj => ?_⟩
      have hp := List.pairwise_iff_getElem.1 hd.2.1 j k (by simp; omega) (by simpa using hk) hj
      simp only [List.getElem_map] at hp
      simpa using fun he => hp he.symm
    rw [hf]

theorem unrecognised (b : Byte) : Statement (.unrecognised b) := fun c _ hw => by
  have hn : b ∉ c.bIdle :: c.opcodes := by simpa [Instr.wellFormed] using hw
  rw [← List.cons_append, List.mem_append, not_or] at hn
  rw [opcodeOf, decodeByte_beyond hn.1]
  have hf : c.moreSpd.findIdx? (fun r => r.op == b) = none := by
    rw [List.findIdx?_eq_none_iff]
    intro r hr
    simpa using fun he => hn.2 (List.mem_map.2 ⟨r, hr, he⟩)
  rw [hf]

end Sys2Proof.Laws.OpcodeDecodes
end

