-- ==== Sys2Proof/Laws/Step.lean ====
section
/-! SUPPORT. The step, case by case: what the environment's batch and the opcode read keep, and the three ways a poll
can go. -/

namespace Sys2Proof.Machine

/-- What the environment leaves alone: the engine's registers, the byte-level record and which directory handles are
open (R46). -/
structure EnvKeeps (s t : State) : Prop where
  cfg : t.cfg = s.cfg
  link : t.link = s.link
  phase : t.phase = s.phase
  cwd : t.cwd = s.cwd
  dircur : t.dircur = s.dircur
  wire : t.bus.wire = s.bus.wire
  handles : t.coll.dirs.map (·.handle) = s.coll.dirs.map (·.handle)

theorem EnvKeeps.trans {s t u : State} (h : EnvKeeps s t) (k : EnvKeeps t u) : EnvKeeps s u :=
  ⟨k.cfg.trans h.cfg, k.link.trans h.link, k.phase.trans h.phase, k.cwd.trans h.cwd, k.dircur.trans h.dircur,
    k.wire.trans h.wire, k.handles.trans h.handles⟩

theorem envAct_keeps (s : State) (a : EnvAction) : EnvKeeps s (s.envAct a) := by
  cases a
  case setDir h es =>
    refine ⟨rfl, rfl, rfl, rfl, rfl, rfl, ?_⟩
    simp [State.envAct, Coll.setDirEntries, Function.comp_def]
    intro d _
    split <;> rfl
  all_goals exact ⟨rfl, rfl, rfl, rfl, rfl, rfl, rfl⟩

theorem envActs_keep : ∀ (acts : List EnvAction) (s : State), EnvKeeps s (acts.foldl State.envAct s)
  | [], _ => ⟨rfl, rfl, rfl, rfl, rfl, rfl, rfl⟩
  | a :: l, s => (envAct_keeps s a).trans (envActs_keep l _)

/-- The environment's batch leaves the engine alone (R46). -/
theorem envStep_keeps (s : State) : EnvKeeps s s.envStep := by
  unfold State.envStep
  split
  · exact ⟨rfl, rfl, rfl, rfl, rfl, rfl, rfl⟩
  · rename_i acts rest _
    exact EnvKeeps.trans (t := { s with between := rest }) ⟨rfl, rfl, rfl, rfl, rfl, rfl, rfl⟩ (envActs_keep _ _)

/-- The three ways a poll that may run goes (R151). -/
theorem step_cases (s : State) (h : s.phase = .idle) :
    (s.envStep.link = false ∧ step s = .next (presenceExchange s.envStep)) ∨
    (s.envStep.link = true ∧ s.fetched.1 = none ∧ step s = .next (linkLoss s.fetched.2)) ∨
    (s.envStep.link = true ∧ ∃ op, s.fetched.1 = some op ∧
        step s = exec (decodeByte s.fetched.2.cfg op) s.fetched.2) := by
  unfold step poll State.fetched
  rw [if_pos h]
  cases hl : s.envStep.link
  · exact .inl ⟨rfl, rfl⟩
  · rw [if_pos rfl]
    rcases hf : opcodeRead s.envStep with ⟨_ | op, u⟩
    · exact .inr (.inl ⟨rfl, rfl, rfl⟩)
    · exact .inr (.inr ⟨rfl, op, rfl, rfl⟩)

/-- A presence exchange leaves the walking registers and the collaborators alone (R152). -/
theorem presenceExchange_keeps (s : State) : (presenceExchange s).cwd = s.cwd ∧ (presenceExchange s).dircur = s.dircur ∧
    (presenceExchange s).coll = s.coll := by
  unfold presenceExchange
  have h1 := State.send_keeps { s with phase := .presence } s.cfg.bIdle s.cfg.tIdleTx
  rcases e1 : ({ s with phase := .presence } : State).send s.cfg.bIdle s.cfg.tIdleTx with ⟨_ | _, u⟩
  · rw [e1] at h1; exact ⟨h1.cwd, h1.dircur, h1.coll⟩
  · rw [e1] at h1
    dsimp only
    have h2 := State.recv_keeps u u.cfg.tIdleRx false
    rcases e2 : u.recv u.cfg.tIdleRx false with ⟨_ | _ | _, v⟩ <;> rw [e2] at h2
    · dsimp only
      split <;> exact ⟨h2.cwd.trans h1.cwd, h2.dircur.trans h1.dircur, h2.coll.trans h1.coll⟩
    all_goals exact ⟨h2.cwd.trans h1.cwd, h2.dircur.trans h1.dircur, h2.coll.trans h1.coll⟩

/-- The opcode read leaves the collaborators alone. -/
theorem fetched_coll (s : State) : s.fetched.2.coll = s.envStep.coll := by
  unfold State.fetched opcodeRead
  have := State.recv_keeps ({ s.envStep with phase := .opcodeRead } : State) s.envStep.cfg.tCmd false
  rcases hr : ({ s.envStep with phase := .opcodeRead } : State).recv s.envStep.cfg.tCmd false with ⟨r, t⟩
  rw [hr] at this
  cases r <;> exact this.coll

/-- The opcode read leaves the configuration, the link and the two walking registers alone. -/
theorem fetched_keeps (s : State) : s.fetched.2.cfg = s.cfg ∧ s.fetched.2.link = s.link ∧ s.fetched.2.cwd = s.cwd ∧
    s.fetched.2.dircur = s.dircur := by
  have h := envStep_keeps s
  unfold State.fetched opcodeRead
  have := State.recv_keeps ({ s.envStep with phase := .opcodeRead } : State) s.envStep.cfg.tCmd false
  rcases hr : ({ s.envStep with phase := .opcodeRead } : State).recv s.envStep.cfg.tCmd false with ⟨r, t⟩
  rw [hr] at this
  have k := And.intro (this.cfg.trans h.cfg)
    (And.intro (this.link.trans h.link) (And.intro (this.cwd.trans h.cwd) (this.dircur.trans h.dircur)))
  cases r <;> exact k

/-- Only an idle engine steps. -/
theorem step_idle {s t : State} (h : step s = .next t) : s.phase = .idle := by
  by_contra hp
  unfold step at h
  rw [if_neg hp] at h
  cases h

end Sys2Proof.Machine
end

