-- ==== Sys2Proof/Tests/Slice0.lean ====
section
/-! SUPPORT. Tests. Expected bytes are those of spec/95_test_vectors.md (each test names its vector) or of the encodings
of spec/30_encoding.md; then, for every obligation with hypotheses, a concrete state and operands that meet them. -/

namespace Sys2Proof.Tests

open Sys2Proof.Machine

/-! ## Helpers -/

/-- A host that offers these bytes and then takes `n`, each at once. -/
def keepsUp (bs : List Byte) (n : Nat) : List Sample := (bs ++ List.replicate n 0).map readySample

/-- A sample of a host that does nothing, after which every timeout has passed. -/
def silent : Sample := { ibf := true, obf := true, din := 0, dt := 1000 }

/-- REFCFG after reset, linked. -/
def linked : State := { State.reset with link := true }

/-- `s` with this host before it. -/
def facing (s : State) (h : List Sample) : State := { s with bus := { s.bus with host := h } }

/-- The slots of spec/95_test_vectors.md 2.4, with the listed bytes its vectors look at. -/
def disks : Coll :=
  let a : Slot := { isOpen := true, writable := true, path := [0x2F, 0x41, 0x2E, 0x50, 0x33, 0x32], image := [], unflushed := false }
  let b : Slot := { a with path := [0x2F, 0x42], image := [(4608, 1), (5119, 2)] }
  let d : Slot := { a with writable := false, path := [0x2F, 0x44] }
  (((Coll.reset).setSlot 0 a).setSlot 1 b).setSlot 3 d

/-- Linked, with those slots. -/
def start : State := { linked with coll := disks }

/-- `s` with this image in slot `d`. -/
def holding (s : State) (d : Fin 4) (m : Memory) : State :=
  { s with coll := s.coll.setSlot d { s.coll.slot d with image := m } }

/-- What a poll shows: its byte-level events in order, and its result. -/
def seen (s : State) : Option (List WireEvent × Bool) :=
  match step s with
  | .next t => some (t.bus.wire.reverse, t.pollResult)
  | .fault _ => none
  | .refused _ => none

/-- Whether a property holds of the state a poll leaves. -/
def leaves (s : State) (p : State → Bool) : Bool :=
  match step s with
  | .next t => p t
  | .fault _ => false
  | .refused _ => false

/-- Bytes in, then bytes out, all accepted. -/
def trace (ins outs : List Byte) : List WireEvent := ins.map WireEvent.rx ++ outs.map (WireEvent.tx · true)

/-! ## Well-formedness: ill-formed terms that the check refuses -/

theorem test_spd1_needs_its_row : (Instr.spd1 1).wellFormed Config.refcfg = false := by decide

theorem test_unrecognised_is_outside_the_map :
    (Instr.unrecognised 0x51).wellFormed Config.refcfg = false ∧ (Instr.unrecognised 0xAA).wellFormed Config.refcfg = false := by
  decide

theorem test_frame_sizes_are_checked :
    (Command.lwrite 0 0 [1]).wellFormed Config.refcfg = false ∧
    (Command.pwrite 0 0 [] 0).wellFormed Config.refcfg = false ∧
    (Command.ramrd [0, 0, 0]).wellFormed Config.refcfg = false ∧
    (Command.ramwr []).wellFormed Config.refcfg = false ∧
    (Command.ramex [0]).wellFormed Config.refcfg = false ∧
    (Command.spd0 [0]).wellFormed Config.refcfg = false ∧
    (Command.spd1 0 [0]).wellFormed Config.refcfg = false ∧
    (Command.mount 0 0 3 [0x41]).wellFormed Config.refcfg = false ∧
    (Command.mount 0 0 0xFF [0x41]).wellFormed Config.refcfg = false := by decide

theorem test_frame_strings_are_bounded :
    (Command.chdir (List.replicate 256 0)).wellFormed Config.refcfg = false ∧
    (Command.create (List.replicate 256 0)).wellFormed Config.refcfg = false := by decide +kernel

/-! ## Decoding: words written out from R100 (opcode bytes of REFCFG) -/

theorem test_decode_link : decodeTableWord 8 0xAA = some .idle ∧ decodeTableWord 8 0x00 = some (.unrecognised 0x00) := by
  decide +kernel

theorem test_decode_block :
    decodeTableWord 8 0x42 = some .boot ∧ decodeTableWord 8 0x51 = some .lread ∧ decodeTableWord 8 0x52 = some .pread ∧
    decodeTableWord 8 0x54 = some .lwrite ∧ decodeTableWord 8 0x57 = some .pwrite ∧
    decodeTableWord 8 0x46 = some .format := by decide +kernel

theorem test_decode_legacy :
    decodeTableWord 8 0x49 = some .chdrv ∧ decodeTableWord 8 0x55 = some .ramrd ∧ decodeTableWord 8 0x44 = some .ramwr ∧
    decodeTableWord 8 0x4A = some .ramex ∧ decodeTableWord 8 0x4E = some .spd0 ∧
    decodeTableWord 8 0x53 = some (.spd1 0) := by decide +kernel

theorem test_decode_extended :
    decodeTableWord 8 0x50 = some .getpath ∧ decodeTableWord 8 0x4D = some .mount ∧ decodeTableWord 8 0x47 = some .getcwd ∧
    decodeTableWord 8 0x4C = some .dir ∧ decodeTableWord 8 0x43 = some .chdir ∧ decodeTableWord 8 0x4B = some .create ∧
    decodeTableWord 8 0x59 = some .info := by decide +kernel

/-- A further toggle that a configuration adds (R218). -/
theorem test_decode_more_spd :
    decodeByte { Config.refcfg with moreSpd := [⟨0x01, 0, 1⟩, ⟨0x02, 0, 1⟩] } 0x02 = .spd1 2 := by decide

/-- The frame of X9, its checksum byte included. -/
theorem test_frame_chdir : (Command.chdir [0x2E, 0x2E]).frame Config.refcfg = [0x43, 0x02, 0x2E, 0x2E, 0x41] := by decide

/-- The frames of S1 and X5. -/
theorem test_parse_frames :
    parseFrame Config.refcfg [0x51, 0, 0, 0x51, 7] = .ok (.lread 0 0, [7]) ∧
    parseFrame Config.refcfg [0x4D, 1, 1, 5, 0x58, 0x2E, 0x50, 0x33, 0x32, 0x6F] =
      .ok (.mount 1 1 5 [0x58, 0x2E, 0x50, 0x33, 0x32], []) ∧
    parseFrame Config.refcfg [0x51, 0, 0, 0x50] = .error .badChecksum ∧
    parseFrame Config.refcfg [0x51, 0, 0] = .error .truncated := by decide

/-! ## Operands (vectors A1 to A17) -/

theorem test_remap_A3_A4 : selDrive 0x40 = 2 ∧ selDrive 0x80 = 1 ∧ selDrive 0xC0 = 3 ∧ selDrive 0x3F = 0 := by decide

theorem test_offsets_A2_to_A16 :
    byteOffset .read 0x00 (selSector 4 128 0x23) = 4480 ∧ byteOffset .read 0x00 (selSector 4 128 0x24) = 4608 ∧
    byteOffset .write 0x4F (selSector 4 128 0x24) = 368640 ∧ byteOffset .read 0xFF (selSector 4 128 0xFF) = 1183104 ∧
    byteOffset .read 0x00 (selSector 4 512 0x3F) = 1920 ∧ byteOffset .write 0x4F (selSector 4 512 0x0F) = 365952 ∧
    byteOffset .format 0x02 (selSector 4 0 0x3F) = 9216 := by decide

/-- R233: joining, parents, the extension. -/
theorem test_paths :
    joinPath [0x2F] [0x2F] [0x2F] [0x41] = [0x2F, 0x41] ∧ joinPath [0x2F] [0x2F] [0x2F, 0x41] [0x42] = [0x2F, 0x41, 0x2F, 0x42] ∧
    parentPath [0x2F] [0x2F] [0x2F, 0x41, 0x2F, 0x42] = [0x2F, 0x41] ∧ parentPath [0x2F] [0x2F] [0x2F, 0x41] = [0x2F] ∧
    endsExt [0x41, 0x2E, 0x50, 0x33, 0x32] = true ∧ endsExt [0x70, 0x33, 0x32] = false := by decide

/-! ## Transport (vectors T3 to T13) -/

theorem test_recv_fold_T1_T2 :
    (({ facing linked (keepsUp [0x5A] 0) with crc := 0 }).recv 9 false).2.crc = 0x5A ∧
    (({ facing linked (keepsUp [0x5A] 0) with crc := 0x5A }).recv 9 false).2.crc = 0 := by decide

theorem test_close_out_T4_T5 :
    (({ facing linked (keepsUp [0x5A] 1) with crc := 0x5A }).recv 9 true).2.bus.wire = [.tx 0x33 true, .rx 0x5A] ∧
    (({ facing linked (keepsUp [0x5B] 1) with crc := 0x5A }).recv 9 true).2.bus.wire = [.tx 0x99 true, .rx 0x5B] ∧
    (({ facing linked (keepsUp [0x5B] 1) with crc := 0x5A }).recv 9 true).2.crc = 1 := by decide

theorem test_close_out_timeout_T6 :
    (({ facing linked [silent, readySample 0] with crc := 0x5A }).recv 9 true).2.bus.wire = [.tx 0x99 true, .rxTimeout] ∧
    (({ facing linked [silent, readySample 0] with crc := 0x5A }).recv 9 true).2.crc = 0x5A := by decide

/-- A lost acknowledgement does not change the result. -/
theorem test_lost_ack_T7 :
    (({ facing linked [readySample 0x5A, silent] with crc := 0x5A }).recv 9 true).1 = .ok 0x5A := by decide

theorem test_send_lines_T8 :
    ((facing linked (keepsUp [] 1)).send 0xC3 9).2.bus.lines =
      [.dir false, .hiZ, .ibf false, .stb true, .pulse 5, .stb false, .drive 0xC3, .dir true] := by decide

theorem test_payload_T10 :
    (match sendPayload 4 { facing linked (keepsUp [] 5) with buf := bufWrite linked.buf 0 [1, 2, 4, 8] } with
      | .done _ t => t.bus.wire.reverse
      | .abort _ _ => []) = [.tx 1 true, .tx 2 true, .tx 4 true, .tx 8 true, .tx 0x0F true] := by decide +kernel

theorem test_payload_refused_T13 :
    (match sendPayload 4 { facing linked (keepsUp [] 2 ++ [silent]) with buf := bufWrite linked.buf 0 [1, 2, 4, 8] } with
      | .done _ _ => []
      | .abort _ t => t.bus.wire.reverse) = [.tx 1 true, .tx 2 true, .tx 4 false] := by decide +kernel

/-! ## Dispatcher and link (vectors K1 to K11) -/

theorem test_presence_K1 :
    leaves (facing State.reset [readySample 0, readySample 0xAA]) (fun t => t.link && !t.pollResult) = true := by decide +kernel

theorem test_presence_K8_K9_K10 :
    seen (facing State.reset [silent]) = some ([.tx 0xAA false], false) ∧
    seen (facing State.reset [readySample 0, readySample 0x55]) = some ([.tx 0xAA true, .rx 0x55], false) ∧
    seen (facing State.reset [readySample 0, silent]) = some ([.tx 0xAA true, .rxTimeout], false) := by decide +kernel

theorem test_idle_K2 : seen (facing linked (keepsUp [0xAA] 0)) = some ([.rx 0xAA], false) := by decide +kernel

theorem test_unknown_K3 : seen (facing linked (keepsUp [0x00] 1)) = some ([.rx 0, .tx 0x99 true], false) := by decide +kernel

theorem test_unknown_nak_lost_K5 :
    seen (facing linked [readySample 0x07, silent]) = some ([.rx 7, .tx 0x99 false], false) := by decide +kernel

theorem test_link_loss_K7 :
    seen (facing linked [silent]) = some ([.rxTimeout], false) ∧ leaves (facing linked [silent]) (fun t => !t.link) = true := by
  decide +kernel

/-- A poll started inside a poll is outside the model (U14). -/
theorem test_reentry_refused : step { linked with phase := .opcodeRead } = .refused .pollReentered := rfl

/-! ## Block commands (vectors S1 and B1 to B17) -/

theorem test_boot_B1 :
    seen (facing start (keepsUp [0x42, 0x42] 131)) =
      some (trace [0x42, 0x42] ([0x33, 0] ++ List.replicate 128 0xE5 ++ [0]), true) := by decide +kernel

/-- P2 poll 6: slot A closed. -/
theorem test_boot_closed : seen (facing linked (keepsUp [0x42, 0x42] 2)) = some (trace [0x42, 0x42] [0x33, 0x05], true) := by
  decide +kernel

theorem test_lread_S1 :
    seen (facing (holding start 0 (Memory.cellsOf 0 (List.replicate 128 0xAA))) (keepsUp [0x51, 0, 0, 0x51] 131)) =
      some (trace [0x51, 0, 0, 0x51] ([0x33, 0] ++ List.replicate 128 0xAA ++ [0]), true) := by decide +kernel

theorem test_lread_B6_B10 :
    seen (facing start (keepsUp [0x51, 0x40, 0, 0x11] 2)) = some (trace [0x51, 0x40, 0, 0x11] [0x33, 0x05], true) ∧
    seen (facing start (keepsUp [0x51, 0xFF, 0x4F, 0xE1] 2)) =
      some (trace [0x51, 0xFF, 0x4F, 0xE1] [0x33, 0x03], true) := by decide +kernel

/-- The frame and the storage request of B3, with a host that does not take the result byte. -/
theorem test_pread_B3 :
    leaves (facing start (keepsUp [0x52, 0x80, 0x01, 0xD3] 1 ++ [silent])) (fun t =>
      t.coll.requests == [.memRead 1 4608 512] &&
      t.bus.wire.reverse == trace [0x52, 0x80, 0x01, 0xD3] [0x33] ++ [.tx 0 false]) = true := by decide +kernel

/-- Raw drive 1 is slot C, which is closed: `RC_INVDRV` and no payload. -/
theorem test_pread_closed :
    seen (facing start (keepsUp [0x52, 0x40, 0, 0x12] 2)) = some (trace [0x52, 0x40, 0, 0x12] [0x33, 5], true) := by
  decide +kernel

theorem test_lwrite_B4 :
    leaves (facing start (keepsUp ([0x54, 0x85, 0x02] ++ List.replicate 128 0x11 ++ [0xD3]) 2)) (fun t =>
      (t.coll.slot 1).image.read 9855 == 0xE5 && (t.coll.slot 1).image.read 9856 == 0x11 &&
      (t.coll.slot 1).image.read 9983 == 0x11 && (t.coll.slot 1).image.read 9984 == 0xE5 &&
      t.bus.wire.head? == some (.tx 0 true)) = true := by decide +kernel

/-- B5 (write-protected: `RC_WRPROT`) and B12 (the host stops inside the data). -/
theorem test_lwrite_B5_B12 :
    leaves (facing start (keepsUp ([0x54, 0xC0, 0] ++ List.replicate 128 0x11 ++ [0x94]) 2)) (fun t =>
      t.coll == start.coll && t.bus.wire.head? == some (.tx 1 true)) = true ∧
    leaves (facing start (keepsUp ([0x54, 0, 0] ++ List.replicate 10 1) 0 ++ [silent])) (fun t =>
      t.coll == start.coll && t.bus.wire.head? == some .rxTimeout && t.pollResult) = true := by decide +kernel

/-- R178: the 513th byte is folded and discarded (`57 ^ C0 ^ 5A = CD`); slot D is write-protected. -/
theorem test_pwrite_extra_byte :
    leaves (facing start (keepsUp ([0x57, 0xC0, 0] ++ List.replicate 512 1 ++ [0x5A, 0xCD]) 2)) (fun t =>
      t.coll == start.coll && t.bus.wire.take 2 == [.tx 1 true, .tx 0x33 true]) = true := by decide +kernel

theorem test_pwrite_B17 :
    leaves (facing start (keepsUp ([0x57, 0, 0] ++ List.replicate 512 1 ++ [0x57]) 0 ++ [silent, readySample 0])) (fun t =>
      t.coll == start.coll && t.bus.wire.head? == some (.tx 0x99 true)) = true := by decide +kernel

theorem test_format_B9 :
    leaves (facing (holding start 0 [(13824, 1), (18432, 2)]) (keepsUp [0x46, 0x3F, 0x03, 0x7A] 2)) (fun t =>
      (t.coll.slot 0).image == [(18432, 2)] &&
      t.coll.requests == [.memFlush 0, .memWrite 0 13824 4608] && t.bus.wire.head? == some (.tx 0 true)) = true := by
  decide +kernel

/-- R64: the file behind the slot has the bytes after the flush, and a mount of its path into another slot reads them. -/
theorem test_flush_reaches_the_file :
    fileLookup (disks.memWrite 0 4 [7]).2.files (disks.slot 0).path = none ∧
    (((({ disks with mounts := [.ok []] } : Coll).memWrite 0 4 [7]).2.memFlush 0).mount Config.refcfg 2
      (disks.slot 0).path false).2.slot 2 =
      { disks.slot 0 with image := [(4, 7)], unflushed := false } := by decide

theorem test_format_B7_B8 :
    seen (facing start (keepsUp [0x46, 0xC0, 0, 0x86] 2)) = some (trace [0x46, 0xC0, 0, 0x86] [0x33, 0x01], true) ∧
    seen (facing start (keepsUp [0x46, 0x80, 0x50, 0x96] 2)) = some (trace [0x46, 0x80, 0x50, 0x96] [0x33, 0x02], true) := by
  decide +kernel

/-! ## Change drive and legacy commands (vectors C1 to C4, L1 to L7) -/

theorem test_chdrv_C2_C3_C4 :
    seen (facing start (keepsUp [0x49, 2, 0x4B] 2)) = some (trace [0x49, 2, 0x4B] [0x33, 5], true) ∧
    seen (facing start (keepsUp [0x49, 3, 0x4A] 2)) = some (trace [0x49, 3, 0x4A] [0x33, 0], true) ∧
    seen (facing start (keepsUp [0x49, 4, 0x4D] 2)) = some (trace [0x49, 4, 0x4D] [0x33, 5], true) := by decide +kernel

theorem test_ramrd_L1_L6 :
    seen (facing start (keepsUp [0x55, 0, 0x80, 0x10, 0, 0xC5] 2)) =
      some (trace [0x55, 0, 0x80, 0x10, 0, 0xC5] [0x33, 0], true) ∧
    seen (facing start (keepsUp [0x55, 0, 0x80, 0x10, 0, 0xC4] 2)) =
      some (trace [0x55, 0, 0x80, 0x10, 0, 0xC4] [0x99], true) := by decide +kernel

theorem test_ramwr_L2 :
    seen (facing start (keepsUp [0x44, 1, 2, 3, 4, 0x40] 2)) = some (trace [0x44, 1, 2, 3, 4, 0x40] [0x33, 0], true) := by
  decide +kernel

theorem test_ramex_L3_L7 :
    seen (facing start (keepsUp [0x4A, 0, 0x80, 0xCA] 2)) = some (trace [0x4A, 0, 0x80, 0xCA] [0x33, 0], true) ∧
    seen (facing start (keepsUp [0x4A, 0, 0x80, 0xCA] 1 ++ [silent])) =
      some (trace [0x4A, 0, 0x80, 0xCA] [0x33] ++ [.tx 0 false], true) := by decide +kernel

theorem test_spd0_L4 : seen (facing start (keepsUp [0x4E, 0x4E] 2)) = some (trace [0x4E, 0x4E] [0x33, 0], true) := by
  decide +kernel

theorem test_spd1_L5 : seen (facing start (keepsUp [0x53, 0x53] 2)) = some (trace [0x53, 0x53] [0x33, 0], true) := by
  decide +kernel

/-! ## Extended commands (vectors X1 to X16 and P5) -/

theorem test_getpath_X1 :
    seen (facing start (keepsUp [0x50, 0, 0x50] 10)) =
      some (trace [0x50, 0, 0x50] [0x33, 0, 0, 5, 0x41, 0x2E, 0x50, 0x33, 0x32, 0x3B], true) := by decide +kernel

theorem test_getpath_X2_X3 :
    seen (facing start (keepsUp [0x50, 2, 0x52] 5)) = some (trace [0x50, 2, 0x52] [0x33, 0, 0, 0, 0], true) ∧
    seen (facing start (keepsUp [0x50, 4, 0x54] 2)) = some (trace [0x50, 4, 0x54] [0x33, 5], true) := by decide +kernel

theorem test_mount_X4_X7 :
    leaves (facing start (keepsUp [0x4D, 1, 0, 0, 0x4C] 2)) (fun t =>
      !(t.coll.slot 1).isOpen && (t.coll.slot 0).isOpen && t.bus.wire.head? == some (.tx 0 true)) = true ∧
    leaves (facing start (keepsUp [0x4D, 4, 0, 0, 0x49] 2)) (fun t =>
      t.coll == start.coll && t.bus.wire.head? == some (.tx 5 true)) = true := by decide +kernel

/-- X5: `cwd = /GAMES`, the collaborator answers OK. -/
theorem test_mount_X5 :
    leaves (facing { start with cwd := [0x2F, 0x47], coll := { disks with mounts := [.ok []] } }
      (keepsUp [0x4D, 1, 1, 5, 0x58, 0x2E, 0x50, 0x33, 0x32, 0x6F] 2)) (fun t =>
      (t.coll.slot 1).isOpen && !(t.coll.slot 1).writable &&
      (t.coll.slot 1).path == [0x2F, 0x47, 0x2F, 0x58, 0x2E, 0x50, 0x33, 0x32]) = true := by decide +kernel

theorem test_getcwd_X13 : seen (facing start (keepsUp [0x47, 0x47] 3)) = some (trace [0x47, 0x47] [0x33, 0, 0], true) := by
  decide +kernel

/-- P5 poll 8: `cwd = /GAMES`. -/
theorem test_getcwd_P5 :
    seen (facing { start with cwd := [0x2F, 0x47, 0x41, 0x4D, 0x45, 0x53] } (keepsUp [0x47, 0x47] 8)) =
      some (trace [0x47, 0x47] [0x33, 5, 0x47, 0x41, 0x4D, 0x45, 0x53, 0x58], true) := by decide +kernel

theorem test_dir_reset_X15 :
    seen (facing { start with coll := { disks with opens := [some []] } } (keepsUp [0x4C, 0, 0x4C] 6)) =
      some (trace [0x4C, 0, 0x4C] [0x33, 3, 0x5B, 0x2E, 0x5D, 0x2B], true) := by decide +kernel

/-- P5 poll 3: a file without the extension is skipped. -/
theorem test_dir_next_P5 :
    seen (facing { start with
        dircur := some 0
        coll := { disks with
          dirs := [⟨0, [⟨[0x52, 0x2E, 0x54], false⟩, ⟨[0x41, 0x2E, 0x70, 0x33, 0x32], false⟩]⟩] } }
        (keepsUp [0x4C, 1, 0x4D] 8)) =
      some (trace [0x4C, 1, 0x4D] [0x33, 5, 0x41, 0x2E, 0x70, 0x33, 0x32, 0x1B], true) := by decide +kernel

theorem test_chdir_X8_X10 :
    leaves (facing start (keepsUp ([0x43, 0x40] ++ List.replicate 64 0x41 ++ [0x03]) 2)) (fun t =>
      t.cwd == [0x2F] && t.bus.wire.head? == some (.tx 7 true)) = true ∧
    seen (facing start (keepsUp [0x43, 1, 0x2E, 0x6C] 2)) = some (trace [0x43, 1, 0x2E, 0x6C] [0x33, 0], true) := by
  decide +kernel

theorem test_chdir_X9 :
    leaves (facing { start with cwd := [0x2F, 0x47] } (keepsUp [0x43, 2, 0x2E, 0x2E, 0x41] 2)) (fun t =>
      t.cwd == [0x2F] && t.bus.wire.head? == some (.tx 0 true)) = true := by decide +kernel

theorem test_create_X14 :
    leaves (facing { start with coll := { disks with creates := [true] } } (keepsUp [0x4B, 3, 0x4E, 0x45, 0x57, 0x14] 2))
      (fun t => fileLookup t.coll.files [0x2F, 0x4E, 0x45, 0x57, 0x2E, 0x70, 0x33, 0x32] == some [] &&
        t.coll.slots == disks.slots && t.bus.wire.head? == some (.tx 0 true)) = true := by decide +kernel

theorem test_info_X11_X12 :
    seen (facing start (keepsUp [0x59, 0, 0x59] 5)) = some (trace [0x59, 0, 0x59] [0x33, 0x50, 0x24, 2, 0x76], true) ∧
    seen (facing start (keepsUp [0x59, 2, 0x5B] 5)) = some (trace [0x59, 2, 0x5B] [0x33, 0, 0, 0, 0], true) := by decide +kernel

/-! ## Witnesses: for every obligation with hypotheses, a state and operands that meet them -/

theorem answered_ready (l : Line) (T : Nat) (v : Byte) (h : List Sample) :
    answered l T (readySample v :: h) = some (readySample v, h) := by cases l <;> rfl

theorem offers_ready (T : Nat) : ∀ (bs : List Byte) (h : List Sample), offers T bs (bs.map readySample ++ h) = some h
  | [], _ => rfl
  | b :: bs, h => by
    have ih := offers_ready T bs h
    simp only [List.map_cons, List.cons_append, offers, answered_ready]
    rw [if_pos (show (readySample b).din = b from rfl)]
    exact ih

theorem takes_ready (T : Nat) (h : List Sample) : ∀ n : Nat, takes T n ((List.replicate n 0).map readySample ++ h) = some h
  | 0 => rfl
  | n + 1 => by
    have ih := takes_ready T h n
    simp only [List.replicate_succ, List.map_cons, List.cons_append, takes, answered_ready]
    exact ih

/-- A host that keeps up serves. -/
theorem serves_keepsUp_then (T : Nat) (bs : List Byte) (n : Nat) (h : List Sample) :
    serves T bs n (keepsUp bs n ++ h) h := by
  refine ⟨(List.replicate n 0).map readySample ++ h, ?_, takes_ready T h n⟩
  unfold keepsUp
  rw [List.map_append, List.append_assoc]
  exact offers_ready T bs _

theorem serves_keepsUp (T : Nat) (bs : List Byte) (n : Nat) : serves T bs n (keepsUp bs n) [] := by
  simpa using serves_keepsUp_then T bs n []

/-- A host that does nothing misses every timeout of REFCFG. -/
theorem misses_silent (l : Line) : misses l start.cfg.tXfer [silent] := by
  cases l <;> exact ⟨silent, 1000, [], rfl⟩

/-- A host that keeps up and then does nothing. -/
theorem servesOnly_keepsUp (bs : List Byte) (n : Nat) :
    servesOnly start.cfg.tXfer bs n (facing start (keepsUp bs n ++ [silent])).bus.host :=
  ⟨[silent], serves_keepsUp_then _ _ _ _, misses_silent _⟩

/-- The hypothesis of the statements that run a command in full, at a state. -/
def served (s : State) (ins : List Byte) (n : Nat) : Prop := ∃ h', serves s.cfg.tXfer ins n s.bus.host h'

theorem served_keepsUp (s : State) (bs : List Byte) (n : Nat) : served (facing s (keepsUp bs n)) bs n :=
  ⟨[], serves_keepsUp _ _ _⟩

/-- Whether `exec` answers a next state with a property. -/
def ends (i : Instr) (s : State) (p : State → Bool) : Bool :=
  match exec i s with
  | .next t => p t
  | .fault _ => false
  | .refused _ => false

theorem exists_of_ends {i : Instr} {s : State} {p : State → Bool} (h : ends i s p = true) :
    ∃ t, exec i s = .next t ∧ p t = true := by
  unfold ends at h
  split at h
  · exact ⟨_, ‹_›, h⟩
  · cases h
  · cases h

theorem exists_of_leaves {s : State} {p : State → Bool} (h : leaves s p = true) : ∃ t, step s = .next t ∧ p t = true := by
  unfold leaves at h
  split at h
  · exact ⟨_, ‹_›, h⟩
  · cases h
  · cases h

/-- REFCFG is valid: the hypothesis of `ResetMeetsInvariant` and of `ArgumentCheck`. -/
theorem witness_valid : Config.refcfg.Valid := by decide

theorem witness_DecodeOfEncode :
    Config.refcfg.Valid ∧ (Instr.spd1 0).wellFormed Config.refcfg = true ∧
    (Instr.unrecognised 0x00).wellFormed Config.refcfg = true := by decide

/-- The clauses of the frame lengths and the round trip, at the ends of their ranges. -/
theorem witness_FrameRoundTrip_FrameLengths :
    (Command.lwrite 0xFF 0xFF (List.replicate 128 7)).wellFormed Config.refcfg = true ∧
    (Command.pwrite 0xFF 0xFF (List.replicate 512 7) 9).wellFormed Config.refcfg = true ∧
    (Command.ramrd [1, 2, 3, 4]).wellFormed Config.refcfg = true ∧
    (Command.ramwr [1, 2, 3, 4]).wellFormed Config.refcfg = true ∧
    (Command.ramex [1, 2]).wellFormed Config.refcfg = true ∧ (Command.spd0 []).wellFormed Config.refcfg = true ∧
    (Command.spd1 0 []).wellFormed Config.refcfg = true ∧ (Command.mount 0 0 0 []).wellFormed Config.refcfg = true ∧
    (Command.mount 3 1 0xFF []).wellFormed Config.refcfg = true ∧
    (Command.mount 3 1 0xFE (List.replicate 254 1)).wellFormed Config.refcfg = true ∧
    (Command.chdir (List.replicate 255 1)).wellFormed Config.refcfg = true ∧
    (Command.create []).wellFormed Config.refcfg = true ∧ (Command.idle).wellFormed Config.refcfg = true := by
  decide +kernel

theorem witness_FrameChecksumCloses : Instr.isCommand (Command.dir 1).instr = true := rfl

theorem witness_OffsetFormula : (5 : Nat) < 6 ∧ (512 : Nat) ≠ 128 := by decide

theorem witness_OffsetsAliasAndAlign :
    36 ≤ (36 : BitVec 6).toNat ∧ 36 ≤ (63 : BitVec 6).toNat ∧ (254 : Byte).toNat < 255 := by decide

theorem witness_ParentUndoesJoin : ([0x2F, 0x41] : Path) ≠ [] ∧ (0x2F : Byte) ∉ ([0x42] : Path) := by decide

theorem witness_SendOnTheLines : linked.bus.AtDefault linked.cfg := by decide

theorem witness_WaitsAreBounded :
    (facing linked [readySample 1]).bus.host = readySample 1 :: [] ∧ Sample.at (readySample 1) .obf = false ∧
    ((facing linked [silent]).bus.wait .obf 9).1 = false := by decide

/-- The samples before the deciding one: none with a timeout of 0; 8 milliseconds of a timeout of 9, and then a sample
that takes the ninth. -/
theorem witness_WaitsAreBounded_late :
    let high (ms : Nat) : Sample := { silent with dt := ms }
    (∀ y ∈ [high 8, high 0], Sample.at y .obf = true) ∧ (([high 8, high 0].map (·.dt)).sum < 9) ∧
    (Sample.at (high 1) .obf = true ∧ 9 ≤ ([high 8, high 0].map (·.dt)).sum + (high 1).dt) ∧
    0 ≤ (([] : List Sample).map (·.dt)).sum + (high 0).dt := by decide

theorem witness_ReceiveFoldsTheByte :
    answered .obf 9 (facing linked [readySample 7]).bus.host = some (readySample 7, []) ∧
    ((facing linked [silent]).recv 9 false).1 = .timeout := by decide

theorem witness_CloseOutAnswers :
    (({ facing linked [readySample 7] with crc := 7 }).recv 9 true).1 = .ok 7 ∧
    (({ facing linked [readySample 7] with crc := 6 }).recv 9 true).1 = .bad 7 ∧
    ((facing linked [silent]).recv 9 true).1 = .timeout := by decide

theorem witness_PayloadStreams :
    takes linked.cfg.tXfer (512 + 1) (facing linked (keepsUp [] 513 ++ [])).bus.host = some [] ∧
    ∃ c t, sendPayload 0 (facing linked [silent]) = .abort c t :=
  ⟨takes_ready _ [] 513, _, _, rfl⟩

/-- Of `LinesRefineBytes`, `PollResultMeansDispatch` and the second clause of `OnlyOpcodeReadFailureUnlinks`. -/
theorem witness_step : ∃ t, step (facing linked (keepsUp [0x4E, 0x4E] 2)) = .next t ∧ (t.pollResult && t.link) = true :=
  exists_of_leaves (by decide +kernel)

theorem witness_MemReadDelivers :
    disks.stores = [] ∧ 368512 + 128 ≤ 368640 ∧ 368640 < 368513 + 128 ∧
    1 < (({ disks with stores := [2] } : Coll).memRead 0 368638 128).1.length ∧ 368638 + 1 < 368640 := by decide

theorem witness_MemWriteStoresPrefix :
    1 < ([5, 6, 7] : List Byte).length ∧ 1 < (({ disks with stores := [2] } : Coll).memWrite 0 368638 [5, 6, 7]).1 ∧
    368638 + 1 < 368640 := by decide

theorem witness_ReferenceStoreWrites :
    disks.stores = [] ∧ 368637 + ([5, 6, 7] : List Byte).length ≤ 368640 ∧
    368640 < 368638 + ([5, 6, 7] : List Byte).length := by decide

theorem witness_StepRunsDecodedCommand :
    (facing linked (keepsUp [0x51] 0)).phase = .idle ∧ (facing linked (keepsUp [0x51] 0)).envStep.link = true ∧
    (facing linked (keepsUp [0x51] 0)).fetched.1 = some 0x51 ∧ (facing linked [silent]).fetched.1 = none := by decide +kernel

theorem witness_PresenceExchangeCases : State.reset.link = false := rfl

theorem witness_LinkUpAndDown :
    (State.reset.link = false ∧
      answered .ibf State.reset.cfg.tIdleTx (keepsUp [0, 0xAA] 0) = some (readySample 0, [readySample 0xAA]) ∧
      answered .obf State.reset.cfg.tIdleRx [readySample 0xAA] = some (readySample 0xAA, []) ∧
      (readySample 0xAA).din = State.reset.cfg.bIdle) ∧
    linked.link = true ∧ (opcodeRead (facing linked [silent])).1 = none := by decide +kernel

theorem witness_LinkUpAndDown_down :
    (facing linked [silent]).link = true ∧ ∃ t, poll (facing linked [silent]) = .next t ∧ t.link = false :=
  ⟨rfl, _, rfl, rfl⟩

theorem witness_BootReadsFirstBytes :
    start.cfg.Valid ∧
    served (facing start (keepsUp [0x42] (1 + (readReply disks 0 0 128).length))) [0x42]
      (1 + (readReply disks 0 0 128).length) := ⟨by decide, served_keepsUp _ _ _⟩

theorem witness_LreadSendsSector :
    served (facing start (keepsUp [0x23, 0x4F, 0x51 ^^^ 0x23 ^^^ 0x4F]
        (1 + (readReply disks 0 (sectorOffset 0x4F 35) 128).length)))
      [0x23, 0x4F, 0x51 ^^^ 0x23 ^^^ 0x4F] (1 + (readReply disks 0 (sectorOffset 0x4F 35) 128).length) :=
  served_keepsUp _ _ _

theorem witness_PreadSendsFourSectors :
    start.cfg.Valid ∧
    served (facing start (keepsUp [0xC5, 0x4F, 0x52 ^^^ 0xC5 ^^^ 0x4F] (1 + (readReply disks 3 (sectorOffset 0x4F 5) 512).length)))
      [0xC5, 0x4F, 0x52 ^^^ 0xC5 ^^^ 0x4F] (1 + (readReply disks 3 (sectorOffset 0x4F 5) 512).length) :=
  ⟨by decide, served_keepsUp _ _ _⟩

/-- The inbound bytes of a logical write of 128 times 0x11. -/
def writeIns (sel trk : Byte) : List Byte :=
  sel :: trk :: (List.replicate 128 0x11 ++ [checksum (0x54 :: sel :: trk :: List.replicate 128 0x11)])

theorem witness_LwriteStoresSector :
    (List.replicate 128 (0x11 : Byte)).length = 128 ∧
    served (facing start (keepsUp (writeIns 0x23 0x4F) 2)) (writeIns 0x23 0x4F) 2 :=
  ⟨List.length_replicate, served_keepsUp _ _ _⟩

/-- The inbound bytes of a physical write of 512 times 0x11 and an extra byte. -/
def physicalIns (sel trk extra : Byte) : List Byte :=
  sel :: trk :: (List.replicate 512 0x11 ++
    [extra, checksum (0x57 :: sel :: trk :: (List.replicate 512 0x11 ++ [extra]))])

theorem witness_PwriteStoresFirst512 :
    start.cfg.Valid ∧ (List.replicate 512 (0x11 : Byte)).length = 512 ∧
    served (facing start (keepsUp (physicalIns 0x0F 0x4F 0x5A) 2)) (physicalIns 0x0F 0x4F 0x5A) 2 :=
  ⟨by decide, List.length_replicate, served_keepsUp _ _ _⟩

theorem witness_FormatFillsTrack :
    served (facing start (keepsUp [0x00, 0x4F, 0x46 ^^^ 0x00 ^^^ 0x4F] 2)) [0x00, 0x4F, 0x46 ^^^ 0x00 ^^^ 0x4F] 2 ∧
    formatReply disks 0 (0x4F * 4608) = RC_OK := ⟨served_keepsUp _ _ _, by decide +kernel⟩

/-- The same statements' other clause, and that of the extended commands: a host that does not take the result byte, or
the length byte of a listing. -/
theorem witness_reply_not_taken :
    servesOnly start.cfg.tXfer (writeIns 0x23 0x4F) 1 (facing start (keepsUp (writeIns 0x23 0x4F) 1 ++ [silent])).bus.host ∧
    servesOnly start.cfg.tXfer (physicalIns 0x0F 0x4F 0x5A) 1
      (facing start (keepsUp (physicalIns 0x0F 0x4F 0x5A) 1 ++ [silent])).bus.host ∧
    ∀ ins ∈ ([[0x00, 0x4F, 0x46 ^^^ 0x00 ^^^ 0x4F], [3, 0, 1, 0x58, checksum [0x4D, 3, 0, 1, 0x58]], [0, checksum [0x43, 0]],
        [1, 0x58, checksum [0x4B, 1, 0x58]], [0, 0x4C], [0xFF, 0x4C ^^^ 0xFF]] : List (List Byte)),
      servesOnly start.cfg.tXfer ins 1 (facing start (keepsUp ins 1 ++ [silent])).bus.host :=
  ⟨servesOnly_keepsUp _ _, servesOnly_keepsUp _ _, fun _ _ => servesOnly_keepsUp _ _⟩

/-- A write to the last sector of the image and a read of it. -/
theorem witness_WriteThenReadRoundTrip :
    (start.coll.slot (selDrive 0x23)).isOpen = true ∧ (start.coll.slot (selDrive 0x23)).writable = true ∧
    start.coll.stores = [] ∧ sectorOffset 0x4F ((0x23 : Byte).toNat % 64) + 128 ≤ 368640 ∧
    ∃ s' t, served (facing start (keepsUp (writeIns 0x23 0x4F) 2)) (writeIns 0x23 0x4F) 2 ∧
      exec .lwrite (facing start (keepsUp (writeIns 0x23 0x4F) 2)) = .next t ∧ s'.coll = t.coll ∧
      served s' [0x23, 0x4F, 0x51 ^^^ 0x23 ^^^ 0x4F] 131 := by
  refine ⟨by decide, by decide, rfl, by decide, ?_⟩
  obtain ⟨p, h, -⟩ := exec_handled .lwrite (facing start (keepsUp (writeIns 0x23 0x4F) 2)) rfl
  exact ⟨{ facing start (keepsUp [0x23, 0x4F, 0x51 ^^^ 0x23 ^^^ 0x4F] 131) with coll := p.leave.coll }, p.leave,
    served_keepsUp _ _ _, h, rfl, [], serves_keepsUp _ _ _⟩

/-- The argument check fails in each of its three ways. -/
theorem witness_ArgumentCheck :
    KindFlags.mk true true false ≠ KindFlags.read ∧ KindFlags.mk true true false ≠ KindFlags.write ∧
    KindFlags.mk true true false ≠ KindFlags.format ∧ (512 : Nat) < 513 ∧ KindFlags.write.fFormat = false := by decide

theorem witness_ChdrvAnswersWhetherOpen :
    served (facing start (keepsUp [3, 0x49 ^^^ 3] 2)) [3, 0x49 ^^^ 3] 2 ∧
    served (facing start (keepsUp [4, 0x49 ^^^ 4] 2)) [4, 0x49 ^^^ 4] 2 := ⟨served_keepsUp _ _ _, served_keepsUp _ _ _⟩

theorem witness_LegacyCommandsAreInert :
    legacyRow start.cfg .ramrd = some ⟨0x55, 4, 1⟩ ∧ ([1, 2, 3, 4] : List Byte).length = 4 ∧
    served (facing start (keepsUp [1, 2, 3, 4, checksum [0x55, 1, 2, 3, 4]] 2)) ([1, 2, 3, 4] ++ [checksum [0x55, 1, 2, 3, 4]])
      (1 + 1) := ⟨rfl, rfl, served_keepsUp _ _ _⟩

theorem witness_LegacyNakDiscipline :
    ∃ t es, legacyRow start.cfg .spd0 = some ⟨0x4E, 0, 1⟩ ∧ exec .spd0 (facing start (keepsUp [0x4E] 2)) = .next t ∧
      t.bus.wire = es ++ (facing start (keepsUp [0x4E] 2)).bus.wire ∧
      t.lastEnd ≠ some .crcMismatch ∧ t.lastEnd ≠ some .rxTimeout := by
  obtain ⟨t, h1, h2⟩ := exists_of_ends (i := .spd0) (s := facing start (keepsUp [0x4E] 2))
    (p := fun t => t.lastEnd == none) (by decide +kernel)
  have h3 : t.lastEnd = none := by simpa using h2
  exact ⟨t, t.bus.wire, rfl, h1, (List.append_nil _).symm, by rw [h3]; decide, by rw [h3]; decide⟩

/-- An open slot, a closed one, and the ends of the index range. -/
theorem witness_GetpathReportsSlot :
    served (facing start (keepsUp [0, 0x50 ^^^ 0] 10)) [0, 0x50 ^^^ 0] (1 + 9) ∧
    served (facing start (keepsUp [2, 0x50 ^^^ 2] 5)) [2, 0x50 ^^^ 2] (1 + 4) ∧
    served (facing start (keepsUp [4, 0x50 ^^^ 4] 2)) [4, 0x50 ^^^ 4] (1 + 1) :=
  ⟨served_keepsUp _ _ _, served_keepsUp _ _ _, served_keepsUp _ _ _⟩

/-- No path bytes for a length of 0 or 0xFF, else that many. -/
theorem witness_MountUnmountsThenMounts :
    ([] : Path).length = (if (0 : Byte) = 0 ∨ (0 : Byte) = 0xFF then 0 else (0 : Byte).toNat) ∧
    ([] : Path).length = (if (0xFF : Byte) = 0 ∨ (0xFF : Byte) = 0xFF then 0 else (0xFF : Byte).toNat) ∧
    ([0x58] : Path).length = (if (1 : Byte) = 0 ∨ (1 : Byte) = 0xFF then 0 else (1 : Byte).toNat) ∧
    served (facing start (keepsUp [3, 0, 1, 0x58, checksum [0x4D, 3, 0, 1, 0x58]] 2))
      [3, 0, 1, 0x58, checksum [0x4D, 3, 0, 1, 0x58]] 2 :=
  ⟨rfl, rfl, rfl, served_keepsUp _ _ _⟩

theorem witness_MountAndUnmountEffects :
    Config.refcfg.Valid ∧ (disks.slot 0).isOpen = true ∧ (disks.slot 2).isOpen = false ∧
    fileLookup (disks.unmount 0).files (disks.slot 0).path = some [] ∧ fileLookup disks.files [0x2F, 0x58] = none ∧
    (({ disks.unmount 0 with mounts := [.ok [(0, 1)]] } : Coll).mount Config.refcfg 2 (disks.slot 0).path true).1 = RC_OK ∧
    (({ disks with mounts := [.ok []] } : Coll).mount Config.refcfg 2 [0x2F, 0x58] true).1 = RC_OK ∧
    (({ disks with mounts := [.nak] } : Coll).mount Config.refcfg 2 [0x2F, 0x58] true).1 ≠ RC_OK := by decide

theorem witness_GetcwdReportsDirectory :
    start.cfg.Valid ∧ start.CwdOk ∧ served (facing start (keepsUp [0x47] 3)) [0x47] (3 + 0) :=
  ⟨by decide, by decide, served_keepsUp _ _ _⟩

/-- At the root with an open cursor. -/
theorem witness_DirResetStartsListing :
    served (facing { start with dircur := some 0 } (keepsUp [0, 0x4C] 6)) [0, 0x4C] (3 + 3) := served_keepsUp _ _ _

/-- The clauses on the collaborator's answer to the open. -/
theorem witness_DirResetStartsListing_answers :
    ({ linked with dircur := some 0, coll := { disks with dirs := [⟨0, []⟩], nextHandle := 1 } } : State).CursorOk ∧
    ({ disks with opens := [some [⟨[0x41], true⟩]] } : Coll).openAnswer = some [⟨[0x41], true⟩] ∧
    ({ disks with opens := [none] } : Coll).openAnswer = none :=
  ⟨⟨rfl, fun h hh => by cases hh; decide⟩, rfl, rfl⟩

theorem witness_DirNextAdvancesListing :
    (0xFF : Byte) ≠ 0 ∧ served (facing start (keepsUp [0xFF, 0x4C ^^^ 0xFF] 3)) [0xFF, 0x4C ^^^ 0xFF] (3 + 0) :=
  ⟨by decide, served_keepsUp _ _ _⟩

/-- The empty string, and one byte more than the wire allows. -/
theorem witness_ChdirMovesOrKeeps_CreateMakesFilledFile :
    ([] : Path).length < 256 ∧ (List.replicate 64 (0x41 : Byte)).length < 256 ∧
    served (facing start (keepsUp [0, checksum [0x43, 0]] 2)) [0, checksum [0x43, 0]] 2 ∧
    served (facing start (keepsUp [1, 0x58, checksum [0x4B, 1, 0x58]] 2)) [1, 0x58, checksum [0x4B, 1, 0x58]] 2 :=
  ⟨by decide, by decide, served_keepsUp _ _ _, served_keepsUp _ _ _⟩

theorem witness_InfoReportsGeometry :
    served (facing start (keepsUp [3, 0x59 ^^^ 3] 5)) [3, 0x59 ^^^ 3] 5 ∧
    served (facing start (keepsUp [4, 0x59 ^^^ 4] 5)) [4, 0x59 ^^^ 4] 5 := ⟨served_keepsUp _ _ _, served_keepsUp _ _ _⟩

/-- Of `AbortEntry`'s last clause. -/
theorem witness_AbortEntry : start.bus.AtDefault start.cfg := by decide

/-- Of `EarlyAbortsLeaveNoTrace`: the three causes (the third under a configuration without boot bytes). -/
theorem witness_EarlyAbortsLeaveNoTrace :
    (∃ t, exec .lread (facing start [silent]) = .next t ∧ (t.lastEnd == some .rxTimeout) = true) ∧
    (∃ t, exec .spd0 (facing start (keepsUp [0] 1)) = .next t ∧ (t.lastEnd == some .crcMismatch) = true) ∧
    (∃ t, exec .boot { start with cfg := { start.cfg with bootCount := 0 } } = .next t ∧
      (t.lastEnd == some .argCheck) = true) :=
  ⟨exists_of_ends (p := fun t => t.lastEnd == some .rxTimeout) (by decide +kernel),
   exists_of_ends (p := fun t => t.lastEnd == some .crcMismatch) (by decide +kernel),
   exists_of_ends (p := fun t => t.lastEnd == some .argCheck) (by decide +kernel)⟩

/-- The same for the host that offers a wrong checksum byte: the shortest body and a whole physical write. -/
theorem witness_EarlyAbortsLeaveNoTrace_checksum :
    start.cfg.Valid ∧
    ((Command.boot).wellFormed start.cfg = true ∧ Instr.isCommand (Command.boot).instr = true ∧
      0x43 ≠ checksum (opcodeOf start.cfg (Command.boot).instr :: (Command.boot).body) ∧
      offers start.cfg.tXfer ((Command.boot).body ++ [0x43]) (keepsUp [0x43] 0) = some []) ∧
    ((Command.pwrite 0 0 (List.replicate 512 1) 9).wellFormed start.cfg = true ∧
      0x00 ≠ checksum (opcodeOf start.cfg .pwrite :: (Command.pwrite 0 0 (List.replicate 512 1) 9).body) ∧
      offers start.cfg.tXfer ((Command.pwrite 0 0 (List.replicate 512 1) 9).body ++ [0])
        (((Command.pwrite 0 0 (List.replicate 512 1) 9).body ++ [0]).map readySample ++ []) = some []) :=
  ⟨by decide, ⟨by decide, by decide, by decide, by decide⟩, by decide +kernel, by decide +kernel, offers_ready _ _ _⟩

/-- Of `AbortsShowOnTheWire`, its third clause; the first two are above. -/
theorem witness_AbortsShowOnTheWire :
    ∃ t, exec .spd0 (facing start (keepsUp [0x4E] 1 ++ [silent])) = .next t ∧ (t.lastEnd == some .txTimeout) = true :=
  exists_of_ends (p := fun t => t.lastEnd == some .txTimeout) (by decide +kernel)

/-- Of `AbortsShowOnTheWire`, the host that falls silent: before the first byte, before the last one, and where the
checksum byte is due. -/
theorem witness_AbortsShowOnTheWire_silent :
    (Command.chdir [0x41]).wellFormed start.cfg = true ∧ Instr.isCommand (Command.chdir [0x41]).instr = true ∧
    (Command.chdir [0x41]).body = [] ++ [1, 0x41] ∧ (Command.chdir [0x41]).body = [1] ++ [0x41] ∧
    (Command.chdir [0x41]).body = [1, 0x41] ++ [] ∧
    (∀ q ∈ ([[], [1], [1, 0x41]] : List (List Byte)),
      offers start.cfg.tXfer q (q.map readySample ++ [silent]) = some [silent]) ∧
    misses .obf start.cfg.tXfer [silent] :=
  ⟨by decide, rfl, rfl, rfl, rfl, fun _ _ => offers_ready _ _ _, misses_silent _⟩

/-- The clauses on whole polls of `OnlyChdirChangesCwd` and `OnlyDirMovesCursor`. -/
theorem witness_polls_that_walk :
    (∃ t, step (facing { start with cwd := [0x2F, 0x47] } (keepsUp [0x43, 2, 0x2E, 0x2E, 0x41] 2)) = .next t ∧
      (t.cwd != [0x2F, 0x47]) = true) ∧
    ∃ t, step (facing { start with coll := { disks with opens := [some []] } } (keepsUp [0x4C, 0, 0x4C] 6)) = .next t ∧
      (t.dircur != start.dircur && t.coll.dirs.map (·.handle) != start.coll.dirs.map (·.handle)) = true :=
  ⟨exists_of_leaves (p := fun t => t.cwd != [0x2F, 0x47]) (by decide +kernel),
   exists_of_leaves (p := fun t => t.dircur != start.dircur &&
     t.coll.dirs.map (·.handle) != start.coll.dirs.map (·.handle)) (by decide +kernel)⟩

theorem witness_OnlyChdirChangesCwd :
    ∃ t, exec .chdir (facing { start with cwd := [0x2F, 0x47] } (keepsUp [2, 0x2E, 0x2E, 0x41] 2)) = .next t ∧
      (t.cwd != [0x2F, 0x47]) = true :=
  exists_of_ends (p := fun t => t.cwd != [0x2F, 0x47]) (by decide +kernel)

/-- Of `OnlyDirMovesCursor` and `SlotsChangeOnlyByMountAndWrites`, and of the first clause of
`OnlyOpcodeReadFailureUnlinks`. -/
theorem witness_exec : ∃ t, exec .info (facing start (keepsUp [0, 0x59] 5)) = .next t ∧ t.pollResult = true :=
  exists_of_ends (p := fun t => t.pollResult) (by decide +kernel)

theorem witness_StoresOnlyWhereAddressed :
    (∃ t, exec .lwrite (facing start (keepsUp (writeIns 0x23 0x4F) 2)) = .next t ∧ (t.coll != disks) = true) ∧
    (∃ t, exec .pwrite (facing start (keepsUp (physicalIns 0x0F 0x4F 0) 2)) = .next t) ∧
    (∃ t, exec .format (facing (holding start 0 [(0, 1)]) (keepsUp [0, 0, 0x46] 2)) = .next t ∧
      ((t.coll.slot 0).image == []) = true) ∧ start.cfg.secw < 6 :=
  ⟨exists_of_ends (p := fun t => t.coll != disks) (by decide +kernel),
   (exec_handled .pwrite _ rfl).elim fun _ h => ⟨_, h.1⟩,
   exists_of_ends (p := fun t => (t.coll.slot 0).image == []) (by decide +kernel), by decide⟩

/-- A linked machine with open slots, a directory cursor and a quiet host. -/
def running : State :=
  { start with dircur := some 0, coll := { disks with dirs := [⟨0, [⟨[0x41], true⟩]⟩], nextHandle := 1 } }

theorem running_inv : running.Inv where
  cfgValid := by decide
  idle := rfl
  busDefault := by decide
  cwdOk := by decide
  cursorOk := ⟨rfl, fun h hh => by cases hh; decide⟩
  collOk := ⟨by decide, fun _ h => by cases h⟩

theorem witness_StepKeepsInvariant : ∃ t, running.Inv ∧ step running = .next t := by
  rcases step_cases running rfl with ⟨-, h⟩ | ⟨-, -, h⟩ | ⟨-, op, -, h⟩
  · exact ⟨_, running_inv, h⟩
  · exact ⟨_, running_inv, h⟩
  · rw [h]
    generalize decodeByte running.fetched.2.cfg op = i
    cases i <;> exact ⟨_, running_inv, rfl⟩

theorem witness_PollAlwaysReturns : linked.phase = .idle ∧ ({ linked with phase := .opcodeRead } : State).phase ≠ .idle := by
  decide

end Sys2Proof.Tests
end

/-! PROOFS. What every poll does and keeps, whatever the host answers: the lines follow the byte-level events (O18), the
invariant is kept (O58), and what reset leaves (O56). -/

namespace Sys2Proof.Machine

/-! ## The environment's batch -/

/-- A property that taking a batch from the plan and every single act keep is kept by the whole batch (R46). -/
theorem envStep_preserves {P : State → Prop} (hplan : ∀ u rest, P u → P { u with between := rest })
    (hact : ∀ u a, P u → P (u.envAct a)) {s : State} (hs : P s) : P s.envStep := by
  unfold State.envStep
  split
  · exact hs
  · rename_i acts rest _
    have hfold : ∀ (l : List EnvAction) (u : State), P u → P (l.foldl State.envAct u) := by
      intro l
      induction l with
      | nil => exact fun _ h => h
      | cons a l ih => exact fun u h => ih _ (hact u a h)
    exact hfold acts _ (hplan s rest hs)

/-- The environment may move the input lines and the clock, never the engine's record of its own line events. -/
theorem envStep_lines (s : State) : s.envStep.bus.lines = s.bus.lines :=
  envStep_preserves (P := fun u => u.bus.lines = s.bus.lines) (fun _ _ h => h)
    (fun u a h => by cases a <;> exact h) rfl

theorem envStep_wired (s : State) : Wired AnyEvent s s.envStep :=
  Wired.same (envStep_keeps s).cfg (envStep_keeps s).wire (envStep_lines s)

/-! ## Every handler moves the lines by whole `Send` and `Recv` calls only -/

theorem chdrvHandler_wired (s : State) : Wired AnyEvent s (chdrvHandler s).at :=
  Wired.bind (recvArg_wired_any s) fun drv t => Wired.bind (closeOut_wired t) fun _ u =>
    Wired.trans (t := u.setResult (chdrvResult u.coll drv)) (Wired.same rfl rfl rfl)
      (State.send_wired _ _ _ fun _ => trivial)

theorem getpathHandler_wired (s : State) : Wired AnyEvent s (getpathHandler s).at :=
  Wired.bind (recvArg_wired_any s) fun drv t => Wired.bind (closeOut_wired t) fun _ u => by
    split
    · exact sendResult_wired _ u
    · exact Wired.bind (sendResult_wired _ u) fun _ v => sendFramed_wired _ v

theorem mountString_wired (L : Byte) (s : State) : Wired AnyEvent s (mountString L s).at := by
  unfold mountString
  split
  · exact Wired.refl s
  · exact recvStr_wired (fun _ => trivial) trivial _ s

theorem mountHandler_wired (s : State) : Wired AnyEvent s (mountHandler s).at :=
  Wired.bind (recvArg_wired_any s) fun _ t => Wired.bind (recvArg_wired_any t) fun _ u =>
    Wired.bind (recvArg_wired_any u) fun _ v => Wired.bind (mountString_wired _ v) fun _ w =>
      Wired.bind (closeOut_wired w) fun _ _ => Wired.after_action rfl rfl (sendResult_wired _ _)

theorem getcwdHandler_wired (s : State) : Wired AnyEvent s (getcwdHandler s).at :=
  Wired.bind (closeOut_wired s) fun _ t => sendFramed_wired _ t

theorem dirReset_bus (s : State) : (dirReset s).2.cfg = s.cfg ∧ (dirReset s).2.bus = s.bus := by
  unfold dirReset dirDiscard
  split <;> exact ⟨rfl, rfl⟩

theorem dirAdvance_bus (s : State) : (dirAdvance s).2.cfg = s.cfg ∧ (dirAdvance s).2.bus = s.bus := by
  unfold dirAdvance
  split
  · exact ⟨rfl, rfl⟩
  · dsimp only
    split <;> exact ⟨rfl, rfl⟩

theorem dirHandler_wired (s : State) : Wired AnyEvent s (dirHandler s).at :=
  Wired.bind (recvArg_wired_any s) fun flag t => Wired.bind (closeOut_wired t) fun _ u => by
    by_cases h : flag = 0
    · simp only [h, if_true]
      exact Wired.after_action (dirReset_bus u).1 (dirReset_bus u).2 (sendFramed_wired _ _)
    · simp only [h, if_false]
      exact Wired.after_action (dirAdvance_bus u).1 (dirAdvance_bus u).2 (sendFramed_wired _ _)

theorem chdirAct_bus (L : Byte) (p : Path) (s : State) :
    (chdirAct L p s).2.cfg = s.cfg ∧ (chdirAct L p s).2.bus = s.bus := by
  unfold chdirAct
  dsimp only
  split_ifs <;> exact ⟨rfl, rfl⟩

theorem chdirHandler_wired (s : State) : Wired AnyEvent s (chdirHandler s).at :=
  Wired.bind (recvArg_wired_any s) fun L t => Wired.bind (recvStr_wired (fun _ => trivial) trivial _ t) fun p u =>
    Wired.bind (closeOut_wired u) fun _ v =>
      Wired.after_action (chdirAct_bus L p v).1 (chdirAct_bus L p v).2 (sendResult_wired _ _)

theorem createHandler_wired (s : State) : Wired AnyEvent s (createHandler s).at :=
  Wired.bind (recvArg_wired_any s) fun _ t => Wired.bind (recvStr_wired (fun _ => trivial) trivial _ t) fun _ u =>
    Wired.bind (closeOut_wired u) fun _ _ => Wired.after_action rfl rfl (sendResult_wired _ _)

theorem infoHandler_wired (s : State) : Wired AnyEvent s (infoHandler s).at :=
  Wired.bind (recvArg_wired_any s) fun _ t => Wired.bind (closeOut_wired t) fun _ u => sendFramed_wired _ u

/-! ## Commands, polls and steps -/

theorem runHandler_wired {i : Instr} {h : State → Progress Unit} {s t : State}
    (hw : ∀ u, Wired AnyEvent u (h u).at) (hr : runHandler i h s = .next t) : Wired AnyEvent s t := by
  cases hr
  exact leave_wired (hw (s.dispatch i))

theorem exec_wired {i : Instr} {s t : State} (h : exec i s = .next t) : Wired AnyEvent s t := by
  cases i with
  | idle => cases h; exact Wired.same rfl rfl rfl
  | unrecognised b => cases h; exact State.send_wired s _ _ fun _ => trivial
  | boot | lread | pread | lwrite | pwrite | format => exact runHandler_wired (blockIO_wired _ _ _) h
  | ramrd | ramwr | ramex | spd0 | spd1 => exact runHandler_wired (legacyHandler_wired _) h
  | chdrv => exact runHandler_wired chdrvHandler_wired h
  | getpath => exact runHandler_wired getpathHandler_wired h
  | mount => exact runHandler_wired mountHandler_wired h
  | getcwd => exact runHandler_wired getcwdHandler_wired h
  | dir => exact runHandler_wired dirHandler_wired h
  | chdir => exact runHandler_wired chdirHandler_wired h
  | create => exact runHandler_wired createHandler_wired h
  | info => exact runHandler_wired infoHandler_wired h

/-- However a presence exchange goes, it is transfers, then the end of the poll with some value of `link` (R152). -/
theorem presenceExchange_ends (s : State) : ∃ u l how,
    presenceExchange s = ({ u with link := l } : State).endPoll false how ∧
    Transferred { s with phase := .presence } u ∧ Wired AnyEvent s u := by
  unfold presenceExchange
  have hsend := State.send_keeps { s with phase := .presence } s.cfg.bIdle s.cfg.tIdleTx
  have wsend := State.send_wired (Q := AnyEvent) { s with phase := .presence } s.cfg.bIdle s.cfg.tIdleTx
    fun _ => trivial
  rcases e1 : ({ s with phase := .presence } : State).send s.cfg.bIdle s.cfg.tIdleTx with ⟨_ | _, u⟩ <;>
    rw [e1] at hsend wsend
  · exact ⟨u, _, _, rfl, hsend, wsend⟩
  · have hrecv := hsend.trans (State.recv_keeps u u.cfg.tIdleRx false)
    have wrecv := Wired.trans wsend (State.recv_wired (Q := AnyEvent) u u.cfg.tIdleRx (fun _ => trivial) trivial)
    dsimp only
    rcases e2 : u.recv u.cfg.tIdleRx false with ⟨_ | _ | _, v⟩ <;> rw [e2] at hrecv wrecv
    · dsimp only
      split <;> exact ⟨v, _, _, rfl, hrecv, wrecv⟩
    all_goals exact ⟨v, _, _, rfl, hrecv, wrecv⟩

theorem presenceExchange_wired (s : State) : Wired AnyEvent s (presenceExchange s) := by
  obtain ⟨u, l, how, e, -, hw⟩ := presenceExchange_ends s
  rw [e]
  exact hw

/-- The state after the opcode read is that after its one `Recv` (R153). -/
theorem opcodeRead_state (s : State) :
    (opcodeRead s).2 = (({ s with phase := .opcodeRead } : State).recv s.cfg.tCmd false).2 := by
  unfold opcodeRead
  rcases ({ s with phase := .opcodeRead } : State).recv s.cfg.tCmd false with ⟨_ | _ | _, u⟩ <;> rfl

theorem opcodeRead_wired (s : State) : Wired AnyEvent s (opcodeRead s).2 := by
  rw [opcodeRead_state]
  exact State.recv_wired (Q := AnyEvent) { s with phase := .opcodeRead } s.cfg.tCmd (fun _ => trivial) trivial

theorem step_wired {s t : State} (h : step s = .next t) : Wired AnyEvent s t := by
  have henv := envStep_wired s
  have hread : Wired AnyEvent s s.fetched.2 := henv.trans (opcodeRead_wired s.envStep)
  rcases step_cases s (step_idle h) with ⟨-, e⟩ | ⟨-, -, e⟩ | ⟨-, op, -, e⟩ <;> rw [e] at h
  · cases h
    exact henv.trans (presenceExchange_wired _)
  · cases h
    exact hread
  · exact hread.trans (exec_wired h)

/-- Settles O18: every part of a poll is a run of transfers, each of which adds the lines of its one event. -/
theorem linesRefineBytes : Obligations.LinesRefineBytes := by
  intro s t h
  obtain ⟨-, es, hwire, hlines, -⟩ := step_wired h
  exact ⟨es, hwire, hlines⟩

/-! ## The invariant -/

/-- The invariant without the sequencer position, which a running poll moves. -/
structure State.Sound (s : State) : Prop where
  cfgValid : s.cfg.Valid
  busDefault : s.bus.AtDefault s.cfg
  cwdOk : s.CwdOk
  cursorOk : s.CursorOk
  collOk : s.coll.Ok

theorem State.Inv.sound {s : State} (h : s.Inv) : s.Sound :=
  ⟨h.cfgValid, h.busDefault, h.cwdOk, h.cursorOk, h.collOk⟩

/-- The end of a poll makes the sequencer idle (R332). -/
theorem State.Sound.endPoll {s : State} (h : s.Sound) (r : Bool) (e : Option Cause) : (s.endPoll r e).Inv :=
  ⟨h.cfgValid, rfl, h.busDefault, h.cwdOk, h.cursorOk, h.collOk⟩

/-- Sequencer position, checksum and latches are no part of it. -/
theorem State.Sound.dispatch {s : State} (h : s.Sound) (i : Instr) : (s.dispatch i).Sound :=
  ⟨h.cfgValid, h.busDefault, h.cwdOk, h.cursorOk, h.collOk⟩

theorem State.Sound.setPhase {s : State} (h : s.Sound) (p : Phase) : ({ s with phase := p } : State).Sound :=
  ⟨h.cfgValid, h.busDefault, h.cwdOk, h.cursorOk, h.collOk⟩

theorem State.Sound.setLink {s : State} (h : s.Sound) (l : Bool) : ({ s with link := l } : State).Sound :=
  ⟨h.cfgValid, h.busDefault, h.cwdOk, h.cursorOk, h.collOk⟩

theorem Acted.sound {s t : State} (h : Acted s t) (hs : s.Sound) : t.Sound where
  cfgValid := h.cfg ▸ hs.cfgValid
  busDefault := h.cfg ▸ h.lines hs.busDefault
  cwdOk := h.cwd hs.cfgValid hs.cwdOk
  cursorOk := h.cursor hs.cursorOk
  collOk := h.coll hs.collOk

theorem Transferred.sound {s t : State} (h : Transferred s t) (hs : s.Sound) : t.Sound := h.acted.sound hs

/-- Each act of the environment keeps images canonical, paths within capacity and the open handles as they are. -/
theorem envAct_sound {s : State} (hs : s.Sound) (a : EnvAction) : (s.envAct a).Sound := by
  have hcursor : (s.envAct a).CursorOk := by
    have hk := envAct_keeps s a
    have hnext : (s.envAct a).coll.nextHandle = s.coll.nextHandle := by cases a <;> rfl
    unfold State.CursorOk
    rw [hk.handles, hk.dircur, hnext]
    exact hs.cursorOk
  refine ⟨by cases a <;> exact hs.cfgValid, by cases a <;> exact hs.busDefault, by cases a <;> exact hs.cwdOk, hcursor,
    ?_⟩
  cases a with
  | setSlot d o w p m =>
    exact hs.collOk.setSlot d (Memory.canon_wf m) (by rw [List.length_take]; exact Nat.min_le_left _ _)
  | setFile p m => exact ⟨hs.collOk.1, filePut_wf hs.collOk.2 p (Memory.canon_wf m)⟩
  | loseFile p => exact ⟨hs.collOk.1, fun f hf => hs.collOk.2 f (List.mem_filter.1 hf).1⟩
  | setDir | tick | setLines => exact hs.collOk

theorem envStep_sound {s : State} (hs : s.Sound) : s.envStep.Sound :=
  envStep_preserves (P := State.Sound) (fun _ _ h => ⟨h.cfgValid, h.busDefault, h.cwdOk, h.cursorOk, h.collOk⟩)
    (fun _ a h => envAct_sound h a) hs

theorem presenceExchange_inv {s : State} (hs : s.Sound) : (presenceExchange s).Inv := by
  obtain ⟨u, l, how, e, ht, -⟩ := presenceExchange_ends s
  rw [e]
  exact ((ht.sound (hs.setPhase .presence)).setLink l).endPoll _ _

theorem opcodeRead_sound {s : State} (hs : s.Sound) : (opcodeRead s).2.Sound := by
  rw [opcodeRead_state]
  exact (State.recv_keeps { s with phase := .opcodeRead } s.cfg.tCmd false).sound (hs.setPhase .opcodeRead)

/-- Every instruction ends its poll in a state that meets the invariant: a command by `exec_ends`, the other two bytes
after at most one `Send`. -/
theorem exec_inv {i : Instr} {s t : State} (hs : s.Sound) (h : exec i s = .next t) : t.Inv := by
  cases hc : Instr.isCommand i with
  | false =>
    cases i with
    | idle => cases h; exact hs.endPoll _ _
    | unrecognised b => cases h; exact ((State.send_keeps s _ _).sound hs).endPoll _ _
    | _ => cases hc
  | true =>
    rcases exec_ends i s t h with ⟨hn, -⟩ | ⟨c, v, hv, rfl, -⟩ | ⟨v, u, w, how, hv, hact, hw, rfl, -⟩
    · rw [hc] at hn; cases hn
    · exact (hv.sound (hs.dispatch i)).endPoll _ _
    · exact (hw.sound ((act_acts i v u hact).sound (hv.sound (hs.dispatch i)))).endPoll _ _

/-- Settles O58: the environment, the opcode read and every way a poll goes keep the invariant's parts, and the end of
the poll makes the sequencer idle again. -/
theorem stepKeepsInvariant : Obligations.StepKeepsInvariant := by
  intro s t hinv h
  have henv := envStep_sound hinv.sound
  have hread : s.fetched.2.Sound := opcodeRead_sound henv
  rcases step_cases s hinv.idle with ⟨-, e⟩ | ⟨-, -, e⟩ | ⟨-, op, -, e⟩ <;> rw [e] at h
  · cases h
    exact presenceExchange_inv henv
  · cases h
    exact (hread.setLink false).endPoll _ _
  · exact exec_inv hread h

/-! ## Reset -/

/-- Settles O56: the register by register reading of R50, R51 and R53. -/
theorem resetState : Obligations.ResetState :=
  fun _ => ⟨rfl, rfl, rfl, rfl, rfl, rfl, rfl, rfl⟩

end Sys2Proof.Machine

/-! PROOFS. Which calls and commands change the slot table and the files: unmount and mount (O42), and the commands
(O54). -/

namespace Sys2Proof.Machine

/-! ## Unmount and mount (R42) -/

theorem Coll.unmount_open {c : Coll} {d : Fin 4} (h : (c.slot d).isOpen = true) :
    c.unmount d = { (c.ask (.unmount d)).setSlot d { c.slot d with isOpen := false } with
      files := filePut c.files (c.slot d).path (c.slot d).image } := if_pos h

theorem Coll.unmount_closed {c : Coll} {d : Fin 4} (h : (c.slot d).isOpen = false) :
    c.unmount d = c.ask (.unmount d) := if_neg (by simp [h])

/-- Unmounting clears the open mark of its slot; on a closed slot that is no change. -/
theorem Coll.unmount_slot_same (c : Coll) (d : Fin 4) :
    (c.unmount d).slot d = { c.slot d with isOpen := false } := by
  cases h : (c.slot d).isOpen with
  | true =>
    rw [Coll.unmount_open h]
    exact Coll.slot_setSlot_same _ d _
  | false =>
    rw [Coll.unmount_closed h, Coll.slot_ask, ← h]

theorem Coll.unmount_slot_other (c : Coll) {d e : Fin 4} (h : e ≠ d) : (c.unmount d).slot e = c.slot e := by
  cases ho : (c.slot d).isOpen with
  | true =>
    rw [Coll.unmount_open ho]
    exact Coll.slot_setSlot_other (c.ask (.unmount d)) _ h
  | false => rw [Coll.unmount_closed ho, Coll.slot_ask]

/-- The byte a mount answers follows from the collaborator's answer. -/
theorem Coll.mount_result (cfg : Config) (c : Coll) (d : Fin 4) (path : Path) (ro : Bool) :
    (c.mount cfg d path ro).1 = (match c.mountAnswer with
      | .ok _ => RC_OK | .noPath => RC_NOPATH | .imgUnknown => RC_IMGUNK | .nak => cfg.bNak) := by
  unfold Coll.mount
  cases c.mountAnswer <;> rfl

theorem Coll.mount_files (cfg : Config) (c : Coll) (d : Fin 4) (path : Path) (ro : Bool) :
    (c.mount cfg d path ro).2.files = c.files := by
  unfold Coll.mount
  cases c.mountAnswer <;> rfl

theorem Coll.mount_slot_other (cfg : Config) (c : Coll) {d e : Fin 4} (h : e ≠ d) (path : Path) (ro : Bool) :
    (c.mount cfg d path ro).2.slot e = c.slot e := by
  unfold Coll.mount
  cases c.mountAnswer with
  | ok contents => exact Coll.slot_setSlot_other _ _ h
  | noPath | imgUnknown | nak => rfl

/-- A mount that is answered OK fills the slot. -/
theorem Coll.mount_slot_ok (cfg : Config) {c : Coll} {contents : List Host.Cell} (h : c.mountAnswer = .ok contents)
    (d : Fin 4) (path : Path) (ro : Bool) : (c.mount cfg d path ro).2.slot d =
      { isOpen := true, writable := !ro, path := path, image := c.mountImage path contents, unflushed := false } := by
  unfold Coll.mount
  rw [h]
  exact Coll.slot_setSlot_same _ d _

/-- A mount that is refused leaves the slot table as it was. -/
theorem Coll.mount_slots_refused (cfg : Config) {c : Coll} (h : ¬∃ contents, c.mountAnswer = .ok contents) (d : Fin 4)
    (path : Path) (ro : Bool) : (c.mount cfg d path ro).2.slots = c.slots := by
  unfold Coll.mount
  cases ha : c.mountAnswer with
  | ok contents => exact absurd ⟨contents, ha⟩ h
  | noPath | imgUnknown | nak => rfl

theorem bNak_ne_ok {cfg : Config} (h : cfg.Valid) : cfg.bNak ≠ RC_OK := by
  have hnak := (List.nodup_cons.1 (List.nodup_cons.1 h.1).2).1
  exact fun he => hnak (he ▸ by decide)

/-- Under a valid configuration the result byte tells whether the collaborator answered OK. -/
theorem Coll.mount_ok_iff {cfg : Config} (hv : cfg.Valid) (c : Coll) (d : Fin 4) (path : Path) (ro : Bool) :
    (c.mount cfg d path ro).1 = RC_OK ↔ ∃ contents, c.mountAnswer = .ok contents := by
  rw [Coll.mount_result]
  cases c.mountAnswer with
  | ok contents => exact ⟨fun _ => ⟨contents, rfl⟩, fun _ => rfl⟩
  | noPath | imgUnknown => simp [RC_OK, RC_NOPATH, RC_IMGUNK]
  | nak => simpa using bNak_ne_ok hv

/-- Settles O42: the calls' effects, clause by clause, from what each call does to slots and files. -/
theorem mountAndUnmountEffects : Obligations.MountAndUnmountEffects := by
  intro c cfg d path ro
  have hresult := Coll.mount_result cfg c d path ro
  refine ⟨by rw [Coll.unmount_slot_same], fun e he => Coll.unmount_slot_other c he, Coll.unmount_slot_same c d, ?_,
    fun hclosed => by rw [Coll.unmount_closed hclosed, Coll.ask_files], ?_, hresult,
    fun e he => Coll.mount_slot_other cfg c he path ro, Coll.mount_files cfg c d path ro, ?_, ?_⟩
  · intro hopen
    rw [Coll.unmount_open hopen]
    exact ⟨fileLookup_filePut_same _ _ _, fun p hp => fileLookup_filePut_other hp _ _⟩
  · rw [hresult]
    cases c.mountAnswer with
    | ok => exact .inl rfl
    | noPath => exact .inr (.inl rfl)
    | imgUnknown => exact .inr (.inr (.inl rfl))
    | nak => exact .inr (.inr (.inr rfl))
  · intro hv hok
    obtain ⟨contents, ha⟩ := (Coll.mount_ok_iff hv c d path ro).1 hok
    rw [Coll.mount_slot_ok cfg ha]
    refine ⟨rfl, rfl, rfl, fun m hm => ?_, fun hn => ⟨contents, ha, ?_⟩⟩
    · simp [Coll.mountImage, hm]
    · simp [Coll.mountImage, hn]
  · intro hv hno
    exact Coll.mount_slots_refused cfg (mt (Coll.mount_ok_iff hv c d path ro).2 hno) d path ro

/-! ## Commands -/

/-- Every slot and every known file is as before. -/
def keepsTables (c c' : Coll) : Prop := c'.slots = c.slots ∧ c'.files = c.files

theorem keepsTables.trans {c c' c'' : Coll} (h : keepsTables c c') (k : keepsTables c' c'') : keepsTables c c'' :=
  ⟨k.1.trans h.1, k.2.trans h.2⟩

theorem keepsTables.slot {c c' : Coll} (h : keepsTables c c') (d : Fin 4) : c'.slot d = c.slot d := by
  unfold Coll.slot
  rw [h.1]

/-- Every slot is as open, as writable and under the same path as before. -/
def keepsRecords (c c' : Coll) : Prop := ∀ d, (c'.slot d).isOpen = (c.slot d).isOpen ∧
  (c'.slot d).writable = (c.slot d).writable ∧ (c'.slot d).path = (c.slot d).path

theorem keepsRecords.of_slots {c c' : Coll} (h : ∀ d, c'.slot d = c.slot d) : keepsRecords c c' := by
  intro d
  rw [h d]
  exact ⟨rfl, rfl, rfl⟩

/-- A change of one image only is no change of the records. -/
theorem keepsSlots.records {c c' : Coll} {d : Fin 4} {off n : Nat} (h : keepsSlots c c' d off n) :
    keepsRecords c c' := by
  obtain ⟨hother, hopen, hwritable, hpath, -⟩ := h
  intro e
  by_cases he : e = d
  · subst he
    exact ⟨hopen, hwritable, hpath⟩
  · rw [hother e he]
    exact ⟨rfl, rfl, rfl⟩

theorem blockStorage_read_tables (n : Nat) (s : State) : keepsTables s.coll (blockStorage .read n s).coll := by
  unfold blockStorage
  dsimp only
  split
  · exact ⟨rfl, rfl⟩
  · rw [if_neg (show ¬KindFlags.read.fWrite = true by decide), if_pos (show KindFlags.read.fRead = true from rfl)]
    unfold blockRead
    dsimp only
    split <;> exact ⟨rfl, rfl⟩

/-- A write of at most a buffer changes one image, and no file. -/
theorem blockStorage_write_outside {n : Nat} (hn : n ≤ BUF_CAP) (s : State) :
    ∃ d off, keepsOutside s.coll (blockStorage .write n s).coll d off n := by
  have hl : (s.bufTake n).length = n := by simpa [State.bufTake] using hn
  obtain ⟨l, e, -⟩ := blockStorage_write (s := s) rfl hl
  have h := (writeColl_outside s.coll s.latch.drive (byteOffset .write s.latch.track s.latch.sector) (s.bufTake n)).1
  rw [hl] at h
  rw [e]
  exact ⟨_, _, h⟩

/-- A format changes one image, and the records of no slot. -/
theorem blockStorage_format_records (n : Nat) (s : State) : keepsRecords s.coll (blockStorage .format n s).coll := by
  obtain ⟨l, e, -⟩ := blockStorage_format s n
  rw [e]
  show keepsRecords s.coll (formatColl _ _ _)
  unfold formatColl
  split
  · exact .of_slots fun _ => rfl
  · obtain ⟨-, hslots, -⟩ := (memWrite_outside s.coll s.latch.drive _ fillTrack).flush
    exact hslots.records

theorem dirOpen_tables (c : Coll) (p : Path) : keepsTables c (c.dirOpen p).2 := by
  unfold Coll.dirOpen
  dsimp only
  split <;> exact ⟨rfl, rfl⟩

theorem dirReset_tables (s : State) : keepsTables s.coll (dirReset s).2.coll := by
  have hdiscard : keepsTables s.coll (dirDiscard s).coll := by
    unfold dirDiscard
    split <;> exact ⟨rfl, rfl⟩
  exact hdiscard.trans (dirOpen_tables _ _)

theorem dirAdvance_tables (s : State) : keepsTables s.coll (dirAdvance s).2.coll := by
  unfold dirAdvance
  split
  · exact ⟨rfl, rfl⟩
  · dsimp only
    split <;> exact ⟨rfl, rfl⟩

theorem chdirAct_tables (L : Byte) (p : Path) (s : State) : keepsTables s.coll (chdirAct L p s).2.coll := by
  unfold chdirAct
  dsimp only
  split_ifs <;> exact ⟨rfl, rfl⟩

theorem createAct_slots (L : Byte) (p : Path) (s : State) : (createAct L p s).2.slots = s.coll.slots := by
  unfold createAct
  split
  · rfl
  · dsimp only
    split
    · rfl
    · exact (Coll.createImage_dirs s.coll _).2.2

/-- `i` keeps what O54 says of slots and files, from `c` to `c'`. -/
structure KeepsSlotTable (i : Instr) (c c' : Coll) : Prop where
  records : keepsRecords c c'
  slots : i ≠ .lwrite → i ≠ .pwrite → i ≠ .format → ∀ d, c'.slot d = c.slot d
  files : i ≠ .format → i ≠ .create → c'.files = c.files

theorem keepsTables.keepsSlotTable {c c' : Coll} (h : keepsTables c c') (i : Instr) : KeepsSlotTable i c c' :=
  ⟨.of_slots h.slot, fun _ _ _ => h.slot, fun _ _ => h.2⟩

/-- The action of every command but `MOUNT` keeps the slot table. -/
theorem act_keepsSlotTable {i : Instr} (hm : i ≠ .mount) {v u : State} (h : actOf i v u) :
    KeepsSlotTable i v.coll u.coll := by
  cases i with
  | mount => exact absurd rfl hm
  | boot | lread | pread =>
    obtain ⟨n, rfl⟩ := h
    exact (blockStorage_read_tables n v).keepsSlotTable _
  | lwrite =>
    cases h
    obtain ⟨d, off, ⟨hfiles, -⟩, hslots⟩ := blockStorage_write_outside (n := 128) (by decide) v
    exact ⟨hslots.records, fun h => absurd rfl h, fun _ _ => hfiles⟩
  | pwrite =>
    cases h
    obtain ⟨d, off, ⟨hfiles, -⟩, hslots⟩ := blockStorage_write_outside (n := 512) (by decide) v
    exact ⟨hslots.records, fun _ h => absurd rfl h, fun _ _ => hfiles⟩
  | format =>
    cases h
    exact ⟨blockStorage_format_records 0 v, fun _ _ h => absurd rfl h, fun h => absurd rfl h⟩
  | dir =>
    rcases h with rfl | rfl
    · exact (dirReset_tables v).keepsSlotTable _
    · exact (dirAdvance_tables v).keepsSlotTable _
  | create =>
    obtain ⟨L, p, rfl⟩ := h
    have hslot : ∀ d, (createAct L p v).2.slot d = v.coll.slot d := fun d => by
      unfold Coll.slot
      rw [createAct_slots]
    exact ⟨.of_slots hslot, fun _ _ _ => hslot, fun _ h => absurd rfl h⟩
  | chdir =>
    obtain ⟨L, p, rfl⟩ := h
    exact (chdirAct_tables L p v).keepsSlotTable _
  | _ =>
    have hcoll : u.coll = v.coll := Transferred.coll h
    rw [hcoll]
    exact keepsTables.keepsSlotTable ⟨rfl, rfl⟩ _

theorem exec_keepsSlotTable {i : Instr} {s t : State} (h : exec i s = .next t) (hm : i ≠ .mount) :
    KeepsSlotTable i s.coll t.coll := by
  have hsame : ∀ c, c = s.coll → KeepsSlotTable i s.coll c := by
    rintro c rfl
    exact keepsTables.keepsSlotTable ⟨rfl, rfl⟩ i
  rcases exec_ends i s t h with
    ⟨-, -, -, -, -, hcoll, -⟩ | ⟨c, v, hv, rfl, -⟩ | ⟨v, u, w, how, hv, hact, hw, rfl, -⟩
  · exact hsame _ hcoll
  · exact hsame _ hv.coll
  · have hk := act_keepsSlotTable hm hact
    rw [hv.coll] at hk
    rw [State.endPoll_coll, hw.coll]
    exact hk

/-- Settles O54: a command changes slots and files only in its action, and each action but `MOUNT`'s keeps what is
claimed. -/
theorem slotsChangeOnlyByMountAndWrites : Obligations.SlotsChangeOnlyByMountAndWrites := by
  intro i s t d h hm
  obtain ⟨hrecords, hslots, hfiles⟩ := exec_keepsSlotTable h hm
  obtain ⟨hopen, hwritable, hpath⟩ := hrecords d
  exact ⟨hopen, hwritable, hpath, fun h1 h2 h3 => hslots h1 h2 h3 d, hfiles⟩

end Sys2Proof.Machine

/-! PROOFS. What a poll finds in `crc`, `buf`, the latches and `D_out` is dead (O60). Two runs that differ in these four
only are followed side by side: `Alike` is what relates them between polls, `Twin` what relates them inside a handler,
where `crc` agrees and so does what the handler has already put into `buf` and the latches. -/

namespace Sys2Proof.Machine

/-! ## States that differ in stale contents only -/

/-- Contents of the four elements that a poll leaves unspecified (R52, D31). -/
structure Stale where
  crc : Byte
  buf : Vector Byte 512
  latch : Latches
  dOut : Byte

/-- `s` with other contents of the four elements. -/
def State.restale (s : State) (x : Stale) : State :=
  { s with crc := x.crc, buf := x.buf, latch := x.latch, bus := { s.bus with dOut := x.dOut } }

/-- `t` is `s` but for the four elements. -/
def Alike (s t : State) : Prop := ∃ x, t = s.restale x

/-- The end of a poll overwrites all four (R332). -/
theorem Alike.endPoll {s t : State} (h : Alike s t) (r : Bool) (e : Option Cause) : t.endPoll r e = s.endPoll r e := by
  obtain ⟨x, rfl⟩ := h
  rfl

theorem Alike.setPhase {s t : State} (h : Alike s t) (p : Phase) :
    Alike { s with phase := p } { t with phase := p } := by
  obtain ⟨x, rfl⟩ := h
  exact ⟨x, rfl⟩

theorem Alike.setLink {s t : State} (h : Alike s t) (l : Bool) : Alike { s with link := l } { t with link := l } := by
  obtain ⟨x, rfl⟩ := h
  exact ⟨x, rfl⟩

theorem Alike.cfg {s t : State} (h : Alike s t) : t.cfg = s.cfg := by
  obtain ⟨x, rfl⟩ := h
  rfl

/-- No act of the environment reads or writes one of the four. -/
theorem envAct_restale (s : State) (x : Stale) (a : EnvAction) : (s.restale x).envAct a = (s.envAct a).restale x := by
  cases a <;> rfl

theorem envStep_restale (s : State) (x : Stale) : (s.restale x).envStep = s.envStep.restale x := by
  have hfold : ∀ (acts : List EnvAction) (u : State),
      acts.foldl State.envAct (u.restale x) = (acts.foldl State.envAct u).restale x :=
    fun acts u => List.foldl_hom (State.restale · x) fun v a => envAct_restale v x a
  unfold State.envStep
  rw [show (s.restale x).between = s.between from rfl]
  cases s.between with
  | nil => rfl
  | cons acts rest => exact hfold acts { s with between := rest }

/-! ## The transport -/

/-- A wait neither reads nor writes `D_out`. -/
theorem Bus.wait_dOut (l : Line) (T : Nat) (b : Bus) (d : Byte) :
    ({ b with dOut := d } : Bus).wait l T = ((b.wait l T).1, { (b.wait l T).2 with dOut := d }) := by
  unfold Bus.wait
  dsimp only
  cases waitScript l b.clock T b.clock b.host with
  | low | late => rfl
  | ended now =>
    dsimp only
    split <;> rfl

theorem Bus.latch_dOut (c : Config) (T : Nat) (b : Bus) (d : Byte) :
    ({ b with dOut := d } : Bus).latch c T = ((b.latch c T).1, { (b.latch c T).2 with dOut := d }) := by
  unfold Bus.latch
  rw [Bus.wait_dOut]
  dsimp only
  split <;> rfl

/-- A `Send` overwrites `D_out` before anything else sees it. -/
theorem Alike.send {s t : State} (h : Alike s t) (v : Byte) (T : Nat) :
    ∃ ok u w, s.send v T = (ok, u) ∧ t.send v T = (ok, w) ∧ Alike u w := by
  obtain ⟨x, rfl⟩ := h
  exact ⟨_, _, _, rfl, rfl, { x with dOut := (s.send v T).2.bus.dOut }, rfl⟩

/-- A `Recv` without the zero test tells nothing of the `crc` it found. -/
theorem Alike.recv {s t : State} (h : Alike s t) (T : Nat) :
    ∃ r u w, s.recv T false = (r, u) ∧ t.recv T false = (r, w) ∧ Alike u w := by
  obtain ⟨x, rfl⟩ := h
  have hlatch : (s.restale x).bus.latch (s.restale x).cfg T = _ := Bus.latch_dOut s.cfg T s.bus x.dOut
  unfold State.recv
  rw [hlatch]
  rcases s.bus.latch s.cfg T with ⟨_ | v, b⟩
  · exact ⟨_, _, _, rfl, rfl, x, rfl⟩
  · exact ⟨_, _, _, rfl, rfl, { x with crc := crcFold x.crc v }, rfl⟩

/-! ## States inside a handler -/

/-- The buffers agree in their first `k` bytes. -/
def BufAgree (k : Nat) (b c : Vector Byte 512) : Prop := c.toList.take k = b.toList.take k

/-- Inside a handler: alike, with the same `crc`, buffers that agree in the first `k` bytes, and latches in relation
`L`. -/
structure Twin (k : Nat) (L : Latches → Latches → Prop) (s t : State) : Prop where
  alike : Alike s t
  crc : t.crc = s.crc
  buf : BufAgree k s.buf t.buf
  latch : L s.latch t.latch

/-- Nothing is known of the latches. -/
abbrev AnyLatch : Latches → Latches → Prop := fun _ _ => True

/-- The latches name the same drive, sector and track. -/
abbrev SameAddress : Latches → Latches → Prop := fun l m =>
  m.drive = l.drive ∧ m.sector = l.sector ∧ m.track = l.track

/-- Two handlers' progress agrees: both went on with the same value to states in relation `R`, or both aborted for the
same cause in states that are alike. -/
inductive Matched {α : Type} (R : State → State → Prop) : Progress α → Progress α → Prop where
  | done {s t : State} (a : α) : R s t → Matched R (.done a s) (.done a t)
  | abort {s t : State} (c : Cause) : Alike s t → Matched R (.abort c s) (.abort c t)

theorem Matched.bind {α β : Type} {R R' : State → State → Prop} {p q : Progress α} {f g : α → State → Progress β}
    (h : Matched R p q) (k : ∀ a s t, R s t → Matched R' (f a s) (g a t)) : Matched R' (p.bind f) (q.bind g) := by
  cases h with
  | done a hr => exact k a _ _ hr
  | abort c ha => exact .abort c ha

/-- However two matched handlers end, the poll ends in the same state. -/
theorem Matched.leave {p q : Progress Unit} (h : Matched Alike p q) : q.leave = p.leave := by
  cases h with
  | done _ ha => exact ha.endPoll _ _
  | abort c ha => exact ha.endPoll _ _

variable {k : Nat} {L : Latches → Latches → Prop} {s t : State}

theorem Twin.cfg (h : Twin k L s t) : t.cfg = s.cfg := h.alike.cfg

theorem BufAgree.zero (b c : Vector Byte 512) : BufAgree 0 b c := rfl

theorem BufAgree.mono {j k : Nat} {b c : Vector Byte 512} (h : BufAgree k b c) (hj : j ≤ k) : BufAgree j b c := by
  unfold BufAgree at h ⊢
  have hcut := congrArg (List.take j) h
  rwa [List.take_take, List.take_take, Nat.min_eq_left hj] at hcut

/-- Writing the same byte behind the agreed part extends it. -/
theorem BufAgree.set {b c : Vector Byte 512} (h : BufAgree k b c) (v : Byte) :
    BufAgree (k + 1) (b.setIfInBounds k v) (c.setIfInBounds k v) := by
  unfold BufAgree at h ⊢
  rw [Vector.toList_setIfInBounds, Vector.toList_setIfInBounds]
  have hset : ∀ l : List Byte, (l.set k v).take (k + 1) = if k < l.length then l.take k ++ [v] else l.take k := by
    intro l
    split
    · rename_i hk
      rw [List.take_succ_eq_append_getElem (by simpa using hk), List.take_set_of_le (Nat.le_refl k),
        List.getElem_set_self]
    · rename_i hk
      rw [List.set_eq_of_length_le (by omega), List.take_of_length_le (by omega), List.take_of_length_le (by omega)]
  rw [hset, hset, h]
  simp

theorem BufAgree.write : ∀ (bs : List Byte) {k : Nat} {b c : Vector Byte 512}, BufAgree k b c →
    BufAgree (k + bs.length) (bufWrite b k bs) (bufWrite c k bs)
  | [], _, _, _, h => h
  | v :: bs, k, _, _, h => by
    rw [List.length_cons, Nat.add_comm bs.length 1, ← Nat.add_assoc]
    exact BufAgree.write bs (h.set v)

/-! ## Transfers of two twins -/

theorem Twin.weaken {j : Nat} (h : Twin k L s t) (hj : j ≤ k) : Twin j L s t :=
  ⟨h.alike, h.crc, h.buf.mono hj, h.latch⟩

/-- The latches may be written on both sides. -/
theorem Twin.setLatch (h : Twin k L s t) {L' : Latches → Latches → Prop} {l m : Latches} (hl : L' l m) :
    Twin k L' { s with latch := l } { t with latch := m } := by
  obtain ⟨⟨x, rfl⟩, hcrc, hbuf, -⟩ := h
  exact ⟨⟨{ x with latch := m }, rfl⟩, hcrc, hbuf, hl⟩

theorem Twin.setCrc (h : Twin k L s t) (c : Byte) : Twin k L { s with crc := c } { t with crc := c } := by
  obtain ⟨⟨x, rfl⟩, -, hbuf, hlatch⟩ := h
  exact ⟨⟨{ x with crc := c }, rfl⟩, rfl, hbuf, hlatch⟩

theorem Twin.setBuf (h : Twin k L s t) {j : Nat} {b c : Vector Byte 512} (hb : BufAgree j b c) :
    Twin j L { s with buf := b } { t with buf := c } := by
  obtain ⟨⟨x, rfl⟩, hcrc, -, hlatch⟩ := h
  exact ⟨⟨{ x with buf := c }, rfl⟩, hcrc, hb, hlatch⟩

theorem Twin.setColl (h : Twin k L s t) (c : Coll) : Twin k L { s with coll := c } { t with coll := c } := by
  obtain ⟨⟨x, rfl⟩, hcrc, hbuf, hlatch⟩ := h
  exact ⟨⟨x, rfl⟩, hcrc, hbuf, hlatch⟩

theorem Twin.sent (h : Twin k L s t) (v : Byte) (T : Nat) : Twin k L (s.send v T).2 (t.send v T).2 := by
  obtain ⟨⟨x, rfl⟩, hcrc, hbuf, hlatch⟩ := h
  exact ⟨⟨{ x with dOut := (s.send v T).2.bus.dOut }, rfl⟩, hcrc, hbuf, hlatch⟩

theorem Twin.send (h : Twin k L s t) (v : Byte) (T : Nat) :
    ∃ ok u w, s.send v T = (ok, u) ∧ t.send v T = (ok, w) ∧ Twin k L u w := by
  have hsent := h.sent v T
  obtain ⟨⟨x, rfl⟩, -, -, -⟩ := h
  exact ⟨_, _, _, rfl, rfl, hsent⟩

/-- Two twins latch the same byte, so they fold it alike and a closing `Recv` gives the same answer. -/
theorem Twin.recv (h : Twin k L s t) (T : Nat) (chk : Bool) :
    ∃ r u w, s.recv T chk = (r, u) ∧ t.recv T chk = (r, w) ∧ Twin k L u w := by
  obtain ⟨⟨⟨crc, buf, latch, dOut⟩, rfl⟩, hcrc, hbuf, hlatch⟩ := h
  obtain rfl : crc = s.crc := hcrc
  have hbyte : (s.restale ⟨s.crc, buf, latch, dOut⟩).bus.latch s.cfg T = _ := Bus.latch_dOut s.cfg T s.bus dOut
  have htwin : ∀ (b : Bus) (c : Byte), Twin k L { s with bus := b, crc := c }
      { s with bus := { b with dOut := dOut }, crc := c, buf := buf, latch := latch } :=
    fun b c => ⟨⟨⟨c, buf, latch, dOut⟩, rfl⟩, rfl, hbuf, hlatch⟩
  unfold State.recv
  rw [show (s.restale ⟨s.crc, buf, latch, dOut⟩).cfg = s.cfg from rfl, hbyte]
  rcases s.bus.latch s.cfg T with ⟨_ | v, b⟩ <;> cases chk
  · exact ⟨_, _, _, rfl, rfl, htwin b s.crc⟩
  · exact ⟨_, _, _, rfl, rfl, (htwin b s.crc).sent _ _⟩
  · exact ⟨_, _, _, rfl, rfl, htwin b (crcFold s.crc v)⟩
  · have hsent := fun a => (htwin b (crcFold s.crc v)).sent a s.cfg.tXfer
    by_cases hg : crcGood (crcFold s.crc v) = true
    · simp only [State.restale, hg, if_true]
      exact ⟨_, _, _, rfl, rfl, hsent s.cfg.bAck⟩
    · simp only [State.restale, hg, if_true]
      exact ⟨_, _, _, rfl, rfl, hsent s.cfg.bNak⟩

theorem Matched.imp {α : Type} {R R' : State → State → Prop} {p q : Progress α} (h : Matched R p q)
    (k : ∀ s t, R s t → R' s t) : Matched R' p q := by
  cases h with
  | done a hr => exact .done a (k _ _ hr)
  | abort c ha => exact .abort c ha

theorem Matched.alike {α : Type} {p q : Progress α} (h : Matched (Twin k L) p q) : Matched Alike p q :=
  h.imp fun _ _ => Twin.alike

theorem recvArg_matched (h : Twin k L s t) : Matched (Twin k L) (recvArg s) (recvArg t) := by
  obtain ⟨r, u, w, e1, e2, hu⟩ := h.recv s.cfg.tXfer false
  unfold recvArg
  rw [h.cfg, e1, e2]
  cases r with
  | ok v => exact .done v hu
  | bad _ | timeout => exact .abort _ hu.alike

theorem closeOut_matched (h : Twin k L s t) : Matched (Twin k L) (closeOut s) (closeOut t) := by
  obtain ⟨r, u, w, e1, e2, hu⟩ := h.recv s.cfg.tXfer true
  unfold closeOut
  rw [h.cfg, e1, e2]
  cases r with
  | ok _ => exact .done () hu
  | bad _ | timeout => exact .abort _ hu.alike

theorem sendByte_matched (v : Byte) (h : Twin k L s t) : Matched (Twin k L) (sendByte v s) (sendByte v t) := by
  obtain ⟨r, u, w, e1, e2, hu⟩ := h.send v s.cfg.tXfer
  unfold sendByte
  rw [h.cfg, e1, e2]
  cases r with
  | true => exact .done () hu
  | false => exact .abort _ hu.alike

/-- Each byte received to the buffer makes it agree one byte further. -/
theorem recvBuf_matched : ∀ (n i : Nat) {s t : State}, Twin i L s t →
    Matched (Twin (i + n) L) (recvBuf n i s) (recvBuf n i t)
  | 0, _, _, _, h => .done () h
  | n + 1, i, _, _, h => (recvArg_matched h).bind fun b u v hu => by
    rw [Nat.add_comm n 1, ← Nat.add_assoc]
    exact recvBuf_matched n (i + 1) (hu.setBuf (hu.buf.set b))

theorem recvSkip_matched : ∀ (n : Nat) {s t : State}, Twin k L s t → Matched (Twin k L) (recvSkip n s) (recvSkip n t)
  | 0, _, _, h => .done () h
  | n + 1, _, _, h => (recvArg_matched h).bind fun _ _ _ hu => recvSkip_matched n hu

theorem Twin.bufTake {n : Nat} (h : Twin n L s t) : t.bufTake n = s.bufTake n := h.buf

theorem recvStr_matched (n : Nat) (h : Twin k L s t) : Matched (Twin n L) (recvStr n s) (recvStr n t) := by
  refine (recvBuf_matched n 0 (h.weaken (Nat.zero_le k))).bind fun _ u v hu => ?_
  rw [Nat.zero_add] at hu
  rw [hu.bufTake]
  exact .done _ hu

/-- Both latches hold the result `r`. -/
abbrev HasResult (r : Byte) : Latches → Latches → Prop := fun l m => l.result = r ∧ m.result = r

theorem Twin.setResult (h : Twin k L s t) (r : Byte) : Twin k (HasResult r) (s.setResult r) (t.setResult r) :=
  h.setLatch ⟨rfl, rfl⟩

theorem sendResult_matched (r : Byte) (h : Twin k L s t) :
    Matched (Twin k (HasResult r)) (sendResult r s) (sendResult r t) := sendByte_matched r (h.setResult r)

theorem sendZeros_matched : ∀ (n : Nat) {s t : State}, Twin k L s t →
    Matched (Twin k L) (sendZeros n s) (sendZeros n t)
  | 0, _, _, h => .done () h
  | n + 1, _, _, h => (sendByte_matched 0 h).bind fun _ _ _ hu => sendZeros_matched n hu

theorem sendStream_matched : ∀ (vs : List Byte) {s t : State}, Twin k L s t →
    Matched (Twin k L) (sendStream vs s) (sendStream vs t)
  | [], _, _, h => .done () h
  | v :: vs, _, _, h => (sendByte_matched v h).bind fun _ u w hu => by
    rw [hu.crc]
    exact sendStream_matched vs (hu.setCrc _)

/-- A payload is streamed from the part of the buffer that agrees. -/
theorem sendPayload_matched {n : Nat} (h : Twin n L s t) : Matched (Twin n L) (sendPayload n s) (sendPayload n t) := by
  unfold sendPayload
  rw [h.bufTake]
  refine (sendStream_matched _ (h.setCrc 0)).bind fun _ u v hu => ?_
  rw [hu.crc]
  exact sendByte_matched _ hu

theorem sendFramed_matched (bs : List Byte) (h : Twin k L s t) :
    Matched (Twin bs.length L) (sendFramed bs s) (sendFramed bs t) := by
  refine sendPayload_matched (h.setBuf ?_)
  have hw := BufAgree.write bs (BufAgree.zero s.buf t.buf)
  rwa [Nat.zero_add] at hw

/-! ## The block commands -/

theorem State.restale_coll (s : State) (x : Stale) : (s.restale x).coll = s.coll := rfl

theorem Twin.coll (h : Twin k L s t) : t.coll = s.coll := by
  obtain ⟨⟨x, rfl⟩, -, -, -⟩ := h
  rfl

theorem Twin.cwd (h : Twin k L s t) : t.cwd = s.cwd := by
  obtain ⟨⟨x, rfl⟩, -, -, -⟩ := h
  rfl

theorem blockAddress_matched (boot : Bool) (n : Nat) (h : Twin k L s t) :
    Matched (Twin k SameAddress) (blockAddress boot n s) (blockAddress boot n t) := by
  unfold blockAddress
  split
  · exact .done () (h.setLatch ⟨rfl, rfl, rfl⟩)
  · refine (recvArg_matched h).bind fun sel u v hu => ?_
    obtain ⟨y, rfl⟩ := hu.alike
    refine (recvArg_matched (hu.setLatch (L' := fun l m => m.drive = l.drive ∧ m.sector = l.sector) ?_)).bind ?_
    · exact ⟨rfl, rfl⟩
    · exact fun track _ _ hw => .done () (hw.setLatch ⟨hw.latch.1, hw.latch.2, rfl⟩)

/-- A write's payload fills the part of the buffer that is stored. -/
theorem blockPayload_matched (f : KindFlags) (n : Nat) (h : Twin 0 L s t) :
    Matched (Twin (if f.fWrite then n else 0) L) (blockPayload f n s) (blockPayload f n t) := by
  unfold blockPayload
  split
  · refine (recvBuf_matched n 0 h).bind fun _ u v hu => ?_
    rw [Nat.zero_add] at hu
    split
    · exact recvSkip_matched 1 hu
    · exact .done () hu
  · exact .done () h

/-- What a storage step that met the same condition on both sides makes of its provisional result (R183). -/
theorem Twin.settle {r : Byte} (h : Twin k (HasResult r) s t) (c : Prop) {i j : Decidable c} :
    ∃ r, Twin k (HasResult r) (@ite State c i (s.setResult RC_OK) s) (@ite State c j (t.setResult RC_OK) t) := by
  by_cases hc : c
  · rw [if_pos hc, if_pos hc]
    exact ⟨RC_OK, h.setResult RC_OK⟩
  · rw [if_neg hc, if_neg hc]
    exact ⟨r, h⟩

theorem blockWrite_twin (d : Fin 4) (off : Nat) {n : Nat} (h : Twin n L s t) :
    ∃ r, Twin n (HasResult r) (blockWrite d off n s) (blockWrite d off n t) := by
  unfold blockWrite
  rw [h.coll]
  split
  · exact ⟨_, h.setResult _⟩
  · have hbytes : (t.setResult RC_WRERR).bufTake n = (s.setResult RC_WRERR).bufTake n := h.bufTake
    simp only [State.setResult_coll, hbytes, h.coll]
    have hstored := (h.setResult RC_WRERR).setColl (s.coll.memWrite d off ((s.setResult RC_WRERR).bufTake n)).2
    exact hstored.settle _

/-- A read fills the part of the buffer that is sent, with the image's bytes and free ones. -/
theorem blockRead_twin (d : Fin 4) (off n : Nat) (h : Twin k L s t) :
    ∃ r, Twin n (HasResult r) (blockRead d off n s) (blockRead d off n t) := by
  unfold blockRead
  simp only [State.setResult_coll, State.setResult_buf, h.coll]
  have hle : (s.coll.memRead d off n).1.length ≤ n := by
    rw [Coll.memRead_length]
    exact Coll.storeCount_le _ _ _
  have hbuf := BufAgree.write ((s.coll.memRead d off n).1 ++
    (List.range (n - (s.coll.memRead d off n).1.length)).map (Config.freeTail s.coll.draws))
    (BufAgree.zero s.buf t.buf)
  rw [List.length_append, List.length_map, List.length_range, Nat.add_sub_cancel' hle, Nat.zero_add] at hbuf
  have hread := ((h.setResult RC_RDERR).setColl (s.coll.memRead d off n).2).setBuf hbuf
  exact hread.settle _

theorem blockFormat_twin (d : Fin 4) (off : Nat) (h : Twin k L s t) :
    ∃ r, Twin k (HasResult r) (blockFormat d off s) (blockFormat d off t) := by
  unfold blockFormat
  simp only [State.setResult_coll, h.coll]
  split
  · exact ⟨_, h.setResult _⟩
  · have hstored := (h.setResult RC_FMTERR).setColl
      ((s.coll.memWrite d off (List.replicate TRACK_BYTES FILL)).2.memFlush d)
    exact hstored.settle _

/-- The storage step depends on the address latches and, in a write, on the payload; it leaves the same result, and
after a read that went well the same bytes to send. -/
theorem blockStorage_twin (f : KindFlags) (n : Nat) (h : Twin (if f.fWrite then n else 0) SameAddress s t) :
    ∃ r j, Twin j (HasResult r) (blockStorage f n s) (blockStorage f n t) ∧
      (r = RC_OK → f.fRead = true → j = n) := by
  obtain ⟨hdrive, hsector, htrack⟩ := h.latch
  obtain ⟨x, rfl⟩ := h.alike
  have hoff : ∀ l m, Twin _ AnyLatch { s with latch := l } { s.restale x with latch := m } :=
    fun _ _ => h.setLatch trivial
  unfold blockStorage
  simp only [hdrive, hsector, htrack, State.restale_coll]
  by_cases hclosed : (s.coll.slot s.latch.drive).isOpen = false
  · rw [if_pos hclosed, if_pos hclosed]
    exact ⟨_, _, h.setResult _, fun hr => absurd hr (by decide)⟩
  rw [if_neg hclosed, if_neg hclosed]
  by_cases hw : f.fWrite = true
  · rw [if_pos hw, if_pos hw]
    simp only [if_pos hw] at hoff
    obtain ⟨r, hr⟩ := blockWrite_twin s.latch.drive (byteOffset f s.latch.track s.latch.sector) (hoff _ _)
    exact ⟨r, n, hr, fun _ _ => rfl⟩
  rw [if_neg hw, if_neg hw]
  by_cases hread : f.fRead = true
  · rw [if_pos hread, if_pos hread]
    obtain ⟨r, hr⟩ := blockRead_twin s.latch.drive (byteOffset f s.latch.track s.latch.sector) n (hoff _ _)
    exact ⟨r, n, hr, fun _ _ => rfl⟩
  · rw [if_neg hread, if_neg hread]
    obtain ⟨r, hr⟩ := blockFormat_twin s.latch.drive (byteOffset f s.latch.track s.latch.sector) (hoff _ _)
    exact ⟨r, _, hr, fun _ h => absurd h hread⟩

theorem blockReply_matched (f : KindFlags) (n : Nat) {r : Byte} (h : Twin k (HasResult r) s t)
    (hk : r = RC_OK → f.fRead = true → k = n) : Matched Alike (blockReply f n s) (blockReply f n t) := by
  unfold blockReply
  rw [h.latch.1, h.latch.2]
  refine (sendResult_matched r h).bind fun _ u v hu => ?_
  rw [hu.latch.1, hu.latch.2]
  split
  · rename_i hok
    obtain rfl := hk hok.1 hok.2
    exact (sendPayload_matched hu).alike
  · exact .done () hu.alike

theorem blockIO_matched (f : KindFlags) (boot : Bool) (n : Nat) (h : Twin 0 AnyLatch s t) :
    Matched Alike (blockIO f boot n s) (blockIO f boot n t) := by
  unfold blockIO
  split
  · exact .abort _ h.alike
  · refine (blockAddress_matched boot n (h.setLatch (L' := AnyLatch) trivial)).bind fun _ _ _ h1 => ?_
    refine (blockPayload_matched f n h1).bind fun _ _ _ h2 => ?_
    refine (closeOut_matched h2).bind fun _ _ _ h3 => ?_
    obtain ⟨r, j, h4, hj⟩ := blockStorage_twin f n h3
    exact blockReply_matched f n h4 hj

/-! ## The other commands -/

/-- The four elements of a state. -/
def State.stale (s : State) : Stale := ⟨s.crc, s.buf, s.latch, s.bus.dOut⟩

/-- An action that commutes with every change of the four elements neither reads nor writes them. -/
theorem Twin.action {α : Type} {f : State → α × State} (hf : ∀ u x, f (u.restale x) = ((f u).1, (f u).2.restale x))
    (h : Twin k L s t) : (f t).1 = (f s).1 ∧ Twin k L (f s).2 (f t).2 := by
  obtain ⟨⟨x, rfl⟩, hcrc, hbuf, hlatch⟩ := h
  have hself : (f s).2 = (f s).2.restale s.stale := congrArg Prod.snd (hf s s.stale)
  rw [hf s x]
  refine ⟨rfl, ⟨x, rfl⟩, ?_, ?_, ?_⟩ <;> rw [hself]
  · exact hcrc
  · exact hbuf
  · exact hlatch

theorem chdrvHandler_matched (h : Twin k L s t) : Matched Alike (chdrvHandler s) (chdrvHandler t) :=
  (recvArg_matched h).bind fun drv _ _ h1 => (closeOut_matched h1).bind fun _ u v h2 => by
    rw [h2.coll, h2.cfg]
    exact .done () ((h2.setResult _).sent _ _).alike

theorem legacyHandler_matched (row : LegRow) (h : Twin k L s t) :
    Matched Alike (legacyHandler row s) (legacyHandler row t) :=
  (recvSkip_matched _ h).bind fun _ _ _ h1 => (closeOut_matched h1).bind fun _ _ _ h2 => (sendZeros_matched _ h2).alike

theorem getpathHandler_matched (h : Twin k L s t) : Matched Alike (getpathHandler s) (getpathHandler t) :=
  (recvArg_matched h).bind fun drv _ _ h1 => (closeOut_matched h1).bind fun _ _ _ h2 => by
    cases driveIndex drv with
    | none => exact (sendResult_matched _ h2).alike
    | some d =>
      refine (sendResult_matched _ h2).bind fun _ _ _ h3 => ?_
      rw [h3.coll, h3.cfg]
      exact (sendFramed_matched _ h3).alike

theorem getcwdHandler_matched (h : Twin k L s t) : Matched Alike (getcwdHandler s) (getcwdHandler t) :=
  (closeOut_matched h).bind fun _ _ _ h1 => by
    rw [h1.cfg, h1.cwd]
    exact (sendFramed_matched _ h1).alike

theorem infoHandler_matched (h : Twin k L s t) : Matched Alike (infoHandler s) (infoHandler t) :=
  (recvArg_matched h).bind fun _ _ _ h1 => (closeOut_matched h1).bind fun _ _ _ h2 => by
    rw [h2.cfg, h2.coll]
    exact (sendFramed_matched _ h2).alike

theorem mountString_matched (b : Byte) (h : Twin k L s t) :
    Matched (Twin 0 L) (mountString b s) (mountString b t) := by
  unfold mountString
  split
  · exact .done [] (h.weaken (Nat.zero_le k))
  · exact (recvStr_matched _ h).imp fun _ _ hu => hu.weaken (Nat.zero_le _)

/-- An action that commutes with every change of the four elements, and its result sent. -/
theorem Twin.actResult {f : State → Byte × State} (hf : ∀ u x, f (u.restale x) = ((f u).1, (f u).2.restale x))
    (h : Twin k L s t) : Matched Alike (sendResult (f s).1 (f s).2) (sendResult (f t).1 (f t).2) := by
  obtain ⟨hres, hact⟩ := h.action hf
  rw [hres]
  exact (sendResult_matched _ hact).alike

/-- A call on the collaborators that reads none of the four elements, and its result sent. -/
theorem Twin.callResult {f : State → Byte × Coll} (hf : ∀ u x, f (u.restale x) = f u) (h : Twin k L s t) :
    Matched Alike (sendResult (f s).1 { s with coll := (f s).2 }) (sendResult (f t).1 { t with coll := (f t).2 }) := by
  have hcall : f t = f s := by
    obtain ⟨x, rfl⟩ := h.alike
    exact hf s x
  rw [hcall]
  exact (sendResult_matched _ (h.setColl _)).alike

theorem mountHandler_matched (h : Twin k L s t) : Matched Alike (mountHandler s) (mountHandler t) :=
  (recvArg_matched h).bind fun drv _ _ h1 => (recvArg_matched h1).bind fun ro _ _ h2 =>
    (recvArg_matched h2).bind fun len _ _ h3 => (mountString_matched len h3).bind fun p _ _ h4 =>
      (closeOut_matched h4).bind fun _ _ _ h5 => h5.callResult (f := (mountAct · drv ro len p)) fun _ _ => rfl

theorem createHandler_matched (h : Twin k L s t) : Matched Alike (createHandler s) (createHandler t) :=
  (recvArg_matched h).bind fun len _ _ h1 => (recvStr_matched _ h1).bind fun p _ _ h2 =>
    (closeOut_matched h2).bind fun _ _ _ h3 => h3.callResult (f := createAct len p) fun _ _ => rfl

theorem chdirAct_restale (len : Byte) (p : Path) (u : State) (x : Stale) :
    chdirAct len p (u.restale x) = ((chdirAct len p u).1, (chdirAct len p u).2.restale x) := by
  unfold chdirAct
  dsimp only [State.restale]
  split_ifs <;> rfl

theorem chdirHandler_matched (h : Twin k L s t) : Matched Alike (chdirHandler s) (chdirHandler t) :=
  (recvArg_matched h).bind fun len _ _ h1 => (recvStr_matched _ h1).bind fun p _ _ h2 =>
    (closeOut_matched h2).bind fun _ _ _ h3 => h3.actResult (chdirAct_restale len p)

theorem dirReset_restale (u : State) (x : Stale) :
    dirReset (u.restale x) = ((dirReset u).1, (dirReset u).2.restale x) := by
  have hdiscard : dirDiscard (u.restale x) = (dirDiscard u).restale x := by
    unfold dirDiscard
    rw [show (u.restale x).dircur = u.dircur from rfl]
    cases u.dircur <;> rfl
  unfold dirReset
  rw [hdiscard]
  rfl

theorem dirAdvance_restale (u : State) (x : Stale) :
    dirAdvance (u.restale x) = ((dirAdvance u).1, (dirAdvance u).2.restale x) := by
  unfold dirAdvance
  rw [show (u.restale x).dircur = u.dircur from rfl]
  cases u.dircur with
  | none => rfl
  | some hd =>
    dsimp only [State.restale_coll]
    cases (dirScan (u.coll.dirEntries hd)).1 <;> rfl

theorem dirHandler_matched (h : Twin k L s t) : Matched Alike (dirHandler s) (dirHandler t) :=
  (recvArg_matched h).bind fun flag _ _ h1 => (closeOut_matched h1).bind fun _ u v h2 => by
    have hf : ∀ w x, (if flag = 0 then dirReset (w.restale x) else dirAdvance (w.restale x)) =
        ((if flag = 0 then dirReset w else dirAdvance w).1,
          (if flag = 0 then dirReset w else dirAdvance w).2.restale x) := by
      intro w x
      split
      · exact dirReset_restale w x
      · exact dirAdvance_restale w x
    obtain ⟨hname, hact⟩ := h2.action (f := fun w => if flag = 0 then dirReset w else dirAdvance w) hf
    dsimp only
    rw [hname]
    exact (sendFramed_matched _ hact).alike

/-! ## Commands, polls and steps -/

/-- A dispatched command starts from the opcode's `crc` and knows nothing of buffer and latches (R155). -/
theorem Alike.dispatch (h : Alike s t) (i : Instr) : Twin 0 AnyLatch (s.dispatch i) (t.dispatch i) := by
  obtain ⟨x, rfl⟩ := h
  exact ⟨⟨((s.restale x).dispatch i).stale, rfl⟩, rfl, .zero _ _, trivial⟩

theorem runHandler_alike {i : Instr} {f : State → Progress Unit}
    (hf : ∀ {u v : State}, Twin 0 AnyLatch u v → Matched Alike (f u) (f v)) (h : Alike s t) :
    runHandler i f t = runHandler i f s :=
  congrArg Host.Outcome.next (hf (h.dispatch i)).leave

theorem exec_alike (i : Instr) (h : Alike s t) : exec i t = exec i s := by
  obtain ⟨x, rfl⟩ := h
  have h : Alike s (s.restale x) := ⟨x, rfl⟩
  cases i with
  | idle => rfl
  | unrecognised b => rfl
  | boot | lread | pread | lwrite | pwrite | format => exact runHandler_alike (blockIO_matched _ _ _) h
  | ramrd | ramwr | ramex | spd0 | spd1 => exact runHandler_alike (legacyHandler_matched _) h
  | chdrv => exact runHandler_alike chdrvHandler_matched h
  | getpath => exact runHandler_alike getpathHandler_matched h
  | mount => exact runHandler_alike mountHandler_matched h
  | getcwd => exact runHandler_alike getcwdHandler_matched h
  | dir => exact runHandler_alike dirHandler_matched h
  | chdir => exact runHandler_alike chdirHandler_matched h
  | create => exact runHandler_alike createHandler_matched h
  | info => exact runHandler_alike infoHandler_matched h

theorem presenceExchange_alike (h : Alike s t) : presenceExchange t = presenceExchange s := by
  obtain ⟨ok, u, v, e1, e2, hu⟩ := (h.setPhase .presence).send s.cfg.bIdle s.cfg.tIdleTx
  rw [← h.cfg] at e2
  unfold presenceExchange
  rw [e1, e2]
  cases ok with
  | false => exact hu.endPoll _ _
  | true =>
    obtain ⟨r, u', v', e3, e4, hu'⟩ := hu.recv u.cfg.tIdleRx
    dsimp only
    rw [hu.cfg, e3, e4]
    cases r with
    | bad _ | timeout => exact hu'.endPoll _ _
    | ok b =>
      dsimp only
      rw [show v'.cfg.bIdle = u'.cfg.bIdle from congrArg Config.bIdle hu'.cfg]
      split
      · exact (hu'.setLink true).endPoll _ _
      · exact hu'.endPoll _ _

theorem opcodeRead_alike (h : Alike s t) :
    ∃ b u v, opcodeRead s = (b, u) ∧ opcodeRead t = (b, v) ∧ Alike u v := by
  obtain ⟨r, u, v, e1, e2, hu⟩ := (h.setPhase .opcodeRead).recv s.cfg.tCmd
  rw [← h.cfg] at e2
  unfold opcodeRead
  rw [e1, e2]
  cases r <;> exact ⟨_, _, _, rfl, rfl, hu⟩

theorem poll_alike (h : Alike s t) : poll t = poll s := by
  have hlink : t.link = s.link := by
    obtain ⟨x, rfl⟩ := h
    rfl
  unfold poll
  rw [hlink]
  split
  · obtain ⟨b, u, v, e1, e2, hu⟩ := opcodeRead_alike h
    rw [e1, e2]
    cases b with
    | none => exact congrArg Host.Outcome.next ((hu.setLink false).endPoll _ _)
    | some op =>
      dsimp only
      rw [hu.cfg]
      exact exec_alike _ hu
  · exact congrArg Host.Outcome.next (presenceExchange_alike h)

/-- Settles O60: polls from alike states end in one and the same state, since every use of the four elements follows a
write to them in the same poll. -/
theorem staleContentsAreDead : Obligations.StaleContentsAreDead := by
  intro s crc dOut buf latch
  show step (s.restale ⟨crc, buf, latch, dOut⟩) = step s
  unfold step
  rw [show (s.restale _).phase = s.phase from rfl, envStep_restale, poll_alike ⟨_, rfl⟩]

end Sys2Proof.Machine

/-! PROOFS. Selector bytes and offsets (O7 to O9), the storage primitives (O19 to O21), and a sector written and read
back (O35). -/

namespace Sys2Proof.Machine

/-! ## The selector byte (R67, R92) -/

theorem remap_remap : ∀ d : Fin 4, remap (BitVec.ofNat 2 (remap (BitVec.ofNat 2 d.val)).val) = d := by
  decide

theorem selDrive_selByte (d : Fin 4) (x : BitVec 6) : selDrive (selByte d x) = d := by
  have hraw : selRaw (selByte d x) = BitVec.ofNat 2 (remap (BitVec.ofNat 2 d.val)).val :=
    BitVec.extractLsb'_append_eq_left
  rw [selDrive, hraw, remap_remap]

theorem selSector_selByte (secw : Nat) (d : Fin 4) (x : BitVec 6) : selSector secw 128 (selByte d x) = x :=
  (if_pos rfl).trans BitVec.extractLsb'_append_eq_right

/-- Settles O7: the host's concatenation is taken apart field by field, and the swap undoes itself. -/
theorem selectorNamesDriveAndSector : Obligations.SelectorNamesDriveAndSector :=
  ⟨rfl, rfl, rfl, rfl, remap_remap, fun secw d x => ⟨selDrive_selByte d x, selSector_selByte secw d x⟩⟩

/-! ## Offsets (R68, R69, R71) -/

theorem byteOffset_format (trk : Byte) (x : BitVec 6) : byteOffset .format trk x = trk.toNat * 4608 := rfl

/-- Settles O8: the two field widths and the three kinds, each by its own equation. -/
theorem offsetFormula : Obligations.OffsetFormula :=
  ⟨selSector_128, fun _ _ sel hw hn => selSector_other hw hn sel,
    fun trk x => ⟨byteOffset_format trk x, byteOffset_read trk x, byteOffset_write trk x⟩⟩

/-- Whatever the kind, the offset is that of the track's start or that of the sector. -/
theorem byteOffset_cases (f : KindFlags) (trk : Byte) (x : BitVec 6) :
    byteOffset f trk x = sectorOffset trk 0 ∨ byteOffset f trk x = sectorOffset trk x.toNat := by
  unfold byteOffset
  split
  · exact .inl (Nat.add_zero _).symm
  · exact .inr rfl

theorem sectorOffset_aligned (trk : Byte) (n : Nat) : sectorOffset trk n % 128 = 0 := by
  unfold sectorOffset
  omega

/-- The last sector field of the last track bounds every offset. -/
theorem sectorOffset_le (trk : Byte) {n : Nat} (hn : n < 64) : sectorOffset trk n ≤ 1183104 := by
  have htrk := trk.isLt
  unfold sectorOffset
  omega

/-- 36 sectors are one track. -/
theorem sectorOffset_next_track {trk : Byte} {n : Nat} (hn : 36 ≤ n) (htrk : trk.toNat < 255) :
    sectorOffset (trk + 1) (n - 36) = sectorOffset trk n := by
  have hnext : (trk + 1).toNat = trk.toNat + 1 := by bv_omega
  unfold sectorOffset
  omega

/-- Settles O9: alignment and bound of both forms of the offset, and the carry from a sector field into the track. -/
theorem offsetsAliasAndAlign : Obligations.OffsetsAliasAndAlign := by
  refine ⟨fun f trk x => ?_, fun trk x hx htrk => ?_⟩
  · rcases byteOffset_cases f trk x with h | h <;> rw [h]
    · exact ⟨sectorOffset_aligned trk 0, sectorOffset_le trk (by decide)⟩
    · exact ⟨sectorOffset_aligned trk _, sectorOffset_le trk x.isLt⟩
  · have hsub : (x - 36).toNat = x.toNat - 36 := BitVec.toNat_sub_of_le hx
    rw [byteOffset_read, byteOffset_read, hsub, sectorOffset_next_track hx htrk]

/-! ## How much the reference store transfers (R65) -/

theorem Coll.storeCount_inside {c : Coll} (hc : c.stores = []) {off n : Nat} (h : off + n ≤ IMAGE_BYTES) :
    c.storeCount off n = n := by
  simp [Coll.storeCount, hc, h]

theorem Coll.storeCount_past_end {c : Coll} (hc : c.stores = []) {off n : Nat} (h : IMAGE_BYTES < off + n) :
    c.storeCount off n = 0 := by
  simp [Coll.storeCount, hc, h]

/-! ## Reads (R62) -/

theorem readData_inside (draw : Nat) (m : Memory) {off k : Nat} (h : off + k ≤ IMAGE_BYTES) :
    readData draw m off k = (List.range k).map fun i => m.read (off + i) :=
  List.map_congr_left fun i hi => if_pos (by have := List.mem_range.1 hi; omega)

theorem Coll.memRead_inside {c : Coll} (hc : c.stores = []) (d : Fin 4) {off n : Nat} (h : off + n ≤ IMAGE_BYTES) :
    (c.memRead d off n).1 = (List.range n).map fun i => (c.slot d).image.read (off + i) := by
  rw [Coll.memRead, Coll.storeCount_inside hc h, readData_inside _ _ h]

theorem Coll.memRead_past_end {c : Coll} (hc : c.stores = []) (d : Fin 4) {off n : Nat} (h : IMAGE_BYTES < off + n) :
    (c.memRead d off n).1 = [] := by
  rw [← List.length_eq_zero_iff, Coll.memRead_length, Coll.storeCount_past_end hc h]

/-- Settles O19: the reference store's two outcomes, and what holds of a delivered byte whatever decides the count. -/
theorem memReadDelivers : Obligations.MemReadDelivers := by
  intro c d off n
  refine ⟨fun hc h => Coll.memRead_inside hc d h, fun hc h => Coll.memRead_past_end hc d h,
    fun i h hi => Coll.readData_getElem h hi, ?_, rfl⟩
  rw [Coll.memRead_length]
  exact Coll.storeCount_le c off n

/-! ## Writes (R63) -/

/-- Settles O20: the stored prefix and the frame of a write. -/
theorem memWriteStoresPrefix : Obligations.MemWriteStoresPrefix :=
  fun c d off v => ⟨Coll.storeCount_le c off v.length, memWrite_prefix c d off v, memWrite_outside c d off v⟩

/-- Slots that are kept outside an empty range hold the same bytes. -/
theorem keepsSlots.read_of_empty {c c' : Coll} {d : Fin 4} {off : Nat} (h : keepsSlots c c' d off 0) (e : Fin 4)
    (a : Nat) : (c'.slot e).image.read a = (c.slot e).image.read a := by
  obtain ⟨hother, -, -, -, hbytes⟩ := h
  by_cases he : e = d
  · subst he
    exact hbytes a (Nat.lt_or_ge a off)
  · rw [hother e he]

theorem Coll.memWrite_inside {c : Coll} (hc : c.stores = []) (d : Fin 4) {off : Nat} {v : List Byte}
    (h : off + v.length ≤ IMAGE_BYTES) : (c.memWrite d off v).1 = v.length :=
  Coll.storeCount_inside hc h

theorem Coll.memWrite_past_end {c : Coll} (hc : c.stores = []) (d : Fin 4) {off : Nat} {v : List Byte}
    (h : IMAGE_BYTES < off + v.length) : (c.memWrite d off v).1 = 0 :=
  Coll.storeCount_past_end hc h

/-- Settles O21: all of a write inside the image is stored; one that passes the end stores nothing, so its frame is
everything. -/
theorem referenceStoreWrites : Obligations.ReferenceStoreWrites := by
  refine fun c d off v hc => ⟨fun h => Coll.memWrite_inside hc d h, fun h => ?_⟩
  have hnone := Coll.memWrite_past_end hc d h
  obtain ⟨-, hslots⟩ := memWrite_outside c d off v
  rw [hnone] at hslots
  exact ⟨hnone, hslots.read_of_empty⟩

/-! ## Write, then read (R75, R197) -/

/-- The reference store gives back what it was given. -/
theorem Coll.memRead_memWrite {c : Coll} (hc : c.stores = []) (d : Fin 4) {off : Nat} {v : List Byte}
    (h : off + v.length ≤ IMAGE_BYTES) : ((c.memWrite d off v).2.memRead d off v.length).1 = v := by
  have hstores : (c.memWrite d off v).2.stores = [] := congrArg List.tail hc
  rw [Coll.memRead_inside hstores d h]
  refine List.ext_getElem (by simp) fun i _ hi => ?_
  rw [List.getElem_map, List.getElem_range]
  exact memWrite_prefix c d off v i hi (by rwa [Coll.memWrite_inside hc d h])
    (Nat.lt_of_lt_of_le (Nat.add_lt_add_left hi off) h)

/-- The reply of a read command that delivers all of `v` from an open slot. -/
theorem readReply_full {c : Coll} {d : Fin 4} {off : Nat} {v : List Byte} (hopen : (c.slot d).isOpen = true)
    (hv : (c.memRead d off v.length).1 = v) : readReply c d off v.length = RC_OK :: framed v := by
  simp [readReply, hopen, hv]

/-- A write command on an open, writable slot leaves what its storage request leaves. -/
theorem writeColl_of_writable {c : Coll} {d : Fin 4} (hopen : (c.slot d).isOpen = true)
    (hwritable : (c.slot d).writable = true) (off : Nat) (v : List Byte) :
    writeColl c d off v = (c.memWrite d off v).2 := by
  simp [writeColl, hopen, hwritable]

/-- A read command after a write command at the same place replies with the bytes written. -/
theorem readReply_writeColl {c : Coll} {d : Fin 4} {off : Nat} {v : List Byte} (hopen : (c.slot d).isOpen = true)
    (hwritable : (c.slot d).writable = true) (hc : c.stores = []) (h : off + v.length ≤ IMAGE_BYTES) :
    readReply (writeColl c d off v) d off v.length = RC_OK :: framed v := by
  rw [writeColl_of_writable hopen hwritable]
  obtain ⟨-, -, hkept, -⟩ := memWrite_outside c d off v
  exact readReply_full (hkept.trans hopen) (Coll.memRead_memWrite hc d h)

/-- `LWRITE` served up to its result byte (R193). -/
theorem lwrite_reaches {s : State} {sel trk : Byte} {data : List Byte} {k : Nat} {h' : List Sample}
    (hd : data.length = 128)
    (hs : serves s.cfg.tXfer (sel :: trk :: (data ++ [checksum (s.cfg.opLwrite :: sel :: trk :: data)])) (k + 1)
      s.bus.host h') :
    let d := selDrive sel
    let off := sectorOffset trk (sel.toNat % 64)
    Reaches .lwrite s (sel :: trk :: (data ++ [checksum (s.cfg.opLwrite :: sel :: trk :: data)]))
      (writeReply s.coll d off data) k h' fun t =>
        keepsPlace s t ∧ t.coll = writeColl s.coll d off data ∧ keepsOutside s.coll t.coll d off 128 ∧
        t.coll.requests = writeRequests s.coll d off 128 ++ s.coll.requests :=
  Reaches.write (more := []) rfl (by decide) (by decide) hd rfl (by rw [byteOffset_write, selSector_128])
    (by rw [List.append_nil]; rfl) hs

/-- `LREAD` served in full (R191). -/
theorem lread_completes {s : State} {sel trk : Byte} {h' : List Sample} :
    let d := selDrive sel
    let off := sectorOffset trk (sel.toNat % 64)
    let ins := [sel, trk, OP_LREAD ^^^ sel ^^^ trk]
    serves s.cfg.tXfer ins (1 + (readReply s.coll d off 128).length) s.bus.host h' →
    Completes .lread s ins (s.cfg.bAck :: readReply s.coll d off 128) h' fun t =>
      keepsPlace s t ∧ keepsDisks s.coll t.coll ∧
      t.coll.requests = readRequests s.coll d off 128 ++ s.coll.requests :=
  Completes.read rfl (by decide) (by decide) (by rw [byteOffset_read, selSector_128]) (xor_close _ _ _)

/-- Settles O35: the served write leaves the collaborators of its storage request, from which the read replies with the
bytes written. -/
theorem writeThenReadRoundTrip : Obligations.WriteThenReadRoundTrip := by
  intro s s' t sel trk data h1 h2 d off insW insR hd hopen hwritable hc hin hserveW hexec hcoll hserveR
  obtain ⟨t', hexec', -, -, -, -, -, -, -, -, hwrite, -⟩ := (lwrite_reaches (k := 1) hd hserveW).completes
  obtain rfl : t' = t := by simpa [hexec'] using hexec
  have hreply : readReply s'.coll d off 128 = RC_OK :: framed data := by
    rw [hcoll, hwrite, ← hd]
    exact readReply_writeColl hopen hwritable hc (by rwa [hd])
  have hlen : 1 + (readReply s'.coll d off 128).length = 131 := by
    simp [hreply, framed, hd]
  obtain ⟨u, hread, hwire, -⟩ := lread_completes (s := s') (sel := sel) (trk := trk) (h' := h2) (hlen ▸ hserveR)
  exact ⟨u, hread, hreply ▸ hwire⟩

end Sys2Proof.Machine

/-! PROOFS. The opcode map in both directions (O1 to O3) and whole frames: their checksum, their length, and reading
them back (O4 to O6). -/

namespace Sys2Proof.Machine

/-! ## The opcode map (R100 to R102) -/

/-- The lookup that the decoder makes for a command's own byte, constructor by constructor. -/
theorem decodeByte_opcodeOf {c : Config} (hc : c.Valid) : ∀ {i : Instr}, i.wellFormed c = true →
    decodeByte c (opcodeOf c i) = i
  | .idle => Laws.OpcodeDecodes.idle c hc
  | .boot => Laws.OpcodeDecodes.boot c hc
  | .lread => Laws.OpcodeDecodes.lread c hc
  | .pread => Laws.OpcodeDecodes.pread c hc
  | .lwrite => Laws.OpcodeDecodes.lwrite c hc
  | .pwrite => Laws.OpcodeDecodes.pwrite c hc
  | .format => Laws.OpcodeDecodes.format c hc
  | .chdrv => Laws.OpcodeDecodes.chdrv c hc
  | .ramrd => Laws.OpcodeDecodes.ramrd c hc
  | .ramwr => Laws.OpcodeDecodes.ramwr c hc
  | .ramex => Laws.OpcodeDecodes.ramex c hc
  | .spd0 => Laws.OpcodeDecodes.spd0 c hc
  | .spd1 k => Laws.OpcodeDecodes.spd1 k c hc
  | .getpath => Laws.OpcodeDecodes.getpath c hc
  | .mount => Laws.OpcodeDecodes.mount c hc
  | .getcwd => Laws.OpcodeDecodes.getcwd c hc
  | .dir => Laws.OpcodeDecodes.dir c hc
  | .chdir => Laws.OpcodeDecodes.chdir c hc
  | .create => Laws.OpcodeDecodes.create c hc
  | .info => Laws.OpcodeDecodes.info c hc
  | .unrecognised b => Laws.OpcodeDecodes.unrecognised b c hc

/-- Settles O2: the decoder looks at the first byte only, which is the command's own. -/
theorem decodeOfEncode : Obligations.DecodeOfEncode := by
  intro c i rest hc hi
  rw [encode, List.singleton_append, decode, decodeByte_opcodeOf hc hi]

/-- `i` is a command of `c`'s map and `b` is its opcode byte. -/
def Encodes (c : Config) (b : Byte) (i : Instr) : Prop :=
  opcodeOf c i = b ∧ i.wellFormed c = true

/-- The row that the decoder finds among the further toggles is a command with the byte looked up (R218). -/
theorem encodes_moreSpd {c : Config} {b : Byte} {k : Nat}
    (h : c.moreSpd.findIdx? (fun r => r.op == b) = some k) : Encodes c b (.spd1 (k + 1)) := by
  obtain ⟨hk, hop, -⟩ := List.findIdx?_eq_some_iff_getElem.1 h
  exact ⟨by simpa [opcodeOf, moreSpdOp, hk] using hop, by simpa [Instr.wellFormed] using hk⟩

/-- A byte outside the map stands for itself (R102). -/
theorem encodes_unrecognised {c : Config} {b : Byte} (h : b ∉ c.bIdle :: c.opcodes) :
    Encodes c b (.unrecognised b) :=
  ⟨rfl, decide_eq_true h⟩

/-- Whichever test of the decoder a byte passes, it is the byte of the row that test stands for; one that passes none is
outside the map. -/
theorem encodes_decodeByte (c : Config) (b : Byte) : Encodes c b (decodeByte c b) := by
  fun_cases decodeByte c b
  case case21 k h => exact encodes_moreSpd h
  case case22 hmore =>
    rw [List.findIdx?_eq_none_iff] at hmore
    exact encodes_unrecognised (by simp_all)
  all_goals exact ⟨Eq.symm ‹_›, rfl⟩

/-- Settles O3: `Encodes` for the one byte of an encoding. -/
theorem encodeOfDecode : Obligations.EncodeOfDecode := fun c b =>
  have ⟨hbyte, hwf⟩ := encodes_decodeByte c b
  ⟨congrArg (fun x => [x]) hbyte, hwf⟩

/-- A one-byte table word decodes as its byte: the zeros behind it are not read. -/
theorem decodeTableWord_byte (w : Nat) :
    decodeTableWord 8 w = some (decodeByte Config.refcfg (BitVec.ofNat 8 (w % 2 ^ 8))) := rfl

/-- Settles O1: ten bytes in the map of REFCFG. -/
theorem tableWordsDecode : Obligations.TableWordsDecode := by
  simp only [Obligations.TableWordsDecode, decodeTableWord_byte]
  decide

/-! ## The frame (R91, R95) -/

theorem Command.frame_of_isCommand (c : Config) {m : Command} (h : Instr.isCommand m.instr = true) :
    m.frame c = framed (opcodeOf c m.instr :: m.body) := if_pos h

theorem Command.frame_of_not_isCommand (c : Config) {m : Command} (h : Instr.isCommand m.instr = false) :
    m.frame c = opcodeOf c m.instr :: m.body := if_neg (by simp [h])

theorem checksum_framed (bs : List Byte) : checksum (framed bs) = 0 := by
  rw [framed, checksum, crcFoldAll_append]
  exact BitVec.xor_self

/-- Settles O5: a frame with a checksum byte is `framed`, and a byte string cancels against its own checksum. -/
theorem frameChecksumCloses : Obligations.FrameChecksumCloses := fun c m h => by
  rw [m.frame_of_isCommand c h, checksum_framed]

/-! ## Sizes of the operands (R103) -/

section
variable {c : Config}

theorem Command.wellFormed_instr {m : Command} (h : m.wellFormed c = true) : m.instr.wellFormed c = true :=
  (Bool.and_eq_true_iff.1 h).1

theorem Command.wellFormed_lwrite {sel trk : Byte} {data : List Byte} :
    (Command.lwrite sel trk data).wellFormed c = true ↔ data.length = LSEC := beq_iff_eq

theorem Command.wellFormed_pwrite {sel trk extra : Byte} {data : List Byte} :
    (Command.pwrite sel trk data extra).wellFormed c = true ↔ data.length = PSEC := beq_iff_eq

theorem Command.wellFormed_ramrd {args : List Byte} :
    (Command.ramrd args).wellFormed c = true ↔ args.length = c.ramrd.args := beq_iff_eq

theorem Command.wellFormed_ramwr {args : List Byte} :
    (Command.ramwr args).wellFormed c = true ↔ args.length = c.ramwr.args := beq_iff_eq

theorem Command.wellFormed_ramex {args : List Byte} :
    (Command.ramex args).wellFormed c = true ↔ args.length = c.ramex.args := beq_iff_eq

theorem Command.wellFormed_spd0 {args : List Byte} :
    (Command.spd0 args).wellFormed c = true ↔ args.length = c.spd0.args := beq_iff_eq

theorem Command.wellFormed_spd1 {k : Nat} {args : List Byte} :
    (Command.spd1 k args).wellFormed c = true ↔ k ≤ c.moreSpd.length ∧ args.length = spdArgs c k := by
  simp [Command.wellFormed, Command.instr, Instr.wellFormed]

theorem Command.wellFormed_mount {drv ro len : Byte} {path : Path} :
    (Command.mount drv ro len path).wellFormed c = true ↔ path.length = mountPathLen len := beq_iff_eq

theorem Command.wellFormed_chdir {str : Path} :
    (Command.chdir str).wellFormed c = true ↔ str.length < 256 := decide_eq_true_iff

theorem Command.wellFormed_create {str : Path} :
    (Command.create str).wellFormed c = true ↔ str.length < 256 := decide_eq_true_iff

end

/-- A frame's length is that of its body, with the opcode and the checksum byte around it. -/
theorem Command.length_frame (c : Config) {m : Command} {n : Nat} (hc : Instr.isCommand m.instr = true)
    (hn : m.body.length = n) : (m.frame c).length = 2 + n := by
  rw [m.frame_of_isCommand c hc, framed, List.length_append, List.length_cons, hn, List.length_singleton]
  omega

/-- Settles O6: fixed bodies by counting, the others by the size that well-formedness gives the operands. -/
theorem frameLengths : Obligations.FrameLengths := by
  intro c m hw
  cases m with
  | idle | unrecognised | boot | getcwd | chdrv | getpath | dir | info | lread | pread | format => rfl
  | lwrite => exact Command.length_frame (n := 130) c rfl (by simp [Command.body, Command.wellFormed_lwrite.1 hw])
  | pwrite => exact Command.length_frame (n := 515) c rfl (by simp [Command.body, Command.wellFormed_pwrite.1 hw])
  | ramrd => exact Command.length_frame c rfl (Command.wellFormed_ramrd.1 hw)
  | ramwr => exact Command.length_frame c rfl (Command.wellFormed_ramwr.1 hw)
  | ramex => exact Command.length_frame c rfl (Command.wellFormed_ramex.1 hw)
  | spd0 => exact Command.length_frame c rfl (Command.wellFormed_spd0.1 hw)
  | spd1 => exact Command.length_frame c rfl (Command.wellFormed_spd1.1 hw).2
  | mount drv ro len path =>
    rw [Command.length_frame c rfl rfl, Command.body]
    simp only [List.length_cons, Command.wellFormed_mount.1 hw, mountPathLen]
    split <;> omega
  | chdir str | create str =>
    rw [Command.length_frame c rfl rfl, Command.body]
    simp only [List.length_cons]
    omega

/-! ## Reading a frame back (R97, R103) -/

theorem splitBytes_append {n : Nat} {xs : List Byte} (h : xs.length = n) (rest : List Byte) :
    splitBytes n (xs ++ rest) = some (xs, rest) := by
  subst h
  simp [splitBytes]

theorem takeBody_append {n : Nat} {xs : List Byte} (h : xs.length = n) (f : List Byte → Command) (rest : List Byte) :
    takeBody n f (xs ++ rest) = some (f xs, rest) := by
  rw [takeBody, splitBytes_append h]

/-- The bytes of a body hold the operands in the order in which they are read, and their number follows from the opcode
or from a length byte among them. -/
theorem readBody_body {c : Config} {m : Command} (hw : m.wellFormed c = true) (rest : List Byte) :
    readBody c m.instr (m.body ++ rest) = some (m, rest) := by
  cases m with
  | idle | unrecognised | boot | getcwd | lread | pread | format | chdrv | getpath | dir | info => rfl
  | lwrite sel trk data => exact takeBody_append (Command.wellFormed_lwrite.1 hw) (.lwrite sel trk) rest
  | pwrite sel trk data extra =>
    have hsplit := splitBytes_append (Command.wellFormed_pwrite.1 hw) (extra :: rest)
    simp [Command.instr, Command.body, readBody, hsplit]
  | ramrd => exact takeBody_append (Command.wellFormed_ramrd.1 hw) .ramrd rest
  | ramwr => exact takeBody_append (Command.wellFormed_ramwr.1 hw) .ramwr rest
  | ramex => exact takeBody_append (Command.wellFormed_ramex.1 hw) .ramex rest
  | spd0 => exact takeBody_append (Command.wellFormed_spd0.1 hw) .spd0 rest
  | spd1 k => exact takeBody_append (Command.wellFormed_spd1.1 hw).2 (.spd1 k) rest
  | mount drv ro len => exact takeBody_append (Command.wellFormed_mount.1 hw) (.mount drv ro len) rest
  | chdir => exact takeBody_append (lengthByte_toNat (Command.wellFormed_chdir.1 hw)).symm .chdir rest
  | create => exact takeBody_append (lengthByte_toNat (Command.wellFormed_create.1 hw)).symm .create rest

/-- Settles O4: the opcode byte selects the row (`decodeByte_opcodeOf`), the row's format takes the body, and the
checksum byte, where there is one, is the one computed. -/
theorem frameRoundTrip : Obligations.FrameRoundTrip := by
  intro c m rest hc hw
  have hop : decodeByte c (opcodeOf c m.instr) = m.instr := decodeByte_opcodeOf hc (Command.wellFormed_instr hw)
  cases hcmd : Instr.isCommand m.instr with
  | false =>
    rw [Command.frame_of_not_isCommand c hcmd, List.cons_append]
    simp [parseFrame, hop, readBody_body hw, hcmd]
  | true =>
    rw [Command.frame_of_isCommand c hcmd, framed, List.cons_append, List.cons_append, List.append_assoc]
    simp [parseFrame, hop, readBody_body hw, hcmd]

end Sys2Proof.Machine

/-! PROOFS. The byte transport: the accumulator (O10), one `Send` on the lines (O13), bounded waits (O14), one `Recv` with
and without checking (O15, O16), and a streamed payload (O17). -/

namespace Sys2Proof.Machine

/-! ## The accumulator (R125, R131) -/

theorem crcFold_right_comm (x a b : Byte) : crcFold (crcFold x a) b = crcFold (crcFold x b) a := by
  simp only [crcFold, BitVec.xor_assoc, BitVec.xor_comm a b]

theorem crcFoldAll_perm (x : Byte) {bs cs : List Byte} (h : bs.Perm cs) : crcFoldAll x bs = crcFoldAll x cs :=
  h.foldl_eq (rcomm := ⟨crcFold_right_comm⟩) x

theorem checksum_cons (op : Byte) (bs : List Byte) : checksum (op :: bs) = crcFoldAll op bs :=
  congrArg (crcFoldAll · bs) (BitVec.zero_xor : crcFold 0 op = op)

/-- The zero test passes exactly for the byte that `crc` holds already (R126). -/
theorem crcGood_crcFold (x ck : Byte) : crcGood (crcFold x ck) = true ↔ ck = x :=
  beq_iff_eq.trans (BitVec.xor_eq_zero_iff.trans eq_comm)

/-- Settles O10: `crcFold` is right commutative, an exclusive-or is zero only of equal bytes, and a framed payload
cancels against its checksum. -/
theorem accumulatorLaws : Obligations.AccumulatorLaws :=
  ⟨fun x _ _ h => crcFoldAll_perm x h, fun op ck bs => by rw [crcGood_crcFold, checksum_cons], checksum_framed⟩

/-! ## Send (R121 to R123) -/

/-- Settles O13: `Bus.send_keeps` names what `Send` does to the bus, and `eventLines` of its event is `sendLines`. -/
theorem sendOnTheLines : Obligations.SendOnTheLines := by
  intro s v T hdefault
  obtain ⟨-, -, -, -, hwire, hlines, -⟩ := Bus.send_keeps s.cfg v T s.bus
  exact ⟨State.send_eq s v T, Bus.send_atDefault hdefault v T, hlines, hwire⟩

/-! ## Waits (R121 step 4, R124 step 1, R129) -/

section
variable {l : Line} {T now : Nat} {b : Bus} {x : Sample} {rest : List Sample}

theorem Bus.wait_of_low (h : waitScript l b.clock T b.clock b.host = .low x now rest) :
    b.wait l T = (true, { b.see x with clock := now, host := rest, lines := .sampled l false :: b.lines }) := by
  unfold Bus.wait
  rw [h]

theorem Bus.wait_of_late (h : waitScript l b.clock T b.clock b.host = .late x now rest) :
    b.wait l T = (false, { b.see x with clock := now, host := rest, lines := .sampled l true :: b.lines }) := by
  unfold Bus.wait
  rw [h]

/-- A wait fails no earlier than its timeout (R37, R129). -/
theorem Bus.wait_failed_clock (l : Line) (T : Nat) (b : Bus) (h : (b.wait l T).1 = false) :
    b.clock + T ≤ (b.wait l T).2.clock := by
  have hclock := waitScript_clock l b.clock T b.host b.clock
  cases hw : waitScript l b.clock T b.clock b.host with
  | low x now rest =>
    rw [Bus.wait_of_low hw] at h
    cases h
  | late x now rest =>
    rw [hw] at hclock
    obtain ⟨-, hstart, hlate⟩ := hclock
    rw [Bus.wait_of_late hw]
    show b.clock + T ≤ now
    omega
  | ended now =>
    unfold Bus.wait at h ⊢
    rw [hw] at h ⊢
    dsimp only at h ⊢
    split at h
    · cases h
    · rename_i hhigh
      rw [if_neg hhigh]
      exact (Nat.le_max_right _ _).trans (Nat.le_add_right _ _)

/-! A wait whose deciding sample is `x`: while `pre` went by, the line was high and the timeout had not passed. -/

variable {pre : List Sample} (hhost : b.host = pre ++ x :: rest) (hhigh : ∀ y ∈ pre, Sample.at y l = true)
  (hearly : pre = [] ∨ (pre.map (·.dt)).sum < T)
include hhost hhigh hearly

theorem Bus.waitScript_at_deciding : waitScript l b.clock T b.clock b.host =
    waitScript l b.clock T (b.clock + (pre.map (·.dt)).sum) (x :: rest) := by
  rw [hhost]
  exact waitScript_goes_on l b.clock T (x :: rest) pre 0 hhigh (by rwa [Nat.zero_add])

theorem Bus.wait_decided_low (hlow : Sample.at x l = false) :
    (b.wait l T).1 = true ∧ (b.wait l T).2.host = rest := by
  have hw := Bus.waitScript_at_deciding hhost hhigh hearly
  rw [waitScript, if_pos hlow] at hw
  rw [Bus.wait_of_low hw]
  exact ⟨rfl, rfl⟩

theorem Bus.wait_decided_late (hx : Sample.at x l = true) (hlate : T ≤ (pre.map (·.dt)).sum + x.dt) :
    (b.wait l T).1 = false ∧ (b.wait l T).2.host = rest ∧
      (b.wait l T).2.clock = b.clock + (pre.map (·.dt)).sum + x.dt := by
  have hw := Bus.waitScript_at_deciding hhost hhigh hearly
  rw [waitScript, if_neg (by simp [hx]), if_pos (by omega)] at hw
  rw [Bus.wait_of_late hw]
  exact ⟨rfl, rfl, rfl⟩

end

/-- Settles O14: a wait goes on over high samples in time (`waitScript_goes_on`), and the next sample decides it; one
that is low at the first sample is the case of no samples before it. -/
theorem waitsAreBounded : Obligations.WaitsAreBounded := by
  intro l T b
  obtain ⟨-, -, -, -, -, -, hmono⟩ := Bus.wait_keeps l T b
  refine ⟨fun x rest hhost hlow => ?_, Bus.wait_failed_clock l T b, hmono, fun pre x rest hhost hhigh hearly => ?_⟩
  · exact (Bus.wait_decided_low (pre := []) hhost (by simp) (.inl rfl) hlow).1
  · exact ⟨Bus.wait_decided_low hhost hhigh hearly, Bus.wait_decided_late hhost hhigh hearly⟩

/-! ## Recv (R125 to R128) -/

/-- Settles O15: `recv_served` for a byte in time; a `Recv` without checking that gives none is the second of the two
ways of `State.recv_open`. -/
theorem receiveFoldsTheByte : Obligations.ReceiveFoldsTheByte := by
  intro s T
  constructor
  · intro x rest hanswered
    obtain ⟨b, hrecv, hhost, hwire, -⟩ := recv_served hanswered
    rw [hrecv]
    exact ⟨rfl, rfl, hwire, hhost⟩
  · intro htimeout
    rcases State.recv_open s T with ⟨v, b, -, -, hrecv⟩ | ⟨b, -, hwire, hrecv⟩
    · rw [hrecv] at htimeout
      cases htimeout
    · rw [hrecv]
      exact ⟨rfl, hwire⟩

/-- The events after a `Send`: its own on top of those before it. -/
theorem State.send_wire_of {s : State} {w : List WireEvent} (h : s.bus.wire = w) (v : Byte) (T : Nat) :
    ∃ taken, (s.send v T).2.bus.wire = .tx v taken :: w :=
  ⟨_, h ▸ State.send_wire s v T⟩

/-- Settles O16: the three ways of `State.recv_closing` are the three clauses, and the answer leaves `crc` alone. -/
theorem closeOutAnswers : Obligations.CloseOutAnswers := by
  intro s T
  rcases State.recv_closing s T with ⟨v, b, hwire, hgood, hrecv⟩ | ⟨v, b, hwire, hbad, hrecv⟩ | ⟨b, hwire, hrecv⟩ <;>
    rw [hrecv]
  · have hzero : crcFold s.crc v = 0 := beq_iff_eq.1 hgood
    refine ⟨fun w hw => ?_, nofun, nofun⟩
    cases hw
    exact ⟨hzero, hzero, State.send_wire_of hwire _ _⟩
  · have hnonzero : crcFold s.crc v ≠ 0 := beq_eq_false_iff_ne.1 hbad
    refine ⟨nofun, fun w hw => ?_, nofun⟩
    cases hw
    exact ⟨hnonzero, rfl, State.send_wire_of hwire _ _⟩
  · exact ⟨nofun, nofun, fun _ => ⟨rfl, State.send_wire_of hwire _ _⟩⟩

/-! ## Payloads (R130) -/

/-- From `s` to `t` the bytes `vs` were sent in order up to one that was not taken, and nothing after it. -/
def SentUntilMissed (vs : List Byte) (s t : State) : Prop :=
  ∃ sent v rest, vs = sent ++ v :: rest ∧
    t.bus.wire = .tx v false :: ((sent.map (WireEvent.tx · true)).reverse ++ s.bus.wire)

theorem SentUntilMissed.cons {v : Byte} {vs : List Byte} {s u t : State} (h : SentUntilMissed vs u t)
    (hv : u.bus.wire = .tx v true :: s.bus.wire) : SentUntilMissed (v :: vs) s t := by
  obtain ⟨sent, w, rest, rfl, hwire⟩ := h
  exact ⟨v :: sent, w, rest, rfl, by rw [hwire, hv]; simp⟩

theorem SentUntilMissed.append {vs : List Byte} {s t : State} (h : SentUntilMissed vs s t) (ws : List Byte) :
    SentUntilMissed (vs ++ ws) s t := by
  obtain ⟨sent, w, rest, rfl, hwire⟩ := h
  exact ⟨sent, w, rest ++ ws, by simp, hwire⟩

/-- A tested `Send` is taken or aborts; either way it changes the bus alone. -/
theorem sendByte_cases (v : Byte) (s : State) :
    (∃ b, sendByte v s = .done () { s with bus := b } ∧ b.wire = .tx v true :: s.bus.wire) ∨
    (∃ b, sendByte v s = .abort .txTimeout { s with bus := b } ∧ b.wire = .tx v false :: s.bus.wire) := by
  have hwire := State.send_wire s v s.cfg.tXfer
  have hstate := State.send_eq s v s.cfg.tXfer
  unfold sendByte
  rcases hsend : s.send v s.cfg.tXfer with ⟨_ | _, t⟩ <;> rw [hsend] at hwire hstate <;> cases hstate
  · exact .inr ⟨_, rfl, hwire⟩
  · exact .inl ⟨_, rfl, hwire⟩

/-- A stream is taken whole, with `crc` folded over it, or stops at the first byte that is not taken. -/
theorem sendStream_cases : ∀ (vs : List Byte) (s : State),
    (∃ b, sendStream vs s = .done () { s with bus := b, crc := crcFoldAll s.crc vs } ∧
      b.wire = (vs.map (WireEvent.tx · true)).reverse ++ s.bus.wire) ∨
    (∃ t, sendStream vs s = .abort .txTimeout t ∧ SentUntilMissed vs s t)
  | [], s => .inl ⟨s.bus, rfl, rfl⟩
  | v :: vs, s => by
    rw [sendStream]
    rcases sendByte_cases v s with ⟨b, hsend, hwire⟩ | ⟨b, hsend, hwire⟩ <;> rw [hsend]
    · rcases sendStream_cases vs { s with bus := b, crc := crcFold s.crc v } with ⟨b', hrest, hwire'⟩ | ⟨t, hrest, hcut⟩
      · exact .inl ⟨b', hrest, by rw [hwire', hwire]; simp⟩
      · exact .inr ⟨t, hrest, hcut.cons hwire⟩
    · exact .inr ⟨_, rfl, [], v, vs, rfl, hwire⟩

/-- A payload that aborts stops at a byte of it, or at its checksum, that was not taken (R130). -/
theorem sendPayload_aborted {n : Nat} {s t : State} {c : Cause} (h : sendPayload n s = .abort c t) :
    c = .txTimeout ∧ SentUntilMissed (framed (s.bufTake n)) s t := by
  unfold sendPayload at h
  rcases sendStream_cases (s.bufTake n) { s with crc := 0 } with ⟨b, hstream, hwire⟩ | ⟨u, hstream, hcut⟩ <;>
    rw [hstream] at h
  · rcases sendByte_cases (checksum (s.bufTake n)) { s with bus := b, crc := checksum (s.bufTake n) } with
      ⟨b', hsend, -⟩ | ⟨b', hsend, hwire'⟩
    · cases hsend.symm.trans h
    · cases hsend.symm.trans h
      exact ⟨rfl, _, _, [], rfl, hwire'.trans (congrArg _ hwire)⟩
  · cases h
    exact ⟨rfl, hcut.append _⟩

theorem State.length_bufTake (s : State) {n : Nat} (h : n ≤ 512) : (s.bufTake n).length = n := by
  simpa [State.bufTake] using h

/-- Settles O17: `sendPayload_served` when the host takes every byte, `sendPayload_aborted` when it stops. -/
theorem payloadStreams : Obligations.PayloadStreams := by
  intro s n hn
  refine ⟨fun h' htakes => ?_, fun _ _ => sendPayload_aborted⟩
  obtain ⟨b, hsend, hleft, hwire, -⟩ := sendPayload_served (s := s) (m := 0) (h' := h') rfl
    (by rwa [s.length_bufTake hn, Nat.add_zero])
  exact ⟨_, hsend, rfl, takes_zero hleft, hwire⟩

end Sys2Proof.Machine

/-! PROOFS. The dispatcher and the link: what one poll runs (O22), the presence exchange (O23), the two bytes without a
handler (O25, O26), the result of `poll` (O27) and what brings the link down (O28). -/

namespace Sys2Proof.Machine

/-! ## The branches of a poll (R151 to R153) -/

/-- Settles O22: under its hypotheses one way of `step_cases` is left in each clause. -/
theorem stepRunsDecodedCommand : Obligations.StepRunsDecodedCommand := by
  intro s hidle hlink
  rcases step_cases s hidle with ⟨hdown, -⟩ | ⟨-, hnone, e⟩ | ⟨-, op, hop, e⟩
  · rw [hlink] at hdown
    cases hdown
  · rw [hnone]
    exact ⟨nofun, fun _ => e⟩
  · rw [hop]
    refine ⟨fun op' h => ?_, nofun⟩
    cases h
    exact e

theorem poll_of_unlinked {s : State} (h : s.link = false) : poll s = .next (presenceExchange s) := by
  unfold poll
  rw [if_neg (by simp [h])]

/-- The four ways a presence exchange goes, told apart by the wire; the last one alone sets the link (R152). -/
theorem presenceExchange_cases (s : State) : ∃ u, Transferred { s with phase := .presence } u ∧
    ((presenceExchange s = u.endPoll false (some .presenceFail) ∧
        (u.bus.wire = .tx s.cfg.bIdle false :: s.bus.wire ∨
          u.bus.wire = .rxTimeout :: .tx s.cfg.bIdle true :: s.bus.wire ∨
          ∃ b, b ≠ s.cfg.bIdle ∧ u.bus.wire = .rx b :: .tx s.cfg.bIdle true :: s.bus.wire)) ∨
      (presenceExchange s = ({ u with link := true } : State).endPoll false none ∧
        u.bus.wire = .rx s.cfg.bIdle :: .tx s.cfg.bIdle true :: s.bus.wire)) := by
  have hsend := State.send_keeps { s with phase := .presence } s.cfg.bIdle s.cfg.tIdleTx
  have hsent := State.send_wire { s with phase := .presence } s.cfg.bIdle s.cfg.tIdleTx
  unfold presenceExchange
  rcases e1 : ({ s with phase := .presence } : State).send s.cfg.bIdle s.cfg.tIdleTx with ⟨taken, u⟩
  rw [e1] at hsend hsent
  cases taken with
  | false => exact ⟨u, hsend, .inl ⟨rfl, .inl hsent⟩⟩
  | true =>
    have hrecv := hsend.trans (State.recv_keeps u u.cfg.tIdleRx false)
    dsimp only
    rcases State.recv_open u u.cfg.tIdleRx with ⟨v, b, -, hwire, e2⟩ | ⟨b, -, hwire, e2⟩ <;>
      rw [e2] at hrecv ⊢ <;> rw [hsent] at hwire
    · have hidle : u.cfg.bIdle = s.cfg.bIdle := congrArg Config.bIdle hsend.cfg
      dsimp only
      rw [hidle]
      by_cases hv : v = s.cfg.bIdle
      · subst hv
        rw [if_pos rfl]
        exact ⟨_, hrecv, .inr ⟨rfl, hwire⟩⟩
      · rw [if_neg hv]
        exact ⟨_, hrecv, .inl ⟨rfl, .inr (.inr ⟨v, hv, hwire⟩)⟩⟩
    · exact ⟨_, hrecv, .inl ⟨rfl, .inr (.inl hwire)⟩⟩

/-- Settles O23: the four ways of `presenceExchange_cases`, where a failed exchange keeps the link down. -/
theorem presenceExchangeCases : Obligations.PresenceExchangeCases := by
  intro s hdown
  refine ⟨_, poll_of_unlinked hdown, ?_⟩
  obtain ⟨u, ht, h⟩ := presenceExchange_cases s
  have hlink : u.link = false := ht.link.trans hdown
  rcases h with ⟨e, h⟩ | ⟨e, hwire⟩ <;> rw [e] <;> refine ⟨rfl, ht.cfg, ht.cwd, ht.dircur, ht.coll, ?_⟩
  · rcases h with hwire | hwire | ⟨b, hb, hwire⟩
    · exact .inl ⟨hlink, hwire⟩
    · exact .inr (.inl ⟨hlink, hwire⟩)
    · exact .inr (.inr (.inl ⟨b, hb, hlink, hwire⟩))
  · exact .inr (.inr (.inr ⟨rfl, hwire⟩))

/-! ## The two bytes without a handler (R154, R156) -/

theorem exec_idle (s : State) : exec .idle s = .next (s.endPoll false none) := rfl

theorem exec_unrecognised (b : Byte) (s : State) :
    exec (.unrecognised b) s = .next ((s.send s.cfg.bNak s.cfg.tXfer).2.endPoll false (some .unknownOpcode)) := rfl

/-- Settles O25: `IDLE` ends its poll where it stands. -/
theorem idleIsSilent : Obligations.IdleIsSilent := fun s =>
  ⟨_, exec_idle s, rfl, rfl, rfl, rfl, ⟨rfl, rfl, rfl, rfl, rfl⟩, rfl⟩

/-- Settles O26: the answer is one `Send`, which records its one event and touches the bus alone. -/
theorem unrecognisedSendsOneNak : Obligations.UnrecognisedSendsOneNak := by
  intro b s
  have hk := State.send_keeps s s.cfg.bNak s.cfg.tXfer
  exact ⟨_, _, exec_unrecognised b s, State.send_wire s _ _, rfl, rfl,
    ⟨hk.cfg, hk.link, hk.cwd, hk.dircur, hk.between⟩, hk.coll⟩

/-! ## The result of `poll` (R157) -/

/-- A handler's return and its abort both make `poll` return true. -/
@[simp] theorem Progress.leave_pollResult (p : Progress Unit) : p.leave.pollResult = true := by
  cases p <;> rfl

/-- Whatever became of its handler, a command with one makes `poll` return true, and the other two bytes false. -/
theorem exec_pollResult {i : Instr} {s t : State} (h : exec i s = .next t) : t.pollResult = Instr.isCommand i := by
  cases hc : Instr.isCommand i with
  | true =>
    obtain ⟨p, hexec, -⟩ := exec_handled i s hc
    rw [hexec] at h
    cases h
    exact p.leave_pollResult
  | false =>
    cases i with
    | idle | unrecognised b => cases h; rfl
    | _ => cases hc

theorem presenceExchange_pollResult (s : State) : (presenceExchange s).pollResult = false := by
  obtain ⟨u, l, how, e, -⟩ := presenceExchange_ends s
  rw [e]
  rfl

/-- Settles O27: the three ways of `step_cases`, with `exec_pollResult` for the one that runs an instruction. -/
theorem pollResultMeansDispatch : Obligations.PollResultMeansDispatch := by
  intro s t h
  rcases step_cases s (step_idle h) with ⟨hdown, e⟩ | ⟨-, hnone, e⟩ | ⟨hup, op, hop, e⟩ <;> rw [e] at h
  · cases h
    simp [presenceExchange_pollResult, hdown]
  · cases h
    simp [linkLoss, hnone]
  · obtain ⟨hcfg, -⟩ := fetched_keeps s
    rw [exec_pollResult h, hcfg]
    simp [hup, hop]

/-! ## What changes the link (R153, R158, R160) -/

/-- No instruction changes the link or the configuration, however its handler ends (R47, R160). -/
theorem exec_keeps_link {i : Instr} {s t : State} (h : exec i s = .next t) : t.link = s.link ∧ t.cfg = s.cfg := by
  rcases exec_ends i s t h with
    ⟨-, hcfg, hlink, -⟩ | ⟨c, v, hv, rfl, -⟩ | ⟨v, u, w, how, hv, hact, hw, rfl, -⟩
  · exact ⟨hlink, hcfg⟩
  · exact ⟨hv.link, hv.cfg⟩
  · obtain ⟨hcfg, hlink, -⟩ := act_keeps i v u hact
    exact ⟨hw.link.trans (hlink.trans hv.link), hw.cfg.trans (hcfg.trans hv.cfg)⟩

/-- Settles O28: `exec_keeps_link`, and of the two ways a linked poll goes only link loss clears the link. -/
theorem onlyOpcodeReadFailureUnlinks : Obligations.OnlyOpcodeReadFailureUnlinks := by
  refine ⟨fun i s t => exec_keeps_link, fun s t h hlink => ?_⟩
  rcases step_cases s (step_idle h) with ⟨hdown, -⟩ | ⟨-, hnone, e⟩ | ⟨-, op, hop, e⟩
  · rw [(envStep_keeps s).link, hlink] at hdown
    cases hdown
  · rw [e] at h
    cases h
    simp [linkLoss, hnone]
  · rw [e] at h
    obtain ⟨-, hread, -⟩ := fetched_keeps s
    simp [(exec_keeps_link h).1, hread, hlink, hop]

end Sys2Proof.Machine

/-! PROOFS. The block commands: the argument check (O36), the reads (O29 to O31), the writes (O32, O33) and the format
(O34) with a host that keeps up, and the frame of a write or a format however it ends (O55). -/

namespace Sys2Proof.Machine

/-! ## The argument check (R171, R172) -/

theorem KindFlags.population_eq_one (f : KindFlags) : f.population = 1 ↔ f = .read ∨ f = .write ∨ f = .format := by
  obtain ⟨r, w, x⟩ := f
  cases r <;> cases w <;> cases x <;> decide

theorem argCheckFails_iff (f : KindFlags) (count : Nat) : argCheckFails f count = true ↔
    f ≠ .read ∧ f ≠ .write ∧ f ≠ .format ∨ 512 < count ∨ (count = 0 ∧ f.fFormat = false) := by
  have hkind : (f.population != 1) = true ↔ f ≠ .read ∧ f ≠ .write ∧ f ≠ .format := by
    rw [bne_iff_ne, ne_eq, KindFlags.population_eq_one]
    tauto
  simp only [argCheckFails, Bool.or_eq_true, hkind, decide_eq_true_eq, Bool.and_eq_true, beq_iff_eq, or_assoc,
    Bool.not_eq_true', gt_iff_lt]

theorem Config.bootCount_range {c : Config} (hc : c.Valid) : 1 ≤ c.bootCount ∧ c.bootCount ≤ 512 := by
  obtain ⟨-, -, -, -, hrange, -⟩ := hc
  exact hrange

/-- The boot read's count passes (R10, R172). -/
theorem argCheckFails_boot {c : Config} (hc : c.Valid) : argCheckFails .read c.bootCount = false := by
  obtain ⟨hpos, hcap⟩ := Config.bootCount_range hc
  rw [Bool.eq_false_iff, ne_eq, argCheckFails_iff]
  rintro (⟨hread, -⟩ | hbig | ⟨hzero, -⟩)
  · exact hread rfl
  · omega
  · omega

theorem blockIO_of_argCheckFails {f : KindFlags} {count : Nat} (h : argCheckFails f count = true) (boot : Bool)
    (s : State) : blockIO f boot count s = .abort .argCheck s := if_pos h

/-- Past the argument check: address, payload, close-out, storage step, reply. -/
theorem blockIO_of_argsOk {f : KindFlags} {count : Nat} (h : argCheckFails f count = false) (boot : Bool) (s : State) :
    blockIO f boot count s = (blockAddress boot count (s.setKind f boot count)).bind fun _ s =>
      (blockPayload f count s).bind fun _ s =>
        (closeOut s).bind fun _ s => blockReply f count (blockStorage f count s) :=
  if_neg (by simp [h])

/-- Receiving and sending have causes of their own to abort for. -/
theorem Receives.ne_argCheck {α : Type} {s : State} {p : Progress α} (h : Receives s p) (t : State) :
    p ≠ .abort .argCheck t := by
  intro hp
  rcases h.2 _ _ hp with ⟨hc, -⟩ | ⟨hc, -⟩ <;> cases hc

theorem Sends.ne_argCheck {α : Type} {s : State} {p : Progress α} (h : Sends s p) (t : State) :
    p ≠ .abort .argCheck t := by
  intro hp
  cases (h.2 _ _ hp).1

theorem Progress.bind_ne_abort {α β : Type} {p : Progress α} {f : α → State → Progress β} {c : Cause} {t : State}
    (hp : p ≠ .abort c t) (hf : ∀ a u, f a u ≠ .abort c t) : p.bind f ≠ .abort c t := by
  cases p with
  | done a u => exact hf a u
  | abort c' u => exact fun h => hp (by cases h; rfl)

/-- Only the argument check raises its cause. -/
theorem blockIO_argCheck_iff (f : KindFlags) (boot : Bool) (count : Nat) (s : State) :
    blockIO f boot count s = .abort .argCheck s ↔ argCheckFails f count = true := by
  refine ⟨fun habort => ?_, fun h => blockIO_of_argCheckFails h boot s⟩
  by_contra hok
  rw [blockIO_of_argsOk (by simpa using hok)] at habort
  exact Progress.bind_ne_abort ((blockAddress_receives boot count _).ne_argCheck s)
    (fun _ t => Progress.bind_ne_abort ((blockPayload_receives f count t).ne_argCheck s)
      fun _ u => Progress.bind_ne_abort ((closeOut_receives u).ne_argCheck s)
        fun _ _ => (blockReply_sends f count _).ne_argCheck s) habort

/-- Settles O36: the check fails exactly as named, and no later part of a block command raises its cause. -/
theorem argumentCheck : Obligations.ArgumentCheck := by
  refine ⟨fun f boot count s => ?_, fun c hc => ⟨argCheckFails_boot hc, by decide⟩⟩
  rw [blockIO_argCheck_iff, argCheckFails_iff]

/-! ## Reads (R190 to R192) -/

/-- A single byte is its own checksum. -/
theorem crcFold_self (a : Byte) : crcFold a a = 0 := BitVec.xor_self

theorem byteOffset_boot : byteOffset .read 0 0 = 0 := rfl

/-- `BOOT` served in full: no address bytes are received, and the address latches are zero (R174). -/
theorem boot_completes {s : State} {off : Nat} {h' : List Sample} (hc : s.cfg.Valid)
    (hoff : byteOffset .read 0 0 = off)
    (hs : serves s.cfg.tXfer [s.cfg.opBoot] (1 + (readReply s.coll 0 off s.cfg.bootCount).length) s.bus.host h') :
    Completes .boot s [s.cfg.opBoot] (s.cfg.bAck :: readReply s.coll 0 off s.cfg.bootCount) h' fun t =>
      keepsPlace s t ∧ keepsDisks s.coll t.coll ∧
      t.coll.requests = readRequests s.coll 0 off s.cfg.bootCount ++ s.coll.requests := by
  obtain ⟨m, ho, ht⟩ := hs
  subst hoff
  obtain ⟨b, f, c, l, e, hhost, hwire⟩ := blockTail_read (n := s.cfg.bootCount) (s :=
    { (s.dispatch .boot).setKind .read true s.cfg.bootCount with
      latch := { ((s.dispatch .boot).setKind .read true s.cfg.bootCount).latch with
        drive := 0, sector := 0, track := 0 } }) (Config.bootCount_range hc).2 ho (crcFold_self _) ht
  have hrun : blockIO .read true s.cfg.bootCount (s.dispatch .boot) = _ :=
    (blockIO_of_argsOk (argCheckFails_boot hc) true _).trans e
  exact Completes.of_done (h := blockIO .read true s.cfg.bootCount) rfl hrun hwire hhost rfl rfl rfl
    ⟨⟨rfl, rfl⟩, readColl_keeps s.coll 0 (byteOffset .read 0 0) s.cfg.bootCount⟩

/-- Settles O29: the boot read at the offset of the zero address. -/
theorem bootReadsFirstBytes : Obligations.BootReadsFirstBytes :=
  fun _ _ hc hs => boot_completes hc byteOffset_boot hs

/-- Settles O30: the served `LREAD` of the round trip is the statement. -/
theorem lreadSendsSector : Obligations.LreadSendsSector := fun _ _ _ _ => lread_completes

/-- Settles O31: the read of `Completes.read` with the narrower sector field. -/
theorem preadSendsFourSectors : Obligations.PreadSendsFourSectors := by
  intro s sel trk h' hc off ins reply hs
  obtain ⟨-, -, -, ⟨-, hsecw⟩, -⟩ := hc
  have hoff : byteOffset .read trk (selSector s.cfg.secw 512 sel) = off := by
    rw [byteOffset_read, selSector_other hsecw (by decide)]
  exact Completes.read rfl (by decide) (by decide) hoff (xor_close _ _ _) hs

/-! ## Writes (R193, R194) -/

/-- A command served up to its result byte, whatever becomes of that byte (R280): both clauses of the statements about
writes and the format. -/
theorem Reaches.completes_or_stops {i : Instr} {s : State} {ins : List Byte} {r : Byte} {P : State → Prop}
    (h : ∀ k h', serves s.cfg.tXfer ins (k + 1) s.bus.host h' → Reaches i s ins r k h' P) :
    (∀ h', serves s.cfg.tXfer ins 2 s.bus.host h' → Completes i s ins [s.cfg.bAck, r] h' P) ∧
      (servesOnly s.cfg.tXfer ins 1 s.bus.host → StopsAt i s ins [s.cfg.bAck] r P) :=
  ⟨fun h' hs => (h 1 h' hs).completes, fun ⟨h', hs, hmiss⟩ => (h 0 h' hs).stops hmiss⟩

/-- Settles O32: served up to its result byte, and then either way that byte goes. -/
theorem lwriteStoresSector : Obligations.LwriteStoresSector :=
  fun _ _ _ _ hd => Reaches.completes_or_stops fun _ _ hs => lwrite_reaches hd hs

/-- `PWRITE` served up to its result byte (R194): the extra byte is in the checksum and nowhere else. -/
theorem pwrite_reaches {s : State} {sel trk extra : Byte} {data : List Byte} {k : Nat} {h' : List Sample}
    (hsecw : s.cfg.secw < 6) (hd : data.length = 512) :
    let d := selDrive sel
    let off := sectorOffset trk (sel.toNat % 2 ^ s.cfg.secw)
    let ins := sel :: trk :: (data ++ [extra, checksum (s.cfg.opPwrite :: sel :: trk :: (data ++ [extra]))])
    serves s.cfg.tXfer ins (k + 1) s.bus.host h' →
    Reaches .pwrite s ins (writeReply s.coll d off data) k h' fun t =>
      keepsPlace s t ∧ t.coll = writeColl s.coll d off data ∧ keepsOutside s.coll t.coll d off 512 ∧
      t.coll.requests = writeRequests s.coll d off 512 ++ s.coll.requests :=
  Reaches.write (more := [extra]) rfl (by decide) (by decide) hd rfl
    (by rw [byteOffset_write, selSector_other hsecw (by decide)]) rfl

/-- Settles O33: as O32, with the narrower sector field of a valid configuration. -/
theorem pwriteStoresFirst512 : Obligations.PwriteStoresFirst512 := by
  intro s sel trk extra data hc hd
  obtain ⟨-, -, -, ⟨-, hsecw⟩, -⟩ := hc
  exact Reaches.completes_or_stops fun _ _ hs => pwrite_reaches hsecw hd hs

/-! ## Format (R195) -/

theorem Reaches.imp {i : Instr} {s : State} {ins : List Byte} {r : Byte} {n : Nat} {h' : List Sample}
    {P Q : State → Prop} (k : Reaches i s ins r n h' P) (hpq : ∀ t, P t → Q t) : Reaches i s ins r n h' Q := by
  obtain ⟨h, u, hx, ht, htk, hw, hl, hcfg, hb, hP⟩ := k
  exact ⟨h, u, hx, ht, htk, hw, hl, hcfg, hb, fun v h1 h2 h3 => hpq v (hP v h1 h2 h3)⟩

theorem fillTrack_length : fillTrack.length = 4608 := List.length_replicate

/-- A format answers OK only if the slot is open and writable and the whole track was stored. -/
theorem formatReply_ok {c : Coll} {d : Fin 4} {off : Nat} (h : formatReply c d off = RC_OK) :
    ¬((c.slot d).isOpen = false ∨ (c.slot d).writable = false) ∧ (c.memWrite d off fillTrack).1 = 4608 := by
  unfold formatReply at h
  split_ifs at h with hopen hwritable hall
  · cases h
  · cases h
  · exact ⟨fun hor => hor.elim hopen hwritable, hall⟩
  · cases h

/-- After a format that answers OK the track reads as fill bytes, as far as the image reaches. -/
theorem formatColl_filled {c : Coll} {d : Fin 4} {off a : Nat} (h : formatReply c d off = RC_OK) (hlo : off ≤ a)
    (hhi : a < off + 4608) (himage : a < 368640) : ((formatColl c d off).slot d).image.read a = FILL := by
  obtain ⟨hopen, hall⟩ := formatReply_ok h
  obtain ⟨i, rfl⟩ := Nat.exists_eq_add_of_le hlo
  have hi : i < 4608 := by omega
  have hstored := memWrite_prefix c d off fillTrack i (fillTrack_length ▸ hi) (by rwa [hall]) himage
  rw [formatColl, if_neg hopen, memFlush_slot, if_pos rfl]
  exact hstored.trans (List.getElem_replicate _)

/-- Settles O34: `formatColl` is what the format leaves, and its laws give the rest. -/
theorem formatFillsTrack : Obligations.FormatFillsTrack := by
  intro s sel trk d off ins r P
  refine Reaches.completes_or_stops fun k h' hs =>
    (Reaches.fill (i := .format) rfl (xor_close s.cfg.opFormat sel trk) hs).imp ?_
  rintro t ⟨hplace, hcoll⟩
  refine ⟨hplace, hcoll, hcoll ▸ formatColl_outside s.coll d off, fun hok => ?_⟩
  obtain ⟨hflushed, hfile⟩ := formatColl_ok hok
  rw [hcoll]
  exact ⟨hflushed, hfile, fun a hlo hhi himage => formatColl_filled hok hlo hhi himage⟩

/-! ## However a write or a format ends (R198, R280) -/

/-- `t` comes from `s` by receiving: the bus, `crc` and `buf` may differ, and the wire has only gained events. -/
def Received (s t : State) : Prop :=
  ∃ b crc buf, t = { s with bus := b, crc := crc, buf := buf } ∧ s.bus.wire <:+ b.wire

theorem Received.refl (s : State) : Received s s := ⟨s.bus, s.crc, s.buf, rfl, List.suffix_rfl⟩

theorem Received.trans {s t u : State} (h : Received s t) (k : Received t u) : Received s u := by
  obtain ⟨b, c, f, rfl, hb⟩ := h
  obtain ⟨b', c', f', rfl, hb'⟩ := k
  exact ⟨b', c', f', rfl, hb.trans hb'⟩

theorem Received.bind {α β : Type} {s : State} {p : Progress α} {f : α → State → Progress β}
    (hp : Received s p.at) (hf : ∀ a t, Received t (f a t).at) : Received s (p.bind f).at := by
  cases p with
  | done a t => exact hp.trans (hf a t)
  | abort c t => exact hp

theorem Received.setBuf (s : State) (i : Nat) (b : Byte) : Received s (s.setBuf i b) :=
  ⟨s.bus, s.crc, _, rfl, List.suffix_rfl⟩

/-- The two ways an operand byte goes (R173). -/
theorem recvArg_cases (s : State) :
    (∃ v b, recvArg s = .done v { s with bus := b, crc := crcFold s.crc v } ∧ b.wire = .rx v :: s.bus.wire) ∨
    (∃ b, recvArg s = .abort .rxTimeout { s with bus := b } ∧ b.wire = .rxTimeout :: s.bus.wire) := by
  unfold recvArg
  rcases State.recv_open s s.cfg.tXfer with ⟨v, b, -, hwire, e⟩ | ⟨b, -, hwire, e⟩ <;> rw [e]
  · exact .inl ⟨v, b, rfl, hwire⟩
  · exact .inr ⟨b, rfl, hwire⟩

theorem recvArg_received (s : State) : Received s (recvArg s).at := by
  rcases recvArg_cases s with ⟨v, b, e, hwire⟩ | ⟨b, e, hwire⟩ <;> rw [e]
  · exact ⟨b, _, s.buf, rfl, hwire ▸ List.suffix_cons _ _⟩
  · exact ⟨b, s.crc, s.buf, rfl, hwire ▸ List.suffix_cons _ _⟩

theorem recvBuf_received : ∀ (n i : Nat) (s : State), Received s (recvBuf n i s).at
  | 0, _, s => .refl s
  | n + 1, i, s => .bind (recvArg_received s) fun b t => (Received.setBuf t i b).trans (recvBuf_received n (i + 1) _)

theorem recvSkip_received : ∀ (n : Nat) (s : State), Received s (recvSkip n s).at
  | 0, s => .refl s
  | n + 1, s => .bind (recvArg_received s) fun _ t => recvSkip_received n t

theorem blockPayload_received (f : KindFlags) (n : Nat) (s : State) : Received s (blockPayload f n s).at := by
  unfold blockPayload
  split
  · refine .bind (recvBuf_received n 0 s) fun _ t => ?_
    split
    · exact recvSkip_received 1 t
    · exact .refl t
  · exact .refl s

theorem State.send_received (s : State) (v : Byte) (T : Nat) : Received s (s.send v T).2 :=
  ⟨_, s.crc, s.buf, rfl, State.send_wire s v T ▸ List.suffix_cons _ _⟩

theorem closeOut_received (s : State) : Received s (closeOut s).at := by
  have hlatched : ∀ b crc e, b.wire = e :: s.bus.wire → Received s { s with bus := b, crc := crc } :=
    fun b crc e hwire => ⟨b, crc, s.buf, rfl, hwire ▸ List.suffix_cons _ _⟩
  unfold closeOut
  rcases State.recv_closing s s.cfg.tXfer with ⟨v, b, hwire, -, e⟩ | ⟨v, b, hwire, -, e⟩ | ⟨b, hwire, e⟩ <;> rw [e]
  · exact (hlatched b _ _ hwire).trans (State.send_received _ _ _)
  · exact (hlatched b _ _ hwire).trans (State.send_received _ _ _)
  · exact (hlatched b s.crc _ hwire).trans (State.send_received _ _ _)

theorem Wired.suffix {Q : WireEvent → Prop} {s t : State} (h : Wired Q s t) : s.bus.wire <:+ t.bus.wire := by
  obtain ⟨-, es, hwire, -⟩ := h
  exact ⟨es, hwire.symm⟩

theorem blockReply_wired (f : KindFlags) (n : Nat) (s : State) : Wired AnyEvent s (blockReply f n s).at := by
  unfold blockReply
  refine (sendResult_wired _ s).bind fun _ t => ?_
  split
  · exact sendPayload_wired n t
  · exact .refl t

/-- The storage step moves no line and records no event. -/
theorem blockStorage_bus (f : KindFlags) (n : Nat) (s : State) : (blockStorage f n s).bus = s.bus := by
  obtain ⟨c, b, l, e, -⟩ := blockStorage_shape f n s
  rw [e]

/-- In `t` the selector byte `sel` and the track byte `trk` were the first received since `s`, and the latches hold the
address they give a command of `n` bytes; nothing was stored yet. -/
structure Addressed (n : Nat) (sel trk : Byte) (s t : State) : Prop where
  coll : t.coll = s.coll
  drive : t.latch.drive = selDrive sel
  sector : t.latch.sector = selSector s.cfg.secw n sel
  track : t.latch.track = trk
  wire : .rx trk :: .rx sel :: s.bus.wire <:+ t.bus.wire

theorem Addressed.received {n : Nat} {sel trk : Byte} {s t u : State} (h : Addressed n sel trk s t)
    (k : Received t u) : Addressed n sel trk s u := by
  obtain ⟨b, crc, buf, rfl, hwire⟩ := k
  exact ⟨h.coll, h.drive, h.sector, h.track, h.wire.trans hwire⟩

theorem Progress.bind_of_abort {α β : Type} {p : Progress α} {c : Cause} {t : State} (h : p = .abort c t)
    (f : α → State → Progress β) : p.bind f = .abort c t := by rw [h]; rfl

theorem blockAddress_cases (n : Nat) (s : State) :
    (∃ t, blockAddress false n s = .abort .rxTimeout t ∧ t.coll = s.coll) ∨
    (∃ sel trk t, blockAddress false n s = .done () t ∧ Addressed n sel trk s t) := by
  have hreceives : ¬false = true := by decide
  rcases recvArg_cases s with ⟨sel, b, e, hwire⟩ | ⟨b, e, -⟩
  · rcases recvArg_cases { s with
        bus := b
        crc := crcFold s.crc sel
        latch := { s.latch with sel := sel, drive := selDrive sel, sector := selSector s.cfg.secw n sel } } with
      ⟨trk, b', e', hwire'⟩ | ⟨b', e', -⟩
    · refine .inr ⟨sel, trk, _, (if_neg hreceives).trans
        ((Progress.bind_of_done e _).trans (Progress.bind_of_done e' _)), rfl, rfl, rfl, rfl, ?_⟩
      rw [← hwire, ← hwire']
    · exact .inl ⟨_, (if_neg hreceives).trans ((Progress.bind_of_done e _).trans (Progress.bind_of_abort e' _)), rfl⟩
  · exact .inl ⟨_, (if_neg hreceives).trans (Progress.bind_of_abort e _), rfl⟩

/-- However a block command with address bytes ends, the collaborators are as before, or they are those of one storage
step at the address received. -/
theorem blockIO_stores (f : KindFlags) (n : Nat) (s : State) : (blockIO f false n s).at.coll = s.coll ∨
    ∃ sel trk v, Addressed n sel trk s v ∧ (blockIO f false n s).at.coll = (blockStorage f n v).coll ∧
      v.bus.wire <:+ (blockIO f false n s).at.bus.wire := by
  cases hargs : argCheckFails f n with
  | true => exact .inl (by rw [blockIO_of_argCheckFails hargs, Progress.at_abort])
  | false =>
    rw [blockIO_of_argsOk hargs]
    rcases blockAddress_cases n (s.setKind f false n) with ⟨t, e, hcoll⟩ | ⟨sel, trk, t, e, haddr⟩
    · exact .inl (by rw [e]; exact hcoll)
    · rw [e, Progress.bind_done, ← Progress.bind_assoc]
      have hin := (blockPayload_received f n t).bind fun _ u => closeOut_received u
      rcases hp : (blockPayload f n t).bind fun _ u => closeOut u with ⟨⟨⟩, v⟩ | ⟨c, v⟩ <;> rw [hp] at hin
      · obtain ⟨hcoll, hdrive, hsector, htrack, hwire⟩ := haddr.received hin
        refine .inr ⟨sel, trk, v, ⟨hcoll, hdrive, hsector, htrack, hwire⟩, (blockReply_keeps f n _).coll, ?_⟩
        exact blockStorage_bus f n v ▸ (blockReply_wired f n (blockStorage f n v)).suffix
      · exact .inl (haddr.received hin).coll

@[simp] theorem Progress.leave_coll (p : Progress Unit) : p.leave.coll = p.at.coll := by
  cases p <;> rfl

@[simp] theorem Progress.leave_wire (p : Progress Unit) : p.leave.bus.wire = p.at.bus.wire := by
  cases p <;> rfl

/-- `blockIO_stores` for a whole command. -/
theorem exec_stores {i : Instr} {f : KindFlags} {n : Nat} {s t : State}
    (hx : exec i s = runHandler i (blockIO f false n) s) (h : exec i s = .next t) : t.coll = s.coll ∨
    ∃ (es : List WireEvent) (sel trk : Byte) (v : State), t.bus.wire = es ++ .rx trk :: .rx sel :: s.bus.wire ∧
      Addressed n sel trk (s.dispatch i) v ∧ t.coll = (blockStorage f n v).coll := by
  obtain rfl : (blockIO f false n (s.dispatch i)).leave = t := by
    rw [hx] at h
    injection h
  rw [Progress.leave_coll, Progress.leave_wire]
  refine (blockIO_stores f n (s.dispatch i)).imp id ?_
  rintro ⟨sel, trk, v, haddr, hcoll, hwire⟩
  obtain ⟨es, hes⟩ := haddr.wire.trans hwire
  exact ⟨es, sel, trk, v, hes.symm, haddr, hcoll⟩

section
variable {sel trk : Byte} {s v : State}

theorem Addressed.write_outside {n : Nat} (h : Addressed n sel trk s v) (hn : n ≤ 512) :
    keepsOutside s.coll (blockStorage .write n v).coll (selDrive sel)
      (sectorOffset trk (selSector s.cfg.secw n sel).toNat) n := by
  have hlen := State.length_bufTake v hn
  obtain ⟨l, e, -⟩ := blockStorage_write (s := v) rfl hlen
  have hout := (writeColl_outside v.coll v.latch.drive (byteOffset .write v.latch.track v.latch.sector) (v.bufTake n)).1
  rw [hlen] at hout
  rw [e, ← h.coll, ← h.drive, ← h.sector, ← h.track]
  exact hout

theorem Addressed.format_outside {n : Nat} (h : Addressed n sel trk s v) :
    keepsOutsideFlushed s.coll (blockStorage .format n v).coll (selDrive sel) (trk.toNat * 4608) 4608 := by
  obtain ⟨l, e, -⟩ := blockStorage_format v n
  rw [e, ← h.coll, ← h.drive, ← h.track]
  exact formatColl_outside v.coll v.latch.drive (byteOffset .format v.latch.track v.latch.sector)

end

/-- Settles O55: only the storage step changes the collaborators, and it runs at the address received first. -/
theorem storesOnlyWhereAddressed : Obligations.StoresOnlyWhereAddressed := by
  rintro i s t h (rfl | rfl | rfl)
  · refine (exec_stores rfl h).imp id ?_
    rintro ⟨es, sel, trk, v, hwire, haddr, hcoll⟩
    refine ⟨es, sel, trk, hwire, fun _ => ?_, nofun, nofun⟩
    rw [hcoll, ← selSector_128 s.cfg.secw]
    exact haddr.write_outside (by decide)
  · refine (exec_stores rfl h).imp id ?_
    rintro ⟨es, sel, trk, v, hwire, haddr, hcoll⟩
    refine ⟨es, sel, trk, hwire, nofun, fun _ hsecw => ?_, nofun⟩
    rw [hcoll, ← selSector_other (n := 512) hsecw (by decide)]
    exact haddr.write_outside (by decide)
  · refine (exec_stores rfl h).imp id ?_
    rintro ⟨es, sel, trk, v, hwire, haddr, hcoll⟩
    exact ⟨es, sel, trk, hwire, nofun, nofun, fun _ => hcoll ▸ haddr.format_outside⟩

end Sys2Proof.Machine

/-! PROOFS. Change drive (O37) and the legacy commands: with a host that keeps up (O38), and what they send with any
host (O39). -/

namespace Sys2Proof.Machine

/-! ## Change drive (R211) -/

/-- The index byte at face value: only 0 to 3 name a slot (R94). -/
theorem chdrvResult_eq (c : Coll) (drv : Byte) : chdrvResult c drv =
    if h : drv.toNat < 4 then (if (c.slot ⟨drv.toNat, h⟩).isOpen then RC_OK else RC_INVDRV) else RC_INVDRV := by
  unfold chdrvResult driveIndex
  by_cases h : drv.toNat < 4
  · rw [dif_pos h, dif_pos h]
  · rw [dif_neg h, dif_neg h]

/-- `CHDRV` served in full, from the opcode in `crc` (R211). -/
theorem chdrvHandler_served {s : State} {drv ck : Byte} {h' : List Sample} (hck : crcFold (crcFold s.crc drv) ck = 0)
    (hs : serves s.cfg.tXfer [drv, ck] 2 s.bus.host h') :
    ∃ t, chdrvHandler s = .done () t ∧ t.bus.host = h' ∧
      t.bus.wire = transcript [drv, ck] [s.cfg.bAck, chdrvResult s.coll drv] ++ s.bus.wire := by
  obtain ⟨m, hoffer, htake⟩ := hs
  obtain ⟨b1, b2, hrecv, hclose, htake2, hwire2⟩ := arg_close_served hoffer hck htake
  obtain ⟨b3, hsend, htake3, hwire3, -⟩ :=
    send_served (s := ({ s with bus := b2, crc := 0 } : State).setResult (chdrvResult s.coll drv))
      (chdrvResult s.coll drv) htake2
  have hrun : chdrvHandler s = _ := (Progress.bind_of_done hrecv _).trans
    ((Progress.bind_of_done hclose _).trans (congrArg (fun sent => Progress.done () sent.2) hsend))
  exact ⟨_, hrun, takes_zero htake3, hwire3.trans (congrArg _ hwire2)⟩

/-- Settles O37: one operand byte, the close-out and the result byte, which are transfers only. -/
theorem chdrvAnswersWhetherOpen : Obligations.ChdrvAnswersWhetherOpen := by
  intro s drv h' ins r hserve
  have hr : chdrvResult s.coll drv = r := chdrvResult_eq s.coll drv
  obtain ⟨t, hrun, hhost, hwire⟩ :=
    chdrvHandler_served (s := s.dispatch .chdrv) (xor_close1 s.cfg.opChdrv drv) hserve
  rw [← hr]
  exact Completes.quiet rfl hrun (chdrvHandler_keeps _) hwire hhost

/-! ## The legacy commands with a host that keeps up (R212 to R218) -/

/-- Every command with a legacy row runs `Legacy` on that row. -/
theorem exec_legacy {i : Instr} {s : State} {row : LegRow} (h : legacyRow s.cfg i = some row) :
    exec i s = runHandler i (legacyHandler row) s := by
  cases i with
  | ramrd | ramwr | ramex | spd0 => cases h; rfl
  | spd1 k =>
    have hrow : spdRow s.cfg k = row := by
      cases k with
      | zero => cases h; rfl
      | succ k => exact (List.getD_eq_getElem?_getD ..).trans (congrArg (·.getD s.cfg.spd1) h)
    subst hrow
    rfl
  | _ => cases h

/-- `Legacy` served in full, from the opcode in `crc` (R212). -/
theorem legacyHandler_served {row : LegRow} {s : State} {op : Byte} {args : List Byte} {h' : List Sample}
    (hargs : args.length = row.args) (hop : s.crc = op)
    (hs : serves s.cfg.tXfer (args ++ [checksum (op :: args)]) (1 + row.zeros) s.bus.host h') :
    ∃ b, legacyHandler row s = .done () { s with bus := b, crc := 0 } ∧ b.host = h' ∧
      b.wire = transcript (args ++ [checksum (op :: args)]) (s.cfg.bAck :: List.replicate row.zeros 0) ++ s.bus.wire := by
  obtain ⟨m, hoffer, htake⟩ := hs
  subst hop
  obtain ⟨b1, hskip, hoffer1, hwire1, -⟩ := recvSkip_served args [checksum (s.crc :: args)] s hoffer
  obtain ⟨b2, hclose, htake2, hwire2, -⟩ := closeOut_served (s := { s with bus := b1, crc := crcFoldAll s.crc args })
    hoffer1 (Nat.add_comm 1 _ ▸ htake) (close_checksum s.crc args)
  obtain ⟨b3, hzeros, htake3, hwire3, -⟩ := sendZeros_served row.zeros 0 { s with bus := b2, crc := 0 } htake2
  refine ⟨b3, ?_, takes_zero htake3, ?_⟩
  · rw [hargs] at hskip
    exact (Progress.bind_of_done hskip _).trans ((Progress.bind_of_done hclose _).trans hzeros)
  · rw [hwire3, hwire2, hwire1]
    simp [transcript]

/-- Settles O38: every row runs `Legacy`, whose parts are transfers only. -/
theorem legacyCommandsAreInert : Obligations.LegacyCommandsAreInert := by
  intro i s row args h' hrow hargs ins hserve
  obtain ⟨b, hrun, hhost, hwire⟩ := legacyHandler_served (s := s.dispatch i) hargs rfl hserve
  exact Completes.quiet (exec_legacy hrow) hrun (legacyHandler_keeps row _) hwire hhost

/-! ## What a legacy command sends with any host (R219) -/

/-- A byte sent is `B_ACK` or zero. -/
def AckOrZero (c : Config) (e : WireEvent) : Prop := ∀ v taken, e = .tx v taken → v = c.bAck ∨ v = 0

/-- Either `Legacy` aborts on a byte that did not come or on its checksum, or it sent `B_ACK` and zeros at most. -/
theorem legacyHandler_ackOrZero (row : LegRow) (s : State) :
    (∃ c t, legacyHandler row s = .abort c t ∧ (c = .rxTimeout ∨ c = .crcMismatch)) ∨
    Wired (AckOrZero s.cfg) s (legacyHandler row s).at := by
  have hrx : ∀ v, AckOrZero s.cfg (.rx v) := fun v => nofun
  have hack : ∀ taken, AckOrZero s.cfg (.tx s.cfg.bAck taken) := fun _ _ _ h => by cases h; exact .inl rfl
  have hzero : ∀ taken, AckOrZero s.cfg (.tx 0 taken) := fun _ _ _ h => by cases h; exact .inr rfl
  have hskip := recvSkip_wired hrx nofun row.args s
  have hcfg : (recvSkip row.args s).at.cfg = s.cfg := (recvSkip_keeps row.args s).cfg
  unfold legacyHandler
  rcases hp : recvSkip row.args s with ⟨⟨⟩, t⟩ | ⟨c, t⟩ <;> rw [hp] at hskip hcfg
  · rcases closeOut_wired_cases t hrx (congrArg Config.bAck hcfg ▸ hack) with ⟨u, hclose, hclosed⟩ | ⟨c, u, hclose, hc, -⟩
    · rw [Progress.bind_done, Progress.bind_of_done hclose]
      exact .inr ((hskip.trans hclosed).trans (sendZeros_wired hzero row.zeros u))
    · exact .inl ⟨c, u, Progress.bind_of_abort hclose _, hc⟩
  · exact .inr hskip

/-- Settles O39: the two causes of `legacyHandler_ackOrZero` are excluded, and the events are those the run added. -/
theorem legacyNakDiscipline : Obligations.LegacyNakDiscipline := by
  intro i s t row es hrow hexec hwire hcrc htimeout v taken hmem
  rw [exec_legacy hrow] at hexec
  injection hexec with hleave
  subst hleave
  rcases legacyHandler_ackOrZero row (s.dispatch i) with ⟨c, u, hrun, rfl | rfl⟩ | hsends
  · rw [hrun] at htimeout
    exact absurd rfl htimeout
  · rw [hrun] at hcrc
    exact absurd rfl hcrc
  · obtain ⟨-, fs, hwire', -, hall⟩ := leave_wired hsends
    obtain rfl : fs = es := List.append_cancel_right (hwire'.symm.trans hwire)
    exact hall _ hmem v taken rfl

end Sys2Proof.Machine

/-! PROOFS. The extended commands: the path helpers (O11), the loop of a listing (O12), the commands that report (O40,
O43, O48), `MOUNT` (O41), `DIR` (O44, O45), `CHDIR` (O46) and `CREATE` (O47) with a host that keeps up, and which commands
move the working directory (O52) and the cursor (O53). -/

namespace Sys2Proof.Machine

/-! ## Path helpers (R233) -/

theorem lastIndex_of_not_mem {b : Byte} : ∀ {p : Path}, b ∉ p → lastIndex [b] p = none
  | [], _ => rfl
  | a :: p, h => by
    obtain ⟨hab, hp⟩ := not_or.1 (mt List.mem_cons.2 h)
    simp [lastIndex, lastIndex_of_not_mem hp, List.isPrefixOf, hab]

/-- The last separator of a path is the one before its last name. -/
theorem lastIndex_append {b : Byte} {p : Path} (h : b ∉ p) : ∀ c : Path, lastIndex [b] (c ++ b :: p) = some c.length
  | [] => by simp [lastIndex, lastIndex_of_not_mem h, List.isPrefixOf]
  | a :: c => by simp [lastIndex, lastIndex_append h c]

/-- Settles O11: at the root the one separator is the root marker itself, elsewhere it is the one `Join` put in. -/
theorem parentUndoesJoin : Obligations.ParentUndoesJoin := by
  intro b c p hc hp
  unfold joinPath
  by_cases hroot : c = [b]
  · have hlast : lastIndex [b] (b :: p) = some 0 := lastIndex_append hp []
    subst hroot
    simp [parentPath, hlast]
  · have hne : c ++ b :: p ≠ [b] := by
      rw [ne_eq, List.append_eq_singleton_iff]
      rintro (⟨hnil, -⟩ | ⟨-, hnil⟩)
      · exact hc hnil
      · cases hnil
    have hpos : ¬c.length < 1 := by simpa [Nat.lt_one_iff] using hc
    simp [parentPath, hroot, hne, lastIndex_append hp c, hpos]

/-! ## The loop of a listing (R245) -/

/-- One turn of the loop: a listed entry ends it, any other is skipped. -/
theorem dirScan_cons (e : Entry) (es : List Entry) :
    (dirScan (e :: es)).1 = if listed e then some (shownName e, es) else (dirScan es).1 := by
  rw [dirScan, listed, shownName]
  cases e.isDir with
  | true => rfl
  | false => cases endsExt e.name <;> rfl

theorem dirScan_none_iff (es : List Entry) : (dirScan es).1 = none ↔ ∀ e ∈ es, listed e = false := by
  induction es with
  | nil => simp [dirScan]
  | cons e es ih =>
    rw [dirScan_cons]
    cases he : listed e with
    | true => simp [he]
    | false => simp [he, ih]

theorem dirScan_some_iff (es : List Entry) (n : Path) (rest : List Entry) :
    (dirScan es).1 = some (n, rest) ↔
      ∃ skipped e, es = skipped ++ e :: rest ∧ (∀ x ∈ skipped, listed x = false) ∧ listed e = true ∧
        n = shownName e := by
  induction es with
  | nil => simp [dirScan]
  | cons e es ih =>
    rw [dirScan_cons]
    cases he : listed e with
    | true =>
      rw [if_pos rfl, Option.some.injEq, Prod.mk.injEq]
      constructor
      · rintro ⟨rfl, rfl⟩
        exact ⟨[], e, rfl, nofun, he, rfl⟩
      · rintro ⟨_ | ⟨y, skipped⟩, x, hes, hskip, -, rfl⟩ <;> cases hes
        · exact ⟨rfl, rfl⟩
        · rw [hskip e List.mem_cons_self] at he
          cases he
    | false =>
      rw [if_neg Bool.false_ne_true, ih]
      constructor
      · rintro ⟨skipped, x, rfl, hskip, hx⟩
        exact ⟨e :: skipped, x, rfl, List.forall_mem_cons.2 ⟨he, hskip⟩, hx⟩
      · rintro ⟨_ | ⟨y, skipped⟩, x, hes, hskip, hx, hn⟩ <;> cases hes
        · rw [hx] at he
          cases he
        · exact ⟨skipped, x, rfl, (List.forall_mem_cons.1 hskip).2, hx, hn⟩

/-- Settles O12: `dirScan_none_iff` and `dirScan_some_iff` together. -/
theorem listingFindsNextEntry : Obligations.ListingFindsNextEntry :=
  fun es => ⟨dirScan_none_iff es, dirScan_some_iff es⟩

/-! ## Commands that report (R236, R241, R253) -/

theorem driveIndex_of_lt {drv : Byte} (h : drv.toNat < 4) : driveIndex drv = some ⟨drv.toNat, h⟩ := dif_pos h

theorem driveIndex_of_ge {drv : Byte} (h : ¬drv.toNat < 4) : driveIndex drv = none := dif_neg h

/-- What `GETPATH` sends after `B_ACK`. -/
def getpathReply (root : Path) (c : Coll) (drv : Byte) : List Byte :=
  match driveIndex drv with
  | none => [RC_INVDRV]
  | some d => RC_OK :: framed (getpathPayload root (c.slot d))

/-- The reply in the words of R236. -/
theorem getpathReply_eq (root : Path) (c : Coll) (drv : Byte) :
    let path := fun x : Slot => (relPath root x.path).take 63
    getpathReply root c drv = if h : drv.toNat < 4 then
        (let x := c.slot ⟨drv.toNat, h⟩
         RC_OK :: framed (if x.isOpen then (if x.writable then 0 else 1) :: BitVec.ofNat 8 (path x).length :: path x
           else [0, 0]))
      else [RC_INVDRV] := by
  intro path
  unfold getpathReply
  by_cases h : drv.toNat < 4
  · rw [driveIndex_of_lt h, dif_pos h]
    rfl
  · rw [driveIndex_of_ge h, dif_neg h]

/-- `GETPATH` served in full, from the opcode in `crc` (R236). -/
theorem getpathHandler_served {s : State} {drv ck : Byte} {h' : List Sample}
    (hck : crcFold (crcFold s.crc drv) ck = 0)
    (hs : serves s.cfg.tXfer [drv, ck] (1 + (getpathReply s.cfg.root s.coll drv).length) s.bus.host h') :
    ∃ t, getpathHandler s = .done () t ∧ t.bus.host = h' ∧
      t.bus.wire = transcript [drv, ck] (s.cfg.bAck :: getpathReply s.cfg.root s.coll drv) ++ s.bus.wire := by
  obtain ⟨m, hoffer, htake⟩ := hs
  obtain ⟨b1, b2, hrecv, hclose, htake2, hwire2⟩ := arg_close_served hoffer hck (Nat.add_comm 1 _ ▸ htake)
  have hrun : getpathHandler s = _ := (Progress.bind_of_done hrecv _).trans (Progress.bind_of_done hclose _)
  rw [hrun]
  unfold getpathReply at htake2 ⊢
  cases hd : driveIndex drv with
  | none =>
    rw [hd] at htake2
    obtain ⟨b3, hsend, htake3, hwire3, -⟩ := sendResult_served (s := { s with bus := b2, crc := 0 }) RC_INVDRV htake2
    exact ⟨_, hsend, takes_zero htake3, hwire3.trans (congrArg _ hwire2)⟩
  | some d =>
    rw [hd] at htake2
    have hlen := getpathPayload_length s.cfg.root (s.coll.slot d)
    obtain ⟨b3, hsend, htake3, hwire3, -⟩ := sendResult_served (s := { s with bus := b2, crc := 0 }) RC_OK htake2
    obtain ⟨b4, f, hpay, htake4, hwire4, -⟩ := sendFramed_served (m := 0)
      (v := getpathPayload s.cfg.root (s.coll.slot d))
      (s := { s with bus := b3, crc := 0, latch := { s.latch with result := RC_OK } })
      (by omega) (by simpa [framed] using htake3)
    refine ⟨_, (Progress.bind_of_done hsend _).trans hpay, takes_zero htake4, ?_⟩
    rw [hwire4, hwire3, hwire2]
    simp [transcript]

/-- Settles O40: `GETPATH` is transfers only, and its reply is read off the slot. -/
theorem getpathReportsSlot : Obligations.GetpathReportsSlot := by
  intro s drv h' ins path reply hserve
  have hreply : getpathReply s.cfg.root s.coll drv = reply := getpathReply_eq s.cfg.root s.coll drv
  rw [← hreply] at hserve ⊢
  obtain ⟨t, hrun, hhost, hwire⟩ :=
    getpathHandler_served (s := s.dispatch .getpath) (xor_close1 s.cfg.opGetpath drv) hserve
  exact Completes.quiet rfl hrun (getpathHandler_keeps _) hwire hhost

theorem relPath_of_prefix {root p : Path} (h : root <+: p) : relPath root p = p.drop root.length :=
  if_pos (List.isPrefixOf_iff_prefix.2 h)

/-- Under a valid configuration the root marker takes at least one of the 64 bytes (R27). -/
theorem cwd_drop_root_length {s : State} (hc : s.cfg.Valid) (hcwd : s.CwdOk) :
    (s.cwd.drop s.cfg.root.length).length ≤ 63 := by
  obtain ⟨-, -, -, -, -, -, -, -, hroot, -⟩ := hc
  have hcap : s.cwd.length ≤ 64 := hcwd.2
  have hpos := List.length_pos_of_ne_nil hroot
  rw [List.length_drop]
  omega

/-- `GETCWD` served in full, from the opcode in `crc` (R241). -/
theorem getcwdHandler_served {s : State} {ck : Byte} {p : Path} {h' : List Sample} (hck : crcFold s.crc ck = 0)
    (hp : relPath s.cfg.root s.cwd = p) (hlen : p.length ≤ 63)
    (hs : serves s.cfg.tXfer [ck] (3 + p.length) s.bus.host h') :
    ∃ t, getcwdHandler s = .done () t ∧ t.bus.host = h' ∧
      t.bus.wire = transcript [ck] (s.cfg.bAck :: framed (lenPrefixed p)) ++ s.bus.wire := by
  obtain ⟨m, hoffer, htake⟩ := hs
  obtain ⟨b1, hclose, htake1, hwire1, -⟩ := closeOut_served (n := p.length + 2) hoffer
    (by rwa [show p.length + 2 + 1 = 3 + p.length by omega]) hck
  obtain ⟨b2, f, hpay, htake2, hwire2, -⟩ := sendFramed_served (m := 0) (v := lenPrefixed p)
    (s := { s with bus := b1, crc := 0 }) (by simp only [lenPrefixed, List.length_cons]; omega) htake1
  subst hp
  refine ⟨_, (Progress.bind_of_done hclose _).trans hpay, takes_zero htake2, ?_⟩
  rw [hwire2, hwire1]
  simp [transcript]

/-- Settles O43: `GETCWD` is transfers only, and `cwd` opens with the root marker. -/
theorem getcwdReportsDirectory : Obligations.GetcwdReportsDirectory := by
  intro s h' hc hcwd p
  have hlen : p.length ≤ 63 := cwd_drop_root_length hc hcwd
  refine ⟨hlen, fun hserve => ?_⟩
  obtain ⟨t, hrun, hhost, hwire⟩ := getcwdHandler_served (s := s.dispatch .getcwd) (crcFold_self s.cfg.opGetcwd)
    (relPath_of_prefix hcwd.1) hlen hserve
  exact Completes.quiet rfl hrun (getcwdHandler_keeps _) hwire hhost

/-- The record in the words of R253: zeros for a closed slot and for an index above 3 alike. -/
theorem infoRecord_eq (cfg : Config) (c : Coll) (drv : Byte) :
    let isOpen := if h : drv.toNat < 4 then (c.slot ⟨drv.toNat, h⟩).isOpen else false
    infoRecord cfg c drv = if isOpen then [80, 36, cfg.geomPsize] else [0, 0, 0] := by
  intro isOpen
  unfold infoRecord
  by_cases h : drv.toNat < 4
  · rw [driveIndex_of_lt h, show isOpen = _ from dif_pos h]
    rfl
  · rw [driveIndex_of_ge h, show isOpen = _ from dif_neg h]
    rfl

theorem infoRecord_length (cfg : Config) (c : Coll) (drv : Byte) : (infoRecord cfg c drv).length = 3 := by
  unfold infoRecord
  split
  · split <;> rfl
  · rfl

/-- `INFO` served in full, from the opcode in `crc` (R253). -/
theorem infoHandler_served {s : State} {drv ck : Byte} {h' : List Sample} (hck : crcFold (crcFold s.crc drv) ck = 0)
    (hs : serves s.cfg.tXfer [drv, ck] 5 s.bus.host h') :
    ∃ t, infoHandler s = .done () t ∧ t.bus.host = h' ∧
      t.bus.wire = transcript [drv, ck] (s.cfg.bAck :: framed (infoRecord s.cfg s.coll drv)) ++ s.bus.wire := by
  obtain ⟨m, hoffer, htake⟩ := hs
  obtain ⟨b1, b2, hrecv, hclose, htake2, hwire2⟩ := arg_close_served hoffer hck htake
  have hlen := infoRecord_length s.cfg s.coll drv
  obtain ⟨b3, f, hpay, htake3, hwire3, -⟩ := sendFramed_served (m := 0) (v := infoRecord s.cfg s.coll drv)
    (s := { s with bus := b2, crc := 0 }) (by omega) (by rwa [hlen])
  have hrun : infoHandler s = _ :=
    (Progress.bind_of_done hrecv _).trans ((Progress.bind_of_done hclose _).trans hpay)
  refine ⟨_, hrun, takes_zero htake3, ?_⟩
  rw [hwire3, hwire2]
  simp [transcript]

/-- Settles O48: `INFO` is transfers only, and its record is read off the slot. -/
theorem infoReportsGeometry : Obligations.InfoReportsGeometry := by
  intro s drv h' ins isOpen record hserve
  have hrecord : infoRecord s.cfg s.coll drv = record := infoRecord_eq s.cfg s.coll drv
  rw [← hrecord]
  obtain ⟨t, hrun, hhost, hwire⟩ := infoHandler_served (s := s.dispatch .info) (xor_close1 s.cfg.opInfo drv) hserve
  exact Completes.quiet rfl hrun (infoHandler_keeps _) hwire hhost

/-! ## Mount (R238) -/

/-- The result byte and the collaborators of `MOUNT` in the words of R238. -/
theorem mountAct_eq (s : State) (drv ro len : Byte) (p : Path) :
    let joined := joinPath s.cfg.root s.cfg.sep s.cwd p
    mountAct s drv ro len p = if h : drv.toNat < 4 then
        (let d : Fin 4 := ⟨drv.toNat, h⟩
         let c := s.coll.unmount d
         if len = 0 then (RC_OK, c)
         else if len = 0xFF then c.mount s.cfg d (s.coll.slot d).path (ro != 0)
         else if 255 < joined.length then (RC_NOPATH, c)
         else c.mount s.cfg d joined (ro != 0))
      else (RC_INVDRV, s.coll) := by
  intro joined
  unfold mountAct
  by_cases h : drv.toNat < 4
  · rw [driveIndex_of_lt h, dif_pos h]
    rfl
  · rw [driveIndex_of_ge h, dif_neg h]

/-- The path bytes of `MOUNT`, none for a length byte of 0 or 0xFF. -/
theorem mountString_served {len : Byte} {p cs : List Byte} {s : State} {h : List Sample}
    (hp : p.length = if len = 0 ∨ len = 0xFF then 0 else len.toNat)
    (ho : offers s.cfg.tXfer (p ++ cs) s.bus.host = some h) :
    ∃ b f, mountString len s = .done p { s with bus := b, crc := crcFoldAll s.crc p, buf := f } ∧
      offers s.cfg.tXfer cs b.host = some h ∧ b.wire = (p.map WireEvent.rx).reverse ++ s.bus.wire := by
  by_cases hlen : len = 0 ∨ len = 0xFF
  · rw [if_pos hlen, List.length_eq_zero_iff] at hp
    subst hp
    exact ⟨s.bus, s.buf, if_pos hlen, ho, rfl⟩
  · rw [if_neg hlen] at hp
    have hcap : p.length ≤ 512 := by omega
    obtain ⟨b, hrecv, hoffer, hwire⟩ := recvStr_served hcap ho
    rw [hp] at hrecv
    exact ⟨b, _, (if_neg hlen).trans hrecv, hoffer, hwire⟩

/-- `MOUNT` served up to its result byte (R238). -/
theorem mount_reaches {s : State} {drv ro len : Byte} {p : Path} {k : Nat} {h' : List Sample}
    (hp : p.length = if len = 0 ∨ len = 0xFF then 0 else len.toNat) :
    let ins := drv :: ro :: len :: (p ++ [checksum (s.cfg.opMount :: drv :: ro :: len :: p)])
    serves s.cfg.tXfer ins (k + 1) s.bus.host h' →
    Reaches .mount s ins (mountAct s drv ro len p).1 k h' fun t =>
      keepsPlace s t ∧ t.coll = (mountAct s drv ro len p).2 := by
  rintro ins ⟨m, hoffer, htake⟩
  obtain ⟨b1, hdrv, hoffer1, hwire1, -⟩ := recvArg_served (s := s.dispatch .mount) hoffer
  obtain ⟨b2, hro, hoffer2, hwire2, -⟩ :=
    recvArg_served (s := { s.dispatch .mount with bus := b1, crc := crcFold s.cfg.opMount drv }) hoffer1
  obtain ⟨b3, hlen, hoffer3, hwire3, -⟩ :=
    recvArg_served (s := { s.dispatch .mount with
      bus := b2, crc := crcFold (crcFold s.cfg.opMount drv) ro }) hoffer2
  obtain ⟨b4, f, hstr, hoffer4, hwire4⟩ :=
    mountString_served (s := { s.dispatch .mount with
      bus := b3, crc := crcFold (crcFold (crcFold s.cfg.opMount drv) ro) len }) hp hoffer3
  obtain ⟨b5, hclose, htake5, hwire5, -⟩ :=
    closeOut_served (s := { s.dispatch .mount with
      bus := b4, crc := crcFoldAll s.cfg.opMount (drv :: ro :: len :: p), buf := f }) hoffer4 htake
      (close_checksum _ _)
  have hrun : mountHandler (s.dispatch .mount) = _ :=
    (Progress.bind_of_done hdrv _).trans ((Progress.bind_of_done hro _).trans ((Progress.bind_of_done hlen _).trans
      ((Progress.bind_of_done hstr _).trans (Progress.bind_of_done hclose _))))
  refine ⟨mountHandler, _, rfl, hrun, htake5, ?_, rfl, rfl, rfl, fun v hcwd hcur hcoll => ⟨⟨hcwd, hcur⟩, hcoll⟩⟩
  simp [hwire5, hwire4, hwire3, hwire2, hwire1, transcript, ins]

/-- Settles O41: `MOUNT` served up to its result byte, and then either way that byte goes. -/
theorem mountUnmountsThenMounts : Obligations.MountUnmountsThenMounts := by
  intro s drv ro len p hp ins joined act P
  have hact : mountAct s drv ro len p = act := mountAct_eq s drv ro len p
  refine Reaches.completes_or_stops fun k h' hserve => ?_
  have hreach := mount_reaches hp hserve
  rwa [hact] at hreach

/-! ## Listings (R243 to R245) -/

/-- Both clauses of the statements about `DIR`, from what its action answers and leaves. -/
theorem listing_completes_or_stops {s : State} {flag : Byte} {name n : Path} {P : State → Prop}
    (hn : name = trunc63 n)
    (hu : ∀ b, ∃ u,
        (if flag = 0 then dirReset { s.dispatch .dir with bus := b, crc := 0 }
          else dirAdvance { s.dispatch .dir with bus := b, crc := 0 }) = (n, u) ∧
      u.bus = b ∧ u.link = s.link ∧ u.cfg = s.cfg ∧ u.between = s.between ∧
      ∀ v : State, v.cwd = u.cwd → v.dircur = u.dircur → v.coll = u.coll → P v) :
    (∀ h', serves s.cfg.tXfer [flag, s.cfg.opDir ^^^ flag] (3 + name.length) s.bus.host h' →
      Completes .dir s [flag, s.cfg.opDir ^^^ flag] (s.cfg.bAck :: framed (BitVec.ofNat 8 name.length :: name)) h' P) ∧
    (servesOnly s.cfg.tXfer [flag, s.cfg.opDir ^^^ flag] 1 s.bus.host →
      StopsAt .dir s [flag, s.cfg.opDir ^^^ flag] [s.cfg.bAck] (BitVec.ofNat 8 name.length) P) :=
  ⟨fun _ hs => Completes.listing hs hn hu, fun hs => StopsAt.listing hs hn hu⟩

/-- The collaborators once the cursor, if there is one, is closed (R244). -/
def closedColl (s : State) : Coll :=
  match s.dircur with
  | some h => s.coll.dirClose h
  | none => s.coll

theorem closedColl_keeps (s : State) : keepsTables s.coll (closedColl s) ∧
    (closedColl s).openAnswer = s.coll.openAnswer ∧ (closedColl s).nextHandle = s.coll.nextHandle := by
  unfold closedColl
  cases s.dircur <;> exact ⟨⟨rfl, rfl⟩, rfl, rfl⟩

/-- The next handle is none of the open ones (R28, R29). -/
theorem State.CursorOk.handle_ne_next {s : State} (h : s.CursorOk) {o : OpenDir} (ho : o ∈ s.coll.dirs) :
    o.handle ≠ s.coll.nextHandle := by
  obtain ⟨hopen, hnext⟩ := h
  have hmem : o.handle ∈ s.dircur.toList := hopen ▸ List.mem_map_of_mem ho
  exact (hnext _ (Option.mem_toList.1 hmem)).ne

theorem Coll.dirOpen_some {c : Coll} {es : List Entry} (h : c.openAnswer = some es) (p : Path) :
    (c.dirOpen p).1 = some c.nextHandle ∧ (c.dirOpen p).2.dirs = ⟨c.nextHandle, es⟩ :: c.dirs := by
  unfold Coll.dirOpen
  rw [h]
  exact ⟨rfl, rfl⟩

theorem Coll.dirOpen_none {c : Coll} (h : c.openAnswer = none) (p : Path) :
    (c.dirOpen p).1 = none ∧ (c.dirOpen p).2.dirs = c.dirs := by
  unfold Coll.dirOpen
  rw [h]
  exact ⟨rfl, rfl⟩

/-- Settles O44: the cursor is closed and the directory opened before the reply, whatever becomes of it. -/
theorem dirResetStartsListing : Obligations.DirResetStartsListing := by
  intro s ins name c P
  have hname : name = trunc63 (if s.cwd = s.cfg.root then bracketed dotName else bracketed dotDotName) := by
    by_cases h : s.cwd = s.cfg.root
    · rw [if_pos h, show name = _ from if_pos h]
      rfl
    · rw [if_neg h, show name = _ from if_neg h]
      rfl
  have hins : ins = [0, s.cfg.opDir ^^^ 0] := by simp [ins]
  obtain ⟨hclosed, hanswer, hnext⟩ := closedColl_keeps s
  have htables := hclosed.trans (dirOpen_tables (closedColl s) s.cwd)
  rw [hins]
  refine listing_completes_or_stops hname fun b =>
    ⟨_, (if_pos rfl).trans (dirReset_eq _), rfl, rfl, rfl, rfl, fun v hcwd hcur hcoll => ?_⟩
  change v.dircur = ((closedColl s).dirOpen s.cwd).1 at hcur
  change v.coll = ((closedColl s).dirOpen s.cwd).2 at hcoll
  rw [← hcoll] at htables
  refine ⟨hcwd, hcur, hcoll, htables.1, htables.2, fun es hes => ?_, fun hrefused => ?_⟩
  · obtain ⟨hhandle, hdirs⟩ := Coll.dirOpen_some (hanswer.trans hes) s.cwd
    rw [← hcoll] at hdirs
    refine ⟨_, hcur.trans hhandle, Coll.dirEntries_head hdirs, hdirs, fun hok o ho => ?_⟩
    rw [hnext]
    exact hok.handle_ne_next ho
  · obtain ⟨hhandle, hdirs⟩ := Coll.dirOpen_none (hanswer.trans hrefused) s.cwd
    exact ⟨hcur.trans hhandle, hcoll ▸ hdirs⟩

/-- Settles O45: the cursor is moved before the reply, as `dirAdvance_cases` says. -/
theorem dirNextAdvancesListing : Obligations.DirNextAdvancesListing := by
  intro s flag hflag ins found name P
  refine listing_completes_or_stops (n := found.elim [] fun r => r.1) rfl fun b => ?_
  obtain ⟨c, hadvance, hslots, hfiles, hmoved, hended⟩ :=
    dirAdvance_cases { s.dispatch .dir with bus := b, crc := 0 }
  refine ⟨_, (if_neg hflag).trans hadvance, rfl, rfl, rfl, rfl, fun v hcwd hcur hcoll => ?_⟩
  change v.coll = c at hcoll
  subst hcoll
  exact ⟨hcwd, hslots, hfiles, hcur, hmoved, hended⟩

/-! ## Change directory and create (R248, R251) -/

/-- A command of one string, served up to its result byte: from what its action answers and leaves. -/
theorem Reaches.string {i : Instr} {h : State → Progress Unit} {act : Byte → Path → State → Byte × State} {s : State}
    {p : Path} {r : Byte} {k : Nat} {h' : List Sample} {P : State → Prop} (hx : exec i s = runHandler i h s)
    (hh : ∀ u, h u = (recvArg u).bind fun L u => (recvStr L.toNat u).bind fun p u => (closeOut u).bind fun _ u =>
      sendResult (act L p u).1 (act L p u).2)
    (hp : p.length < 256)
    (hact : ∀ b f, ∃ u,
      act (BitVec.ofNat 8 p.length) p { s.dispatch i with bus := b, crc := 0, buf := f } = (r, u) ∧
      u.bus = b ∧ u.link = s.link ∧ u.cfg = s.cfg ∧ u.between = s.between ∧
      ∀ v : State, v.cwd = u.cwd → v.dircur = u.dircur → v.coll = u.coll → P v) :
    let ins := BitVec.ofNat 8 p.length :: (p ++ [checksum (opcodeOf s.cfg i :: BitVec.ofNat 8 p.length :: p)])
    serves s.cfg.tXfer ins (k + 1) s.bus.host h' → Reaches i s ins r k h' P := by
  rintro ins ⟨m, hoffer, htake⟩
  obtain ⟨b1, b2, b3, hlen, hstr, hclose, htake3, hwire3⟩ := str_close_served (s := s.dispatch i)
    (lengthByte_toNat hp) hoffer (close_checksum _ _) htake
  obtain ⟨u, hu, hbus, hlink, hcfg, hbetween, hP⟩ := hact b3 (bufWrite s.buf 0 p)
  have hrun : h (s.dispatch i) = sendResult r u := by
    rw [hh, Progress.bind_of_done hlen, Progress.bind_of_done hstr, Progress.bind_of_done hclose]
    exact congrArg (fun a : Byte × State => sendResult a.1 a.2) hu
  subst hbus
  refine ⟨h, u, hx, hrun, by rwa [hcfg], ?_, hlink, hcfg, hbetween, hP⟩
  simp [hwire3, transcript, ins]

/-- Settles O46: `chdirAct_cases` says what `CHDIR` answers and leaves, whether or not its result byte is taken. -/
theorem chdirMovesOrKeeps : Obligations.ChdirMovesOrKeeps := by
  intro s p hp ins new act P
  refine Reaches.completes_or_stops fun k h' hserve =>
    Reaches.string (h := chdirHandler) (act := chdirAct) rfl (fun _ => rfl) hp (fun b f => ?_) hserve
  obtain ⟨c, hact, hslots, hfiles, hdirs⟩ :=
    chdirAct_cases { s.dispatch .chdir with bus := b, crc := 0, buf := f } p hp
  refine ⟨_, hact, rfl, rfl, rfl, rfl, fun v hcwd hcur hcoll => ?_⟩
  change v.coll = c at hcoll
  subst hcoll
  exact ⟨hcwd, hcur, hslots, hfiles, hdirs⟩

/-- Settles O47: `createAct_cases` says what `CREATE` answers and leaves, whether or not its result byte is taken. -/
theorem createMakesFilledFile : Obligations.CreateMakesFilledFile := by
  intro s p hp ins full asked r P
  refine Reaches.completes_or_stops fun k h' hserve =>
    Reaches.string (h := createHandler)
      (act := fun L p u => ((createAct L p u).1, { u with coll := (createAct L p u).2 }))
      rfl (fun _ => rfl) hp (fun b f => ?_) hserve
  obtain ⟨c, hact, hslots, hdirs, hok, hno⟩ :=
    createAct_cases { s.dispatch .create with bus := b, crc := 0, buf := f } p full r hp rfl rfl
  refine ⟨{ s.dispatch .create with bus := b, crc := 0, buf := f, coll := c }, ?_, rfl, rfl, rfl, rfl,
    fun v hcwd hcur hcoll => ?_⟩
  · rw [hact]
  · change v.coll = c at hcoll
    subst hcoll
    exact ⟨⟨hcwd, hcur⟩, hslots, hdirs, hok, hno⟩

/-! ## What moves the working directory and the cursor (R246, R249) -/

theorem dirReset_cwd (s : State) : (dirReset s).2.cwd = s.cwd := by
  unfold dirReset dirDiscard
  cases s.dircur <;> rfl

theorem dirAdvance_cwd (s : State) : (dirAdvance s).2.cwd = s.cwd := by
  unfold dirAdvance
  split
  · rfl
  · dsimp only
    split <;> rfl

theorem chdirAct_dirs (L : Byte) (p : Path) (s : State) :
    (chdirAct L p s).2.dircur = s.dircur ∧ (chdirAct L p s).2.coll.dirs = s.coll.dirs := by
  unfold chdirAct
  dsimp only
  split_ifs <;> exact ⟨rfl, rfl⟩

/-- `CHDIR` answers OK wherever it moves `cwd` (R249). -/
theorem chdirAct_ok_of_moved {L : Byte} {p : Path} {s : State} (h : (chdirAct L p s).2.cwd ≠ s.cwd) :
    (chdirAct L p s).1 = RC_OK := by
  unfold chdirAct at h ⊢
  dsimp only at h ⊢
  split_ifs at h ⊢
  · exact absurd rfl h
  · rfl
  · rfl
  · exact absurd rfl h
  · rfl
  · exact absurd rfl h

/-- The storage step keeps the working directory, the cursor and the open directories. -/
theorem blockStorage_place (f : KindFlags) (n : Nat) (s : State) : (blockStorage f n s).cwd = s.cwd ∧
    (blockStorage f n s).dircur = s.dircur ∧ (blockStorage f n s).coll.dirs = s.coll.dirs := by
  obtain ⟨c, b, l, e, -, hdirs, -⟩ := blockStorage_shape f n s
  rw [e]
  exact ⟨rfl, rfl, hdirs⟩

/-- The action of every command but `CHDIR` keeps `cwd`, and that of every command but `DIR` the cursor and the open
directories. -/
theorem act_place {i : Instr} {v u : State} (h : actOf i v u) :
    (i ≠ .chdir → u.cwd = v.cwd) ∧ (i ≠ .dir → u.dircur = v.dircur ∧ u.coll.dirs = v.coll.dirs) := by
  have hblock : ∀ f n, u = blockStorage f n v →
      (i ≠ .chdir → u.cwd = v.cwd) ∧ (i ≠ .dir → u.dircur = v.dircur ∧ u.coll.dirs = v.coll.dirs) := by
    rintro f n rfl
    obtain ⟨hcwd, hplace⟩ := blockStorage_place f n v
    exact ⟨fun _ => hcwd, fun _ => hplace⟩
  cases i with
  | boot | lread | pread => exact hblock _ _ h.choose_spec
  | lwrite | pwrite | format => exact hblock _ _ h
  | mount =>
    obtain ⟨drv, ro, L, p, rfl⟩ := h
    exact ⟨fun _ => rfl, fun _ => ⟨rfl, (mountAct_shape v drv ro L p).2.1⟩⟩
  | create =>
    obtain ⟨L, p, rfl⟩ := h
    exact ⟨fun _ => rfl, fun _ => ⟨rfl, (createAct_shape v L p).2.1⟩⟩
  | chdir =>
    obtain ⟨L, p, rfl⟩ := h
    exact ⟨fun hn => absurd rfl hn, fun _ => chdirAct_dirs L p v⟩
  | dir =>
    refine ⟨fun _ => ?_, fun hn => absurd rfl hn⟩
    rcases h with rfl | rfl
    · exact dirReset_cwd v
    · exact dirAdvance_cwd v
  | _ =>
    have ht : Transferred v u := h
    exact ⟨fun _ => ht.cwd, fun _ => ⟨ht.dircur, congrArg Coll.dirs ht.coll⟩⟩

/-- The same of whole commands, however they end. -/
theorem exec_place {i : Instr} {s t : State} (h : exec i s = .next t) :
    (i ≠ .chdir → t.cwd = s.cwd) ∧ (i ≠ .dir → t.dircur = s.dircur ∧ t.coll.dirs = s.coll.dirs) := by
  rcases exec_ends i s t h with
    ⟨-, -, -, hcwd, hcur, hcoll, -⟩ | ⟨c, v, hv, rfl, -⟩ | ⟨v, u, w, how, hv, hact, hw, rfl, -⟩
  · exact ⟨fun _ => hcwd, fun _ => ⟨hcur, congrArg Coll.dirs hcoll⟩⟩
  · exact ⟨fun _ => hv.cwd, fun _ => ⟨hv.dircur, congrArg Coll.dirs hv.coll⟩⟩
  · obtain ⟨hcwd, hplace⟩ := act_place hact
    refine ⟨fun hn => hw.cwd.trans ((hcwd hn).trans hv.cwd), fun hn => ?_⟩
    obtain ⟨hcur, hdirs⟩ := hplace hn
    exact ⟨hw.dircur.trans (hcur.trans hv.dircur),
      (congrArg Coll.dirs hw.coll).trans (hdirs.trans (congrArg Coll.dirs hv.coll))⟩

/-- If a part of a handler moves `cwd`, the last event it leaves on the wire is the result byte OK. -/
def MovesOnOk {α : Type} (s : State) (p : Progress α) : Prop :=
  p.at.cwd ≠ s.cwd → ∃ w taken, p.at.bus.wire = .tx RC_OK taken :: w

/-- Transfers before such a part make no difference. -/
theorem MovesOnOk.after {α β : Type} {s : State} {p : Progress α} {f : α → State → Progress β}
    (hp : Transferred s p.at) (hf : ∀ a t, MovesOnOk t (f a t)) : MovesOnOk s (p.bind f) := by
  cases p with
  | done a t => exact fun hmoved => hf a t (fun h => hmoved (h.trans hp.cwd))
  | abort c t => exact fun hmoved => absurd hp.cwd hmoved

theorem sendResult_wire (r : Byte) (s : State) :
    ∃ taken, (sendResult r s).at.bus.wire = .tx r taken :: s.bus.wire := by
  have hsent := State.send_wire (s.setResult r) r (s.setResult r).cfg.tXfer
  unfold sendResult sendByte
  rcases hsend : (s.setResult r).send r (s.setResult r).cfg.tXfer with ⟨taken, t⟩
  rw [hsend] at hsent
  cases taken <;> exact ⟨_, hsent⟩

theorem chdirHandler_movesOnOk (s : State) : MovesOnOk s (chdirHandler s) :=
  .after (recvArg_keeps s) fun L t => .after (recvStr_keeps _ t) fun p u =>
    .after (closeOut_keeps u) fun _ v hmoved => by
    have hok : (chdirAct L p v).1 = RC_OK :=
      chdirAct_ok_of_moved fun h => hmoved ((sendResult_keeps _ _).cwd.trans h)
    obtain ⟨taken, hwire⟩ := sendResult_wire (chdirAct L p v).1 (chdirAct L p v).2
    exact ⟨_, taken, hwire.trans (congrArg (WireEvent.tx · taken :: _) hok)⟩

/-- Leaving a handler keeps `cwd` and the record of the wire. -/
theorem Progress.leave_cwd_wire (p : Progress Unit) : p.leave.cwd = p.at.cwd ∧ p.leave.bus.wire = p.at.bus.wire := by
  cases p <;> exact ⟨rfl, rfl⟩

/-- A command that moves `cwd` is `CHDIR`, and it sent OK last (R249). -/
theorem exec_moves_cwd {i : Instr} {s t : State} (h : exec i s = .next t) (hmoved : t.cwd ≠ s.cwd) :
    i = .chdir ∧ ∃ w taken, t.bus.wire = .tx RC_OK taken :: w := by
  obtain rfl : i = .chdir := by_contra fun hn => hmoved ((exec_place h).1 hn)
  cases h
  obtain ⟨hcwd, hwire⟩ := (chdirHandler (s.dispatch .chdir)).leave_cwd_wire
  rw [hwire]
  exact ⟨rfl, chdirHandler_movesOnOk (s.dispatch .chdir) fun hk => hmoved (hcwd.trans hk)⟩

/-- A poll that runs no command keeps the working directory, the cursor and which directories are open. -/
theorem step_place {s t : State} (h : step s = .next t) :
    (t.cwd = s.cwd ∧ t.dircur = s.dircur ∧ t.coll.dirs.map (·.handle) = s.coll.dirs.map (·.handle)) ∨
    (s.link = true ∧ ∃ op, s.fetched.1 = some op ∧ exec (decodeByte s.cfg op) s.fetched.2 = .next t) := by
  have henv := envStep_keeps s
  obtain ⟨hcfg, -, hcwd, hcur⟩ := fetched_keeps s
  rcases step_cases s (step_idle h) with ⟨-, e⟩ | ⟨-, -, e⟩ | ⟨hup, op, hop, e⟩ <;> rw [e] at h
  · cases h
    obtain ⟨hcwd, hcur, hcoll⟩ := presenceExchange_keeps s.envStep
    exact .inl ⟨hcwd.trans henv.cwd, hcur.trans henv.dircur, by rw [hcoll, henv.handles]⟩
  · cases h
    refine .inl ⟨hcwd, hcur, ?_⟩
    show s.fetched.2.coll.dirs.map _ = _
    rw [fetched_coll, henv.handles]
  · rw [hcfg] at h
    exact .inr ⟨henv.link.symm.trans hup, op, hop, h⟩

/-- Settles O52: `exec_moves_cwd` for the command of the poll, `envStep_keeps` for what comes before it. -/
theorem onlyChdirChangesCwd : Obligations.OnlyChdirChangesCwd := by
  refine ⟨fun i s t => exec_moves_cwd, fun s => ?_, fun s t h hmoved => ?_⟩
  · have henv := envStep_keeps s
    exact ⟨henv.cfg, henv.link, henv.cwd, henv.dircur, henv.wire⟩
  · obtain ⟨-, -, hcwd, -⟩ := fetched_keeps s
    rcases step_place h with ⟨hsame, -⟩ | ⟨hup, op, hop, hexec⟩
    · exact absurd hsame hmoved
    · obtain ⟨hchdir, w, taken, hwire⟩ := exec_moves_cwd hexec (hcwd ▸ hmoved)
      exact ⟨hup, op, w, taken, hop, hchdir, hwire⟩

/-- Settles O53: `exec_place` for the command of the poll, and the environment keeps cursor and handles. -/
theorem onlyDirMovesCursor : Obligations.OnlyDirMovesCursor := by
  refine ⟨fun i s t h => (exec_place h).2, fun s t h hmoved => ?_⟩
  obtain ⟨-, -, -, hcur⟩ := fetched_keeps s
  rcases step_place h with ⟨-, hkept, hhandles⟩ | ⟨hup, op, hop, hexec⟩
  · exact absurd hmoved (by simp [hkept, hhandles])
  · refine ⟨hup, op, hop, by_contra fun hn => ?_⟩
    obtain ⟨hkept, hdirs⟩ := (exec_place hexec).2 hn
    rw [hkept, hdirs, hcur, fetched_coll, (envStep_keeps s).handles] at hmoved
    exact hmoved.elim (· rfl) (· rfl)

end Sys2Proof.Machine

/-! PROOFS. Failures: what brings the link up and down (O24), the abort entry (O49), aborts that leave no trace (O50) and
what the host sees last of an aborted command (O51). -/

namespace Sys2Proof.Machine

/-! ## Link up and link down (R152, R153, R275) -/

/-- A host that takes the idle byte and echoes it in time brings the link up, with `poll` returning false (R152). -/
theorem presenceExchange_served {s : State} {x y : Sample} {h1 h2 : List Sample}
    (htake : answered .ibf s.cfg.tIdleTx s.bus.host = some (x, h1))
    (hecho : answered .obf s.cfg.tIdleRx h1 = some (y, h2)) (hy : y.din = s.cfg.bIdle) :
    ∃ u : State, presenceExchange s = ({ u with link := true } : State).endPoll false none ∧ u.bus.host = h2 := by
  obtain ⟨htaken, hhost, -⟩ := Bus.send_answered (c := s.cfg) (v := s.cfg.bIdle) htake
  have hsend : ({ s with phase := .presence } : State).send s.cfg.bIdle s.cfg.tIdleTx =
      (true, { s with phase := .presence, bus := (s.bus.send s.cfg s.cfg.bIdle s.cfg.tIdleTx).2 }) :=
    Prod.ext htaken rfl
  rw [← hhost] at hecho
  obtain ⟨b, hrecv, hleft, -⟩ := recv_served
    (s := { s with phase := .presence, bus := (s.bus.send s.cfg s.cfg.bIdle s.cfg.tIdleTx).2 }) hecho
  unfold presenceExchange
  rw [hsend]
  dsimp only
  rw [hrecv]
  exact ⟨_, if_pos hy, hleft⟩

/-- An opcode read without a byte is one wait that timed out, and it changes nothing but `phase` and the bus (R153). -/
theorem opcodeRead_silent {s : State} (h : (opcodeRead s).1 = none) :
    ∃ b, opcodeRead s = (none, { s with phase := .opcodeRead, bus := b }) ∧ b.wire = .rxTimeout :: s.bus.wire := by
  unfold opcodeRead at h ⊢
  rcases State.recv_open { s with phase := .opcodeRead } s.cfg.tCmd with ⟨v, b, -, -, e⟩ | ⟨b, -, hwire, e⟩
  · rw [e] at h
    cases h
  · rw [e]
    exact ⟨b, rfl, hwire⟩

theorem opcodeRead_link (s : State) : (opcodeRead s).2.link = s.link := by
  rw [opcodeRead_state]
  exact (State.recv_keeps _ _ _).link

theorem poll_of_silent {s t : State} (hup : s.link = true) (h : opcodeRead s = (none, t)) :
    poll s = .next (linkLoss t) := by
  unfold poll
  rw [if_pos hup, h]

theorem poll_of_opcode {s : State} {op : Byte} (hup : s.link = true) (h : (opcodeRead s).1 = some op) :
    poll s = exec (decodeByte (opcodeRead s).2.cfg op) (opcodeRead s).2 := by
  have e : opcodeRead s = (some op, (opcodeRead s).2) := Prod.ext h rfl
  unfold poll
  rw [if_pos hup, e]

/-- Settles O24: the served presence exchange, the silent opcode read, and that no instruction clears the link. -/
theorem linkUpAndDown : Obligations.LinkUpAndDown := by
  refine ⟨fun s x y h1 h2 hdown htake hecho hy => ?_, fun s hup hnone => ?_, fun s t hup hpoll hdown => ?_⟩
  · obtain ⟨u, e, hhost⟩ := presenceExchange_served htake hecho hy
    exact ⟨_, (poll_of_unlinked hdown).trans (congrArg _ e), rfl, rfl, hhost⟩
  · obtain ⟨b, e, hwire⟩ := opcodeRead_silent hnone
    exact ⟨_, poll_of_silent hup e, rfl, rfl, rfl, hwire, rfl, rfl, rfl⟩
  · cases hop : (opcodeRead s).1 with
    | none => rfl
    | some op =>
      obtain ⟨hkeep, -⟩ := exec_keeps_link ((poll_of_opcode hup hop).symm.trans hpoll)
      rw [hkeep, opcodeRead_link, hup] at hdown
      cases hdown

/-! ## The abort entry (R279) -/

/-- Settles O49: an abort is the end of the poll, which puts free values in `crc`, `buf`, the latches and `D_out`. -/
theorem abortEntry : Obligations.AbortEntry := fun _ _ =>
  ⟨rfl, rfl, rfl, rfl, rfl, rfl, rfl, rfl, rfl, rfl, id⟩

/-! ## Aborts before the action (R280) -/

/-- An abort after transfers only leaves the collaborators, the walking registers and the link as the command found
them. -/
theorem Transferred.takeAbort_noTrace {i : Instr} {s v : State} (h : Transferred (s.dispatch i) v) (c : Cause) :
    (v.takeAbort c).coll = s.coll ∧ (v.takeAbort c).cwd = s.cwd ∧ (v.takeAbort c).dircur = s.dircur ∧
      (v.takeAbort c).link = s.link :=
  ⟨h.coll, h.cwd, h.dircur, h.link⟩

/-- A command whose handler aborts ends in the abort entry. -/
theorem exec_of_abort {i : Instr} {s v : State} {p : Progress Unit} {c : Cause} (hexec : exec i s = .next p.leave)
    (hp : p = .abort c v) : exec i s = .next (v.takeAbort c) := by
  rw [hexec, hp]
  rfl

/-- Another byte than the checksum leaves the accumulator not zero (R91, R126). -/
theorem crcFold_ne_zero_of_ne_checksum {op ck : Byte} {bs : List Byte} (h : ck ≠ checksum (op :: bs)) :
    crcFold (crcFoldAll op bs) ck ≠ 0 := by
  intro hzero
  rw [checksum_cons] at h
  exact h ((crcGood_crcFold _ _).1 (beq_iff_eq.2 hzero))

/-- Settles O50: of the three ways of `exec_ends` the one past the action has other causes, and `exec_inbound` says what
every command does with a wrong checksum byte. -/
theorem earlyAbortsLeaveNoTrace : Obligations.EarlyAbortsLeaveNoTrace := by
  refine ⟨fun i s t hexec hcause => ?_, fun m s ck h' hvalid hwf hcmd hck hoffer => ?_⟩
  · rcases exec_ends i s t hexec with
      ⟨-, -, hlink, hcwd, hcur, hcoll, -⟩ | ⟨c, v, hv, rfl, -⟩ | ⟨v, u, w, how, -, -, -, rfl, hhow⟩
    · exact ⟨hcoll, hcwd, hcur, hlink⟩
    · exact hv.takeAbort_noTrace c
    · rcases hhow with rfl | ⟨rfl, -⟩ <;> simp at hcause
  · obtain ⟨p, hexec, hinbound, -⟩ := exec_inbound m s hvalid hwf hcmd
    obtain ⟨v, taken, hp, hv, hwire⟩ := hinbound ck h' hoffer (crcFold_ne_zero_of_ne_checksum hck)
    exact ⟨_, taken, exec_of_abort hexec hp, rfl, rfl, hwire, hv.takeAbort_noTrace _⟩

/-! ## What the host sees last (R173, R270, R271) -/

/-- Settles O51: every way of `exec_ends` carries the last events of its cause, and `exec_inbound` says what every
command does with a host that falls silent: `more` is empty exactly where the checksum byte is due. -/
theorem abortsShowOnTheWire : Obligations.AbortsShowOnTheWire := by
  refine ⟨fun i s t hexec => ?_, fun m s q more h' hvalid hwf hcmd hbody hoffer hmiss => ?_⟩
  · rcases exec_ends i s t hexec with
      ⟨-, -, -, -, -, -, hend⟩ | ⟨c, v, hv, rfl, hc⟩ | ⟨v, u, w, how, -, -, -, rfl, hhow⟩
    · rcases hend with hend | hend <;> rw [hend] <;> exact ⟨nofun, nofun, nofun⟩
    · rcases hc with rfl | habort
      · exact ⟨nofun, nofun, nofun⟩
      · have hcfg : v.cfg = s.cfg := hv.cfg
        have hlast := habort c v rfl
        rw [hcfg] at hlast
        rcases hlast with ⟨rfl, hwire⟩ | ⟨rfl, hwire⟩
        · exact ⟨fun _ => hwire, nofun, nofun⟩
        · exact ⟨nofun, fun _ => hwire, nofun⟩
    · rcases hhow with rfl | ⟨rfl, hwire⟩
      · exact ⟨nofun, nofun, nofun⟩
      · exact ⟨nofun, nofun, fun _ => hwire⟩
  · obtain ⟨p, hexec, -, hinbound⟩ := exec_inbound m s hvalid hwf hcmd
    obtain ⟨v, hp, hv, hproper, hwhole⟩ := hinbound q h' ⟨more, hbody.symm⟩ hoffer hmiss
    have hmore : q = m.body ↔ more = [] := by simp [hbody]
    exact ⟨_, exec_of_abort hexec hp, rfl, rfl, fun h => hproper (mt hmore.1 h), fun h => hwhole (hmore.2 h),
      hv.takeAbort_noTrace _⟩

end Sys2Proof.Machine

/-! PROOFS. An idle engine's poll always returns, and no other poll runs (O59). -/

namespace Sys2Proof.Machine

/-- Every instruction answers a next state: a command by its handler's return or abort, the other two bytes at once
(R271). -/
theorem exec_answers (i : Instr) (s : State) : ∃ t, exec i s = .next t := by
  cases hc : Instr.isCommand i with
  | true =>
    obtain ⟨p, hexec, -⟩ := exec_handled i s hc
    exact ⟨p.leave, hexec⟩
  | false =>
    cases i with
    | idle => exact ⟨_, exec_idle s⟩
    | unrecognised b => exact ⟨_, exec_unrecognised b s⟩
    | _ => cases hc

/-- An engine in the middle of a poll refuses another (U14). -/
theorem step_of_not_idle {s : State} (h : s.phase ≠ .idle) : step s = .refused .pollReentered := if_neg h

/-- Settles O59: of the three ways of `step_cases` two answer outright and the third runs an instruction, which
answers by `exec_answers`. -/
theorem pollAlwaysReturns : Obligations.PollAlwaysReturns := by
  refine fun s => ⟨fun hidle => ?_, step_of_not_idle⟩
  rcases step_cases s hidle with ⟨-, hpresence⟩ | ⟨-, -, hloss⟩ | ⟨-, op, -, hexec⟩
  · exact ⟨_, hpresence⟩
  · exact ⟨_, hloss⟩
  · rw [hexec]
    exact exec_answers _ _

end Sys2Proof.Machine

/-! PROOFS. The reset state meets the invariant (O57). -/

namespace Sys2Proof.Machine

@[simp] theorem Coll.slot_reset (d : Fin 4) : Coll.reset.slot d = Slot.reset := by
  simp [Coll.slot, Coll.reset, Vector.get_eq_getElem]

/-- The collaborators at reset: every image is the empty one, every path is empty, no file is known. -/
theorem Coll.reset_ok : Coll.reset.Ok := by
  refine ⟨fun d => ?_, nofun⟩
  rw [Coll.slot_reset]
  exact ⟨Memory.nil_wf, Nat.zero_le _⟩

/-- Settles O57: the path is the root itself, which a valid configuration keeps within `CWD_CAP`
(notes/assumptions/19.md), no directory is open, and the collaborators are as `Coll.reset_ok` says. -/
theorem resetMeetsInvariant : Obligations.ResetMeetsInvariant := by
  intro c hvalid
  have ⟨_, _, _, _, _, _, _, _, _, _, hroot⟩ := hvalid
  exact {
    cfgValid := hvalid
    idle := rfl
    busDefault := ⟨rfl, rfl, rfl, rfl⟩
    cwdOk := ⟨List.prefix_rfl, hroot⟩
    cursorOk := ⟨rfl, nofun⟩
    collOk := Coll.reset_ok }

end Sys2Proof.Machine
